-- ==== Sys2Proof/Word.lean ====
section
/-! DEFINITION. The plain value types of the core: words, the binary64 pattern, pixels, rasters and word
buffers (spec 00_scope.md R11, R12; 10_state.md R27, R28). -/

namespace Sys2Proof

/-- A 32-bit word: CMD, STATUS, a packed word, a channel, a dimension (R27, R28, R29, R90). -/
abbrev Word32 := BitVec 32

/-- A 64-bit word: the ports W64, V64, RW64 and the s64 integer ports (R24, R25). -/
abbrev Word64 := BitVec 64

/-- The content of a float port, a 64-bit pattern (R26): a binary64 value under the default NUMERIC parameter (R9, R12). A
structure, so that no bit-vector arithmetic applies to it by accident. -/
structure F64 where
  bits : Word64
  deriving DecidableEq, Repr, Inhabited

/-- One pixel entry of a raster buffer: three 32-bit channels (R27). -/
structure Pixel where
  r : Word32
  g : Word32
  b : Word32
  deriving DecidableEq, Repr, Inhabited

/-- A raster buffer (R27). Its count `n` is the length of `px`. The width of its dimensions is the parameter DIM_BITS, by
default 32 (R9, D21). -/
structure Raster (dimBits : Nat := 32) where
  width : BitVec dimBits
  height : BitVec dimBits
  denom : Word32
  px : List Pixel
  deriving DecidableEq, Repr, Inhabited

/-- The count of pixel entries, the part `n` of a raster buffer (R27). -/
abbrev Raster.n {dimBits : Nat} (R : Raster dimBits) : Nat := R.px.length

/-- A word buffer (R28). Its count `n` is the length of the list. -/
abbrev WordBuffer := List Word32

/-- Normalized RGB of one pixel (R162). -/
structure Rgb where
  r : F64
  g : F64
  b : F64
  deriving DecidableEq, Repr, Inhabited

/-- Y/Pb/Pr of one pixel (R3, R163). -/
structure Ypp where
  y : F64
  pb : F64
  pr : F64
  deriving DecidableEq, Repr, Inhabited

/-- The six coefficients of a block, in the port order of R99. -/
structure Coeffs where
  a : F64
  b : F64
  c : F64
  d : F64
  pb : F64
  pr : F64
  deriving DecidableEq, Repr, Inhabited

/-- A quantized block record: the six integers of one packed word (R16, R99). -/
structure Record where
  a : Int
  b : Int
  c : Int
  d : Int
  pb : Int
  pr : Int
  deriving DecidableEq, Repr, Inhabited

end Sys2Proof
end

