-- ==== Sys2Proof/Syntax.lean ====
section
/-! DEFINITION. The command set: one constructor per row of spec/opcode_table.json, in the table's order (spec
30_encoding.md R92). The immediates WIDTH and LSB are naturals (R91, 40_bitfield.md R132). -/

namespace Sys2Proof

/-- A command of the core. -/
inductive Instr where
  | fitsU (width : Nat)
  | fitsS (width : Nat)
  | extractU (width lsb : Nat)
  | extractS (width lsb : Nat)
  | insertU (width lsb : Nat)
  | insertS (width lsb : Nat)
  | rgbToNorm
  | normToYpbpr
  | ypbprToNorm
  | normToRgb
  | blkFwd
  | blkInv
  | quantA
  | quantBcd
  | chromaQ
  | chromaDq
  | dequantA
  | dequantBcd
  | blkQuant
  | blkDequant
  | pack
  | unpack
  | trim
  | blockCount
  | blockMap
  | compress
  | decompress
  deriving DecidableEq, Repr

/-- The WIDTH immediate of a command, 0 where it has none (R91). -/
def Instr.width : Instr → Nat
  | .fitsU w | .fitsS w => w
  | .extractU w _ | .extractS w _ | .insertU w _ | .insertS w _ => w
  | .rgbToNorm | .normToYpbpr | .ypbprToNorm | .normToRgb | .blkFwd | .blkInv | .quantA | .quantBcd | .chromaQ
  | .chromaDq | .dequantA | .dequantBcd | .blkQuant | .blkDequant | .pack | .unpack | .trim | .blockCount | .blockMap
  | .compress | .decompress => 0

/-- The LSB immediate of a command, 0 where it has none (R91). -/
def Instr.lsb : Instr → Nat
  | .extractU _ l | .extractS _ l | .insertU _ l | .insertS _ l => l
  | .fitsU _ | .fitsS _ | .rgbToNorm | .normToYpbpr | .ypbprToNorm | .normToRgb | .blkFwd | .blkInv | .quantA
  | .quantBcd | .chromaQ | .chromaDq | .dequantA | .dequantBcd | .blkQuant | .blkDequant | .pack | .unpack | .trim
  | .blockCount | .blockMap | .compress | .decompress => 0

end Sys2Proof
end

