-- ==== Sys2Proof/WellFormed.lean ====
section
/-! DEFINITION. Well-formed commands: those a command word can hold (spec 30_encoding.md R90, R91, R95). -/

namespace Sys2Proof

/-- Both immediates fit their 7-bit fields (R90). Values above 64 are well-formed (R95): the bit-field rules reject
them with FIELD_BOUNDS. -/
def Instr.wellFormed (i : Instr) : Bool := decide (i.width < 128) && decide (i.lsb < 128)

end Sys2Proof
end

