-- ==== Sys2Proof/Decode.lean ====
section
/-! DEFINITION. Decoding and encoding of command words (spec 30_encoding.md R90 to R95). -/

namespace Sys2Proof

/-- Why a word does not decode (R93, R94). Every one of them is ILLEGAL_COMMAND. -/
inductive DecodeReject where
  /-- bits 31:22 are not zero -/
  | reservedBits
  /-- the operation code is not in R92's table -/
  | unknownOpcode
  /-- FITS_U or FITS_S with a nonzero LSB -/
  | lsbNotZero
  /-- a command without immediates with a nonzero WIDTH or LSB -/
  | immediateNotZero
  deriving DecidableEq, Repr

/-- The fields of a command word (R90). -/
def cmdOpc (w : Word32) : Nat := (w.extractLsb' 0 8).toNat
def cmdWidth (w : Word32) : Nat := (w.extractLsb' 8 7).toNat
def cmdLsb (w : Word32) : Nat := (w.extractLsb' 15 7).toNat
def cmdRsvd (w : Word32) : Nat := (w.extractLsb' 22 10).toNat

/-- FITS_U and FITS_S must have LSB = 0 (R91). -/
def decodeFits (i : Instr) (lsb : Nat) : Except DecodeReject Instr :=
  if lsb = 0 then .ok i else .error .lsbNotZero

/-- Commands other than the bit-field ones must have WIDTH = LSB = 0 (R91). -/
def decodePlain (i : Instr) (width lsb : Nat) : Except DecodeReject Instr :=
  if width = 0 ∧ lsb = 0 then .ok i else .error .immediateNotZero

/-- The lookup of R92 and the immediate checks of R93. -/
def decodeFields (opc width lsb : Nat) : Except DecodeReject Instr :=
  match opc with
  | 0x01 => decodeFits (.fitsU width) lsb
  | 0x02 => decodeFits (.fitsS width) lsb
  | 0x03 => .ok (.extractU width lsb)
  | 0x04 => .ok (.extractS width lsb)
  | 0x05 => .ok (.insertU width lsb)
  | 0x06 => .ok (.insertS width lsb)
  | 0x10 => decodePlain .rgbToNorm width lsb
  | 0x11 => decodePlain .normToYpbpr width lsb
  | 0x12 => decodePlain .ypbprToNorm width lsb
  | 0x13 => decodePlain .normToRgb width lsb
  | 0x20 => decodePlain .blkFwd width lsb
  | 0x21 => decodePlain .blkInv width lsb
  | 0x30 => decodePlain .quantA width lsb
  | 0x31 => decodePlain .quantBcd width lsb
  | 0x32 => decodePlain .chromaQ width lsb
  | 0x33 => decodePlain .chromaDq width lsb
  | 0x34 => decodePlain .dequantA width lsb
  | 0x35 => decodePlain .dequantBcd width lsb
  | 0x36 => decodePlain .blkQuant width lsb
  | 0x37 => decodePlain .blkDequant width lsb
  | 0x40 => decodePlain .pack width lsb
  | 0x41 => decodePlain .unpack width lsb
  | 0x50 => decodePlain .trim width lsb
  | 0x51 => decodePlain .blockCount width lsb
  | 0x52 => decodePlain .blockMap width lsb
  | 0x53 => decodePlain .compress width lsb
  | 0x54 => decodePlain .decompress width lsb
  | _ => .error .unknownOpcode

/-- `decode` of R93, total on every 32-bit word. -/
def decode (w : Word32) : Except DecodeReject Instr :=
  if cmdRsvd w ≠ 0 then .error .reservedBits
  else decodeFields (cmdOpc w) (cmdWidth w) (cmdLsb w)

/-- The operation code of a command (R92). -/
def opcode : Instr → Nat
  | .fitsU _ => 0x01
  | .fitsS _ => 0x02
  | .extractU _ _ => 0x03
  | .extractS _ _ => 0x04
  | .insertU _ _ => 0x05
  | .insertS _ _ => 0x06
  | .rgbToNorm => 0x10
  | .normToYpbpr => 0x11
  | .ypbprToNorm => 0x12
  | .normToRgb => 0x13
  | .blkFwd => 0x20
  | .blkInv => 0x21
  | .quantA => 0x30
  | .quantBcd => 0x31
  | .chromaQ => 0x32
  | .chromaDq => 0x33
  | .dequantA => 0x34
  | .dequantBcd => 0x35
  | .blkQuant => 0x36
  | .blkDequant => 0x37
  | .pack => 0x40
  | .unpack => 0x41
  | .trim => 0x50
  | .blockCount => 0x51
  | .blockMap => 0x52
  | .compress => 0x53
  | .decompress => 0x54

/-- `enc(OPC, WIDTH, LSB) = OPC | (WIDTH << 8) | (LSB << 15)` (R90). -/
def encodeFields (opc width lsb : Nat) : Word32 :=
  BitVec.ofNat 32 (opc ||| (width <<< 8) ||| (lsb <<< 15))

/-- The command word of a well-formed command (R90, R91). -/
def encode (i : Instr) : Word32 := encodeFields (opcode i) i.width i.lsb

/-- The command this decoder reads from a word numbered as spec/opcode_table.json numbers it. Every command is one
32-bit word (R90), so the bits above `nbits` are zero and a number of more than 32 bits is no command. -/
def decodeTableWord (nbits w : Nat) : Option Instr :=
  if w % 2 ^ nbits < 2 ^ 32 then
    match decode (BitVec.ofNat 32 (w % 2 ^ nbits)) with
    | .ok i => some i
    | .error _ => none
  else none

end Sys2Proof
end

