-- ==== Sys2Proof/Machine/State.lean ====
section
/-! DEFINITION. The state of the core and of its host: ports with valid bits, STATUS, CMD, and the host's actions and
readings (spec 10_state.md R20 to R39; 70_reset_and_hazards.md R340, R350, R351). -/

namespace Sys2Proof.Machine

/-- A port: its content and its valid bit, the mark that it holds a value written since reset (R32). While the valid
bit is 0 the content is unspecified and no rule lets it be observed (R35, R36). -/
structure Port (α : Type) where
  val : α
  valid : Bool
  deriving DecidableEq, Repr, Inhabited

/-- An input port (R24). -/
inductive InPort where
  | w64
  | v64
  | i (k : Fin 6)
  | f (k : Fin 12)
  | dimW
  | dimH
  | rasterIn
  | streamIn
  deriving DecidableEq, Repr

/-- A result port (R25). -/
inductive OutPort where
  | rw64
  | rb
  | ri (k : Fin 6)
  | rf (k : Fin 12)
  | rdimW
  | rdimH
  | streamOut
  | rasterOut
  deriving DecidableEq, Repr

/-- A value the host gives an input port, of the port's type (R24, R351). -/
inductive PortWrite (dimBits : Nat := 32) where
  | w64 (v : Word64)
  | v64 (v : Word64)
  | i (k : Fin 6) (v : Word64)
  | f (k : Fin 12) (v : F64)
  | dimW (v : BitVec dimBits)
  | dimH (v : BitVec dimBits)
  | rasterIn (v : Raster dimBits)
  | streamIn (v : WordBuffer)
  deriving DecidableEq, Repr

/-- A value of a result port or of STATUS: what a host read returns (R25, R29, R350). -/
inductive Reading (dimBits : Nat := 32) where
  | rw64 (v : Word64)
  | rb (v : Bool)
  | ri (k : Fin 6) (v : Word64)
  | rf (k : Fin 12) (v : F64)
  | rdimW (v : BitVec dimBits)
  | rdimH (v : BitVec dimBits)
  | streamOut (v : WordBuffer)
  | rasterOut (v : Raster dimBits)
  | status (v : Word32)
  deriving DecidableEq, Repr

/-- What the host can read (R29, R30, R35, R100). -/
inductive ReadTarget where
  | port (p : OutPort)
  | status
  | cmd
  deriving DecidableEq, Repr

/-- One action of a host program (R100, R351). -/
inductive HostAction (dimBits : Nat := 32) where
  /-- `WR <port>, <value>` -/
  | write (v : PortWrite dimBits)
  /-- a host write to a result port or to STATUS, ignored (R29, R351, S4) -/
  | writeIgnored (v : Reading dimBits)
  /-- a command line or `CMD <word>`: a write of CMD (R90) -/
  | command (w : Word32)
  /-- `RD <port>` -/
  | read (t : ReadTarget)
  /-- `RESET` (R340) -/
  | reset
  deriving DecidableEq, Repr

/-- The model faults of 60_exceptions.md R301: final, reported by no STATUS code. Each is safe: the model stops where
the hardware's behaviour is unspecified. -/
inductive Fault where
  /-- raised by a command that reads an input port whose valid bit is 0 (R301, R302 step 3, D15); safe. R36: "The model
  faults (`fault UNWRITTEN_OPERAND`) and writes no STATUS." -/
  | unwrittenOperand
  /-- raised by a host read of a result port whose valid bit is 0 (R301, R345, D15); safe. R35: "The model faults
  (`fault INVALID_RESULT_READ`)." -/
  | invalidResultRead
  /-- raised by a host read of CMD (R30, R301); safe -/
  | cmdRead
  /-- raised by a buffer read out of range (R61), which the rules make unreachable; safe -/
  | bufIndex
  deriving DecidableEq, Repr

/-- What the model gives no meaning to. -/
inductive Refusal where
  /-- raised by an arm of exec whose instruction has no meaning yet; safe. No arm is such an arm. -/
  | notModelled (mnemonic : String)
  /-- raised by COMPRESS and DECOMPRESS when a buffer exceeds a finite BUF_CAP (R76); safe. Never under the build's
  configuration, which assumes unbounded buffers (log 6). -/
  | bufferOverCap
  /-- raised by a step under a configuration that does not conform (R342); safe. The build's configuration conforms. -/
  | nonconformingConfiguration
  deriving DecidableEq, Repr

/-- The state. The core's part is R24, R25, R29 and R30; `script` and `reads` are the host's (log 1). The width of the
dimension ports is the parameter DIM_BITS (R9, D21); `State` alone is the state at its default, 32. -/
structure State (dimBits : Nat := 32) where
  /-- W64 (R24) -/
  w64 : Port Word64
  /-- V64 (R24) -/
  v64 : Port Word64
  /-- I[0..5], s64 (R24) -/
  i : Vector (Port Word64) 6
  /-- F[0..11] (R24, R26) -/
  f : Vector (Port F64) 12
  /-- DIM_W (R24) -/
  dimW : Port (BitVec dimBits)
  /-- DIM_H (R24) -/
  dimH : Port (BitVec dimBits)
  /-- RASTER_IN (R24, R27) -/
  rasterIn : Port (Raster dimBits)
  /-- STREAM_IN (R24, R28) -/
  streamIn : Port WordBuffer
  /-- RW64 (R25) -/
  rw64 : Port Word64
  /-- RB (R25) -/
  rb : Port Bool
  /-- RI[0..5], s64 (R25) -/
  ri : Vector (Port Word64) 6
  /-- RF[0..11] (R25, R26) -/
  rf : Vector (Port F64) 12
  /-- RDIM_W (R25) -/
  rdimW : Port (BitVec dimBits)
  /-- RDIM_H (R25) -/
  rdimH : Port (BitVec dimBits)
  /-- STREAM_OUT (R25, R28) -/
  streamOut : Port WordBuffer
  /-- RASTER_OUT (R25, R27) -/
  rasterOut : Port (Raster dimBits)
  /-- STATUS (R29) -/
  status : Word32
  /-- CMD: the word of the command in progress, if any (R30, R39); none between steps (R38, log 3) -/
  cmd : Option Word32
  /-- the host actions still to be performed, the next one first (R23, R100; log 1) -/
  script : List (HostAction dimBits)
  /-- the values the host's reads returned, oldest first (R350; log 1) -/
  reads : List (Reading dimBits)
  deriving DecidableEq, Repr

/-- An empty port: valid bit 0 (R39). The content is the model's choice and never observable (log 2). -/
def Port.empty {α : Type} (content : α) : Port α := ⟨content, false⟩

/-- The machine right after reset and at power-on (R39, R340, R341), at any DIM_BITS: every valid bit 0, STATUS =
0x00000FF7, no command in progress. Contents behind valid bits are DESIGN CHOICE zero (log 2); the host has no actions
left and has read nothing (log 1). -/
def State.resetAt (dimBits : Nat) : State dimBits where
  w64 := .empty 0
  v64 := .empty 0
  i := Vector.replicate 6 (.empty 0)
  f := Vector.replicate 12 (.empty ⟨0⟩)
  dimW := .empty 0
  dimH := .empty 0
  rasterIn := .empty ⟨0, 0, 0, []⟩
  streamIn := .empty []
  rw64 := .empty 0
  rb := .empty false
  ri := Vector.replicate 6 (.empty 0)
  rf := Vector.replicate 12 (.empty ⟨0⟩)
  rdimW := .empty 0
  rdimH := .empty 0
  streamOut := .empty []
  rasterOut := .empty ⟨0, 0, 0, []⟩
  status := 0x00000FF7#32
  cmd := none
  script := []
  reads := []

/-- The machine right after reset at the default DIM_BITS. -/
def State.reset : State := State.resetAt 32

end Sys2Proof.Machine
end

