-- ==== Sys2Proof/Machine/Flags.lean ====
section
/-! DEFINITION. The STATUS word: its codes, its fields and how a word is composed (spec 10_state.md R29, R31, R34;
60_exceptions.md R300, R302). The core has no other flags (R31). -/

namespace Sys2Proof.Machine

/-- STATUS.CODE (R29, R300). -/
inductive Code where
  | ok
  | rangeViolation
  | malformedInput
  | fieldBounds
  | illegalCommand
  | numericDomain
  /-- reserved for the host; the core never writes it (R306) -/
  | externalIo
  /-- no command has completed since reset -/
  | none
  deriving DecidableEq, Repr

/-- The number of a code (R29). -/
def Code.number : Code → BitVec 4
  | .ok => 0#4
  | .rangeViolation => 1#4
  | .malformedInput => 2#4
  | .fieldBounds => 3#4
  | .illegalCommand => 4#4
  | .numericDomain => 5#4
  | .externalIo => 6#4
  | .none => 7#4

/-- What a `raise` reports: a code with its FIELD and REASON (R302). -/
structure Error where
  code : Code
  field : BitVec 4
  reason : BitVec 4
  deriving DecidableEq, Repr

/-- `(REASON << 8) | (FIELD << 4) | CODE`, bits 31:12 zero (R29, R302). -/
def statusWord (e : Error) : Word32 := 0#20 ++ e.reason ++ e.field ++ e.code.number

/-- STATUS after a command that completed: 0x00000FF0 (R34). -/
def statusOk : Word32 := statusWord ⟨.ok, 0xF#4, 0xF#4⟩

/-- The fields of a STATUS word (R29). -/
def statusCode (w : Word32) : BitVec 4 := w.extractLsb' 0 4
def statusField (w : Word32) : BitVec 4 := w.extractLsb' 4 4
def statusReason (w : Word32) : BitVec 4 := w.extractLsb' 8 4
def statusReserved (w : Word32) : BitVec 20 := w.extractLsb' 12 20

/-- RANGE_VIOLATION outside PACK (R141, R142). -/
def errRange : Error := ⟨.rangeViolation, 0xF#4, 0xF#4⟩

/-- RANGE_VIOLATION of PACK on field `f` (R232). -/
def errPackField (f : BitVec 4) : Error := ⟨.rangeViolation, f, 0xF#4⟩

/-- MALFORMED_INPUT with a REASON (R300). -/
def errMalformed (reason : BitVec 4) : Error := ⟨.malformedInput, 0xF#4, reason⟩

/-- FIELD_BOUNDS (R132). -/
def errFieldBounds : Error := ⟨.fieldBounds, 0xF#4, 0xF#4⟩

/-- ILLEGAL_COMMAND (R93). -/
def errIllegal : Error := ⟨.illegalCommand, 0xF#4, 0xF#4⟩

/-- NUMERIC_DOMAIN (R160). -/
def errNumeric : Error := ⟨.numericDomain, 0xF#4, 0xF#4⟩

/-- The REASON numbers of MALFORMED_INPUT (R29). -/
def reasonWordCount : BitVec 4 := 0#4
def reasonOddDimension : BitVec 4 := 1#4
def reasonPixelCount : BitVec 4 := 2#4
def reasonDenominator : BitVec 4 := 3#4
def reasonChannel : BitVec 4 := 4#4
def reasonValueRange : BitVec 4 := 5#4
def reasonUpperBits : BitVec 4 := 6#4
def reasonBlockIndex : BitVec 4 := 7#4

end Sys2Proof.Machine
end

