-- ==== Sys2Proof/Machine/Operands.lean ====
section
/-! DEFINITION. Operand forms: which input ports hold a value, the readings u64, s64 and u32 of a port, and the values
a command writes to the result ports (spec 10_state.md R24, R25, R32 to R36; 00_scope.md R11). -/

namespace Sys2Proof.Machine

variable {dimBits : Nat}

/-- The valid bit of an input port (R32). -/
def State.inValid (s : State dimBits) : InPort → Bool
  | .w64 => s.w64.valid
  | .v64 => s.v64.valid
  | .i k => s.i[k].valid
  | .f k => s.f[k].valid
  | .dimW => s.dimW.valid
  | .dimH => s.dimH.valid
  | .rasterIn => s.rasterIn.valid
  | .streamIn => s.streamIn.valid

/-- The valid bit of a result port (R32). -/
def State.outValid (s : State dimBits) : OutPort → Bool
  | .rw64 => s.rw64.valid
  | .rb => s.rb.valid
  | .ri k => s.ri[k].valid
  | .rf k => s.rf[k].valid
  | .rdimW => s.rdimW.valid
  | .rdimH => s.rdimH.valid
  | .streamOut => s.streamOut.valid
  | .rasterOut => s.rasterOut.valid

/-- The content of a result port, as a read returns it (R351). -/
def State.outReading (s : State dimBits) : OutPort → Reading dimBits
  | .rw64 => .rw64 s.rw64.val
  | .rb => .rb s.rb.val
  | .ri k => .ri k s.ri[k].val
  | .rf k => .rf k s.rf[k].val
  | .rdimW => .rdimW s.rdimW.val
  | .rdimH => .rdimH s.rdimH.val
  | .streamOut => .streamOut s.streamOut.val
  | .rasterOut => .rasterOut s.rasterOut.val

/-- I[k] read as s64 (R24). -/
def State.int (s : State dimBits) (k : Fin 6) : Int := s.i[k].val.toInt

/-- F[k] (R26). -/
def State.flt (s : State dimBits) (k : Fin 12) : F64 := s.f[k].val

/-- V64 read as u64, for FITS_U and INSERT_U (R24). -/
def State.vU64 (s : State dimBits) : Int := (s.v64.val.toNat : Int)

/-- V64 read as s64, for FITS_S and INSERT_S (R24). -/
def State.vS64 (s : State dimBits) : Int := s.v64.val.toInt

/-- DIM_W and DIM_H read as unsigned integers (R24). -/
def State.dimWNat (s : State dimBits) : Nat := s.dimW.val.toNat
def State.dimHNat (s : State dimBits) : Nat := s.dimH.val.toNat

/-- The s64 pattern of an integer (R11). -/
def s64 (n : Int) : Word64 := BitVec.ofInt 64 n

/-- The values a command writes on success (R25, R34). A port that is `none`, and an indexed port beyond the list, is
not written. -/
structure Results (dimBits : Nat := 32) where
  rw64 : Option Word64 := none
  rb : Option Bool := none
  /-- RI[0], RI[1], … -/
  ri : List Word64 := []
  /-- RF[0], RF[1], … -/
  rf : List F64 := []
  rdimW : Option (BitVec dimBits) := none
  rdimH : Option (BitVec dimBits) := none
  streamOut : Option WordBuffer := none
  rasterOut : Option (Raster dimBits) := none
  deriving DecidableEq, Repr

/-- Clearing a valid bit (R34). The content stays; it is unspecified from then on (log 2). -/
def Port.clear {α : Type} (p : Port α) : Port α := { p with valid := false }

/-- Writing a port sets its valid bit (R33, R34); without a value the port stays as it is. -/
def Port.load {α : Type} (p : Port α) : Option α → Port α
  | some v => ⟨v, true⟩
  | none => p

end Sys2Proof.Machine
end

