-- ==== Sys2Proof/Machine/Ops.lean ====
section
/-! DEFINITION. The shared operations: the prologue and the end of every command, raising an error, the host's port
accesses, reset, and buffer accesses (spec 10_state.md R33 to R39; 20_memory.md R61, R62; 60_exceptions.md R302 to R305;
70_reset_and_hazards.md R340, R351). -/

namespace Sys2Proof.Machine

variable {dimBits : Nat}

/-- The outcome of a step of this machine. -/
abbrev Out (dimBits : Nat := 32) := Host.Outcome (State dimBits) Fault Refusal

/-- Why a command's pseudocode ends before its last line: a `raise` (R302), a model fault (R301), or a refusal
(R76). -/
inductive Stop where
  | raised (e : Error)
  | fault (f : Fault)
  | refused (r : Refusal)
  deriving DecidableEq, Repr

/-- A computation inside a command. -/
abbrev Calc (α : Type) := Except Stop α

/-- `raise` of R14. -/
def raise {α : Type} (e : Error) : Calc α := .error (.raised e)

/-- `if not ok : raise e`. -/
def check (ok : Bool) (e : Error) : Calc Unit := if ok then .ok () else raise e

/-- Clear the valid bit of every result port: step 1 of every command (R34, R302). -/
def State.clearResults (s : State dimBits) : State dimBits :=
  { s with
    rw64 := s.rw64.clear
    rb := s.rb.clear
    ri := Vector.ofFn fun k => s.ri[k].clear
    rf := Vector.ofFn fun k => s.rf[k].clear
    rdimW := s.rdimW.clear
    rdimH := s.rdimH.clear
    streamOut := s.streamOut.clear
    rasterOut := s.rasterOut.clear }

/-- Taking an error, the one exception the core has: STATUS is written with code, FIELD and REASON, and nothing else
(R302, R304). There is no handler, saved pc or mode (R304), and no return from it (R305): the command in progress ends
and control is the host's. -/
def State.takeError (s : State dimBits) (e : Error) : State dimBits := { s with status := statusWord e, cmd := none }

/-- The successful end of a command: its result ports written and valid, STATUS = 0x00000FF0 (R34, R302 step 5). -/
def State.succeed (s : State dimBits) (r : Results dimBits) : State dimBits :=
  { s with
    rw64 := s.rw64.load r.rw64
    rb := s.rb.load r.rb
    ri := Vector.ofFn fun k => s.ri[k].load r.ri[k.val]?
    rf := Vector.ofFn fun k => s.rf[k].load r.rf[k.val]?
    rdimW := s.rdimW.load r.rdimW
    rdimH := s.rdimH.load r.rdimH
    streamOut := s.streamOut.load r.streamOut
    rasterOut := s.rasterOut.load r.rasterOut
    status := statusOk
    cmd := none }

/-- How a calculation ends a command (R302 steps 4 and 5). -/
def State.finish (s : State dimBits) : Calc (Results dimBits) → Out dimBits
  | .ok r => .next (s.succeed r)
  | .error (.raised e) => .next (s.takeError e)
  | .error (.fault f) => .fault f
  | .error (.refused r) => .refused r

/-- Steps 1 and 3 to 5 of every command (R302): clear the result ports, read every named input port or fault
UNWRITTEN_OPERAND (R36, R301), run the pseudocode, write the outcome. Step 2, decoding, is `issueBy` of
Machine/HostPort.lean. DESIGN CHOICE (log 19): that fault also comes before the refusal of a buffer over a finite BUF_CAP,
which only `body` raises. -/
def runCommand (reads : List InPort) (body : State dimBits → Calc (Results dimBits)) (s : State dimBits) : Out dimBits :=
  if reads.all s.clearResults.inValid then s.clearResults.finish (body s.clearResults)
  else .fault .unwrittenOperand

/-- A command word that does not decode: the result ports cleared, ILLEGAL_COMMAND, no port read (R93, R302). -/
def illegalCommand (s : State dimBits) : Out dimBits := .next (s.clearResults.takeError errIllegal)

/-- `BufRead(buf, k)` (R61): one whole element, or the fault BUF_INDEX. -/
def bufRead {α : Type} (buf : List α) (k : Nat) : Calc α :=
  match buf[k]? with
  | some x => .ok x
  | none => .error (.fault .bufIndex)

/-- `BufWrite(buf, k, v)` on an output buffer under construction (R62). -/
def bufWrite {α : Type} (buf : List α) (k : Nat) (v : α) : List α := buf.set k v

/-- Refuse a buffer of `n` elements that exceeds a finite BUF_CAP (R76). Where a command does so among its other outcomes
is a DESIGN CHOICE (log 19). -/
def withinCap (cap : Option Nat) (n : Nat) : Calc Unit :=
  match cap with
  | none => .ok ()
  | some c => if n ≤ c then .ok () else .error (.refused .bufferOverCap)

/-- `[f k, f (k+1), …]`, `n` elements, in increasing index order (R14). -/
def collect {α : Type} (f : Nat → Calc α) : Nat → Nat → Calc (List α)
  | _, 0 => .ok []
  | k, n + 1 => do
    let x ← f k
    let xs ← collect f (k + 1) n
    return x :: xs

/-- A host write of an input port: the port takes the value and becomes valid (R33). -/
def State.writeInput (s : State dimBits) : PortWrite dimBits → State dimBits
  | .w64 v => { s with w64 := ⟨v, true⟩ }
  | .v64 v => { s with v64 := ⟨v, true⟩ }
  | .i k v => { s with i := s.i.set k ⟨v, true⟩ }
  | .f k v => { s with f := s.f.set k ⟨v, true⟩ }
  | .dimW v => { s with dimW := ⟨v, true⟩ }
  | .dimH v => { s with dimH := ⟨v, true⟩ }
  | .rasterIn v => { s with rasterIn := ⟨v, true⟩ }
  | .streamIn v => { s with streamIn := ⟨v, true⟩ }

/-- A host write of a result port or of STATUS: ignored (R29, R351). -/
def State.writeReadOnly (s : State dimBits) (_ : Reading dimBits) : State dimBits := s

/-- A host read (R30, R35, R350, R351): STATUS always returns; a result port returns its content if valid and faults
otherwise with INVALID_RESULT_READ (R301); CMD faults. -/
def hostRead (s : State dimBits) : ReadTarget → Out dimBits
  | .status => .next { s with reads := s.reads ++ [.status s.status] }
  | .port p =>
    if s.outValid p then .next { s with reads := s.reads ++ [s.outReading p] } else .fault .invalidResultRead
  | .cmd => .fault .cmdRead

/-- RESET, and power-on (R340, R341): every piece of the core's state as R39 says. The host keeps its own. -/
def State.resetCore (s : State dimBits) : State dimBits :=
  { State.resetAt dimBits with script := s.script, reads := s.reads }

/-- The wire byte image of a word buffer: big-endian, four bytes a word (R66). -/
def wireImage : WordBuffer → List (BitVec 8)
  | [] => []
  | w :: ws => w.extractLsb' 24 8 :: w.extractLsb' 16 8 :: w.extractLsb' 8 8 :: w.extractLsb' 0 8 :: wireImage ws

/-- Reading a wire image back (R67). Collaborators deliver whole words (R68): bytes that make no whole word are no
word. -/
def wordsOfWire : List (BitVec 8) → WordBuffer
  | b0 :: b1 :: b2 :: b3 :: rest => (b0 ++ b1 ++ b2 ++ b3) :: wordsOfWire rest
  | _ => []

end Sys2Proof.Machine
end

