-- ==== Sys2Proof/Machine/Bitfield.lean ====
section
/-! DEFINITION. The bit-field codec: FITS_U, FITS_S, EXTRACT_U, EXTRACT_S, INSERT_U, INSERT_S (spec 40_bitfield.md). -/

namespace Sys2Proof.Machine

variable {dimBits : Nat}

/-- `fits_unsigned(n, width)` (R130). -/
def fitsUnsigned (n : Int) (width : Nat) : Bool := decide (0 ≤ n ∧ n < ((2 ^ width : Nat) : Int))

/-- `fits_signed(n, width)` (R131): for width 0 only n = 0. -/
def fitsSigned (n : Int) (width : Nat) : Bool :=
  if width = 0 then decide (n = 0)
  else decide (-((2 ^ (width - 1) : Nat) : Int) ≤ n ∧ n < ((2 ^ (width - 1) : Nat) : Int))

/-- A field in bounds (R132). -/
def inBounds (width lsb : Nat) : Bool := decide (width + lsb ≤ 64)

/-- `extract_unsigned(word, width, lsb)` (R133): `zext_64(word[lsb+width-1 : lsb])`, 0 for width 0. -/
def extractUnsigned (word : Word64) (width lsb : Nat) : Word64 := (word.extractLsb' lsb width).setWidth 64

/-- `extract_signed(word, width, lsb)` (R134): `sext_64(word[lsb+width-1 : lsb])`, 0 for width 0. -/
def extractSigned (word : Word64) (width lsb : Nat) : Word64 := (word.extractLsb' lsb width).signExtend 64

/-- The 64-bit mask of a field (R135). -/
def fieldMask (width lsb : Nat) : Word64 := BitVec.ofNat 64 ((2 ^ width - 1) <<< lsb)

/-- The field replaced by `value mod 2^width`, every other bit kept (R135). -/
def replaceField (word : Word64) (width lsb : Nat) (value : Int) : Word64 :=
  (word &&& ~~~fieldMask width lsb) |||
    BitVec.ofNat 64 ((value % ((2 ^ width : Nat) : Int)).toNat <<< lsb)

/-- `insert_unsigned(word, width, lsb, value)` (R135): none when the value does not fit. -/
def insertUnsigned (word : Word64) (width lsb : Nat) (value : Int) : Option Word64 :=
  if fitsUnsigned value width then some (replaceField word width lsb value) else none

/-- `insert_signed(word, width, lsb, value)` (R136): none when the value does not fit. -/
def insertSigned (word : Word64) (width lsb : Nat) (value : Int) : Option Word64 :=
  if fitsSigned value width then some (replaceField word width lsb value) else none

/-- An insert's result in RW64, or RANGE_VIOLATION (R141, R142). -/
def insertResult : Option Word64 → Calc (Results dimBits)
  | some w => .ok { rw64 := some w }
  | none => raise errRange

/-- The calculation of FITS_U (R137). -/
def fitsUCalc (width : Nat) (s : State dimBits) : Calc (Results dimBits) := do
  check (decide (width ≤ 64)) errFieldBounds
  return { rb := some (fitsUnsigned s.vU64 width) }

/-- FITS_U (R137). -/
def execFitsU (width : Nat) (s : State) : Out :=
  runCommand [.v64] (fitsUCalc width) s

/-- The calculation of FITS_S (R138). -/
def fitsSCalc (width : Nat) (s : State dimBits) : Calc (Results dimBits) := do
  check (decide (width ≤ 64)) errFieldBounds
  return { rb := some (fitsSigned s.vS64 width) }

/-- FITS_S (R138). -/
def execFitsS (width : Nat) (s : State) : Out :=
  runCommand [.v64] (fitsSCalc width) s

/-- The calculation of EXTRACT_U (R139). -/
def extractUCalc (width lsb : Nat) (s : State dimBits) : Calc (Results dimBits) := do
  check (inBounds width lsb) errFieldBounds
  return { rw64 := some (extractUnsigned s.w64.val width lsb) }

/-- EXTRACT_U (R139). -/
def execExtractU (width lsb : Nat) (s : State) : Out :=
  runCommand [.w64] (extractUCalc width lsb) s

/-- The calculation of EXTRACT_S (R140). -/
def extractSCalc (width lsb : Nat) (s : State dimBits) : Calc (Results dimBits) := do
  check (inBounds width lsb) errFieldBounds
  return { rw64 := some (extractSigned s.w64.val width lsb) }

/-- EXTRACT_S (R140). -/
def execExtractS (width lsb : Nat) (s : State) : Out :=
  runCommand [.w64] (extractSCalc width lsb) s

/-- The calculation of INSERT_U (R141): FIELD_BOUNDS before RANGE_VIOLATION (R303). -/
def insertUCalc (width lsb : Nat) (s : State dimBits) : Calc (Results dimBits) := do
  check (inBounds width lsb) errFieldBounds
  insertResult (insertUnsigned s.w64.val width lsb s.vU64)

/-- INSERT_U (R141). -/
def execInsertU (width lsb : Nat) (s : State) : Out :=
  runCommand [.w64, .v64] (insertUCalc width lsb) s

/-- The calculation of INSERT_S (R142): FIELD_BOUNDS before RANGE_VIOLATION (R303). -/
def insertSCalc (width lsb : Nat) (s : State dimBits) : Calc (Results dimBits) := do
  check (inBounds width lsb) errFieldBounds
  insertResult (insertSigned s.w64.val width lsb s.vS64)

/-- INSERT_S (R142). -/
def execInsertS (width lsb : Nat) (s : State) : Out :=
  runCommand [.w64, .v64] (insertSCalc width lsb) s

end Sys2Proof.Machine
end

