-- ==== Sys2Proof/Machine/Float.lean ====
section
/-! DEFINITION. Binary64 arithmetic: exact value, correctly rounded `+ - * /`, conversion from integers and decimal
literals, exact comparison, `clamp` and `round` (spec 00_scope.md R12, R13); and the parameters NUMERIC and ROUND, of which
these are the defaults (R9, 93_implementation_defined.md S13). Every finite binary64 value is a whole number of units of
2^-1074, so exact values are integers here. -/

namespace Sys2Proof

/-- The sign bit. -/
def F64.sign (x : F64) : Bool := x.bits.msb

/-- The biased exponent field. -/
def F64.expField (x : F64) : Nat := x.bits.toNat / 2 ^ 52 % 2 ^ 11

/-- The fraction field. -/
def F64.fracField (x : F64) : Nat := x.bits.toNat % 2 ^ 52

/-- Neither a NaN nor an infinity. -/
def F64.isFinite (x : F64) : Bool := x.expField != 2047

/-- A NaN: all-ones exponent and a nonzero fraction. -/
def F64.isNaN (x : F64) : Bool := x.expField == 2047 && x.fracField != 0

/-- An infinity: all-ones exponent and a zero fraction. -/
def F64.isInf (x : F64) : Bool := x.expField == 2047 && x.fracField == 0

/-- The magnitude in units of 2^-1074, exact for every finite value. -/
def F64.mag (x : F64) : Nat :=
  if x.expField = 0 then x.fracField else (x.fracField + 2 ^ 52) * 2 ^ (x.expField - 1)

/-- The signed exact value in units of 2^-1074. -/
def F64.val (x : F64) : Int := if x.sign then -(x.mag : Int) else x.mag

/-- The number of units of 2^-1074 in 1. Irreducible, so that no tactic writes the number out. -/
@[irreducible] def F64.one : Nat := 2 ^ 1074

/-- `real(x)` of R12: the exact rational value of a finite `x`. -/
def F64.real (x : F64) : ℚ := (x.val : ℚ) / (F64.one : ℚ)

/-- The 63-bit pattern of +infinity. -/
def F64.infPattern : Nat := 2047 * 2 ^ 52

/-- The value with the given sign and 63-bit magnitude pattern. -/
def F64.ofPattern (neg : Bool) (p : Nat) : F64 :=
  ⟨BitVec.ofNat 64 ((if neg then 2 ^ 63 else 0) + p)⟩

/-- The number of low bits of `q` that do not fit in a 53-bit significand. -/
def F64.excess (q : Nat) : Nat := if q < 2 ^ 53 then 0 else Nat.log2 q - 52

/-- `n / d` to the nearest integer, ties to even (R12). -/
def F64.roundQuotient (n d : Nat) : Nat :=
  let m := n / d
  let r := n % d
  if 2 * r < d then m else if d < 2 * r then m + 1 else m + m % 2

/-- The magnitude pattern nearest to `n / d` units, ties to the even significand, and infinity on overflow: the one
rounding of R12, used by every operation. The carry out of the significand moves into the exponent field. -/
def F64.roundPattern (n d : Nat) : Nat :=
  let sh := F64.excess (n / d)
  let p := sh * 2 ^ 52 + F64.roundQuotient n (d * 2 ^ sh)
  if p < F64.infPattern then p else F64.infPattern

/-- The binary64 value nearest to `n / d` units with the given sign. -/
def F64.rounded (neg : Bool) (n d : Nat) : F64 := F64.ofPattern neg (F64.roundPattern n d)

/-- Zero with the given sign. -/
def F64.zero (neg : Bool) : F64 := F64.ofPattern neg 0

/-- Infinity with the given sign. -/
def F64.inf (neg : Bool) : F64 := F64.ofPattern neg F64.infPattern

/-- The result of an invalid operation. PRESUMED (log 8): the canonical quiet NaN; unreachable from every command
by R160. -/
def F64.invalid : F64 := ⟨0x7FF8000000000000#64⟩

/-- `-x`: the sign bit flipped. -/
def F64.neg (x : F64) : F64 := ⟨x.bits ^^^ 0x8000000000000000#64⟩

/-- `x + y` (R12). An exact zero sum is +0 unless both operands are negative (D33). -/
def F64.add (x y : F64) : F64 :=
  if x.isNaN || y.isNaN then F64.invalid
  else if x.isInf then (if y.isInf && x.sign != y.sign then F64.invalid else x)
  else if y.isInf then y
  else if x.val + y.val = 0 then F64.zero (x.sign && y.sign)
  else F64.rounded (decide (x.val + y.val < 0)) (x.val + y.val).natAbs 1

/-- `x - y` (R12). -/
def F64.sub (x y : F64) : F64 := F64.add x y.neg

/-- `x * y` (R12). -/
def F64.mul (x y : F64) : F64 :=
  if x.isNaN || y.isNaN then F64.invalid
  else if x.isInf || y.isInf then
    (if x.mag = 0 || y.mag = 0 then F64.invalid else F64.inf (x.sign != y.sign))
  else F64.rounded (x.sign != y.sign) (x.mag * y.mag) F64.one

/-- `x / y` (R12). -/
def F64.div (x y : F64) : F64 :=
  if x.isNaN || y.isNaN then F64.invalid
  else if x.isInf then (if y.isInf then F64.invalid else F64.inf (x.sign != y.sign))
  else if y.isInf then F64.zero (x.sign != y.sign)
  else if y.mag = 0 then (if x.mag = 0 then F64.invalid else F64.inf (x.sign != y.sign))
  else F64.rounded (x.sign != y.sign) (x.mag * F64.one) y.mag

/-- `f64(n)` of R12: exact for `|n| < 2^53`. -/
def F64.ofInt (n : Int) : F64 := F64.rounded (decide (n < 0)) (n.natAbs * F64.one) 1

/-- A literal of R12, the decimal `n / d`: the binary64 value nearest to it. -/
def F64.ofRatio (n : Int) (d : Nat) : F64 := F64.rounded (decide (n < 0)) (n.natAbs * F64.one) d

/-- Rounding a quotient `n / d` to the nearest integer, a tie away from zero: ROUND's default (R13, D3). -/
def roundHalfAway (n : Int) (d : Nat) : Int :=
  let m : Nat := (2 * n.natAbs + d) / (2 * d)
  if n < 0 then -(m : Int) else m

/-- `round(x)` of R13 on binary64: the nearest integer, a tie away from zero, computed exactly. -/
def F64.round (x : F64) : Int := roundHalfAway x.val F64.one

/-- The parameter NUMERIC (R9, D2): a number format held in a float port, with its operations. The rules' formulas and
evaluation order apply under every NUMERIC (93_implementation_defined.md S13). -/
structure Numeric where
  /-- neither a NaN nor an infinity, where the format has them -/
  isFinite : F64 → Bool
  /-- the exact value of a finite number, in units of `1 / one` -/
  val : F64 → Int
  /-- the number of units in 1 -/
  one : Nat
  one_pos : 0 < one
  add : F64 → F64 → F64
  sub : F64 → F64 → F64
  mul : F64 → F64 → F64
  div : F64 → F64 → F64
  /-- `f64(n)` -/
  ofInt : Int → F64
  /-- the decimal literal `n / d` -/
  literal : Int → Nat → F64

/-- `real(x)` of R12 under a NUMERIC. -/
def Numeric.real (nu : Numeric) (x : F64) : ℚ := (nu.val x : ℚ) / (nu.one : ℚ)

/-- `x < y` on finite values, exact (R12). -/
def Numeric.lt (nu : Numeric) (x y : F64) : Bool := decide (nu.val x < nu.val y)

/-- `clamp(v, lo, hi) = min(max(v, lo), hi)` on finite values (R13). -/
def Numeric.clamp (nu : Numeric) (v lo hi : F64) : F64 :=
  let m := if nu.lt v lo then lo else v
  if nu.lt hi m then hi else m

/-- `|real(x)| <= n` (R160, R202). -/
def Numeric.within (nu : Numeric) (n : Nat) (x : F64) : Bool := decide ((nu.val x).natAbs ≤ n * nu.one)

/-- NUMERIC's default: IEEE 754 binary64, each operation rounded to nearest, ties to even (R9, R12, D2). -/
def Numeric.binary64 : Numeric where
  isFinite := F64.isFinite
  val := F64.val
  one := F64.one
  one_pos := by unfold F64.one; exact Nat.two_pow_pos 1074
  add := F64.add
  sub := F64.sub
  mul := F64.mul
  div := F64.div
  ofInt := F64.ofInt
  literal := F64.ofRatio

/-- `clamp` on binary64 values (R13). -/
def F64.clamp (v lo hi : F64) : F64 := Numeric.binary64.clamp v lo hi

/-- The parameter ROUND (R9, D3): a quotient of integers, the divisor positive, to an integer. -/
abbrev Rounding := Int → Nat → Int

/-- `clamp` on integers (R13). -/
def clampInt (v lo hi : Int) : Int := min (max v lo) hi

end Sys2Proof
end

