-- ==== Sys2Proof/Config.lean ====
section
/-! DEFINITION. The configuration of the core: parameters fixed by the build, not state (spec 00_scope.md R8, R9;
10_state.md R21; 70_reset_and_hazards.md R342), and the model's two free values. -/

namespace Sys2Proof

/-- The conditions of R202 on a chroma codebook under the magnitude bound `fMax`: finite levels, strictly increasing,
each of magnitude at most `fMax`. DESIGN CHOICE (log 23): under a NUMERIC other than binary64 a level is judged as a number
of that NUMERIC. -/
def codebookConforms (nu : Numeric) (fMax : Nat) (cb : Vector F64 16) : Bool :=
  (cb.toList.all fun x => nu.isFinite x && nu.within fMax x) &&
  ((List.range 15).all fun i => nu.lt (cb.toList.getD i default) (cb.toList.getD (i + 1) default))

/-- The parameters of R9 that a build fixes. DIM_BITS is an argument of the state's type (Machine/State.lean). -/
structure Params where
  /-- NUMERIC (R12). -/
  numeric : Numeric
  /-- ROUND (R13). -/
  rounding : Rounding
  /-- CHROMA_CODEBOOK (R202). -/
  codebook : Vector F64 16
  /-- DENOM_MAX (R161). -/
  denomMax : Nat
  /-- DEC_DENOM (R258). -/
  decDenom : Nat
  /-- F_DOMAIN_MAX (R160). DESIGN CHOICE (log 22): a whole number; R9 gives the default 2^20 and no type. -/
  fDomainMax : Nat
  /-- BUF_CAP (R76): none when unbounded. -/
  bufCap : Option Nat

/-- `round(x)` of R13 under a configuration: ROUND of the exact value. -/
def Params.round (p : Params) (x : F64) : Int := p.rounding (p.numeric.val x) p.numeric.one

/-- A conforming configuration (R342). -/
def Params.conforms (p : Params) : Bool :=
  codebookConforms p.numeric p.fDomainMax p.codebook &&
  decide (1 ≤ p.denomMax) && decide (p.denomMax < 2 ^ 32) &&
  decide (1 ≤ p.decDenom) && decide (p.decDenom ≤ p.denomMax)

/-- F_DOMAIN_MAX's default (R9). -/
def fDomainMaxDefault : Nat := 2 ^ 20

/-- A codebook together with the conditions of R202. The default values only show that such a table exists; they are
no hardware's table. -/
structure Codebook where
  levels : Vector F64 16 := Vector.ofFn fun i => F64.ofInt i.val
  conforming : codebookConforms .binary64 fDomainMaxDefault levels = true := by decide +kernel
  deriving DecidableEq, Repr, Inhabited

/-- CHROMA_CODEBOOK of the build. OPEN (R9, R202, D6): nothing is known of it but that it conforms (log 5). -/
opaque Config.chromaCodebook : Codebook

/-- FREE VALUE (log 9): what RI[p] holds after BLOCK_MAP where the row-major index is 2^63 or more and so is no s64
(R25 gives the port's type, R261 the index, and no rule the result). A function of DIM_W, DIM_H, I[0] and p, since R20
makes every result a function of the command's operands. -/
opaque Config.blockMapBeyondS64 : Nat → Nat → Word64 → Nat → Word64

/-- FREE VALUE (log 20): what RW64 holds after BLOCK_COUNT where the count is 2^64 or more, which only a DIM_BITS above 33
allows (R25, R260). A function of DIM_W and DIM_H. -/
opaque Config.blockCountBeyondU64 : Nat → Nat → Word64

/-- The configuration of the build: the defaults of R9, the open codebook, unbounded buffers (R76, log 6). -/
def Config.build : Params where
  numeric := .binary64
  rounding := roundHalfAway
  codebook := Config.chromaCodebook.levels
  denomMax := 65535
  decDenom := 255
  fDomainMax := fDomainMaxDefault
  bufCap := none

/-- CB_REF of R218: the codebook of the spec's test vectors, no hardware's table. -/
def cbRef : Vector F64 16 := Vector.ofFn fun i => F64.div (F64.ofInt ((i.val : Int) - 8)) (F64.ofInt 16)

/-- The configuration under which the vectors of 95_test_vectors.md hold: R9's defaults with CB_REF (D8). -/
def Config.reference : Params := { Config.build with codebook := cbRef }

end Sys2Proof
end

