-- ==== Sys2Proof/Machine/Colour.lean ====
section
/-! DEFINITION. The colour transform: RGB_TO_NORM, NORM_TO_YPBPR, YPBPR_TO_NORM, NORM_TO_RGB, and the operand checks
shared by the float and denominator commands (spec 41_colour.md). -/

namespace Sys2Proof.Machine

variable {dimBits : Nat}

/-- `check_f(x)` passes (R160): finite, and of magnitude at most F_DOMAIN_MAX. -/
def inDomain (p : Params) (x : F64) : Bool := p.numeric.isFinite x && p.numeric.within p.fDomainMax x

/-- `check_f` on each of the ports F[k], in the order given (R160). Every failure raises the same error. -/
def checkFloats (p : Params) (s : State dimBits) (ks : List (Fin 12)) : Calc Unit :=
  check (ks.all fun k => inDomain p (s.flt k)) errNumeric

/-- `check_denom(d)` (R161). -/
def checkDenom (p : Params) (d : Int) : Calc Unit :=
  check (decide (1 ≤ d ∧ d ≤ (p.denomMax : Int))) (errMalformed reasonDenominator)

/-- `check_channel(c, d)` (R161). -/
def checkChannel (c d : Int) : Calc Unit := check (decide (0 ≤ c ∧ c ≤ d)) (errMalformed reasonChannel)

/-- `rgb_to_normalized((r, g, b), d)` (R162). -/
def rgbToNormalized (nu : Numeric) (r g b d : Int) : Rgb :=
  ⟨nu.div (nu.ofInt r) (nu.ofInt d), nu.div (nu.ofInt g) (nu.ofInt d), nu.div (nu.ofInt b) (nu.ofInt d)⟩

/-- `normalized_to_luma_chroma(r, g, b)` (R163). Each literal is the number nearest to its decimal (R12). -/
def normalizedToLumaChroma (nu : Numeric) (c : Rgb) : Ypp where
  y := nu.add (nu.add (nu.mul (nu.literal 299 1000) c.r) (nu.mul (nu.literal 587 1000) c.g))
    (nu.mul (nu.literal 114 1000) c.b)
  pb := nu.add (nu.sub (nu.mul (nu.literal (-168736) 1000000) c.r) (nu.mul (nu.literal 331264 1000000) c.g))
    (nu.mul (nu.literal 5 10) c.b)
  pr := nu.sub (nu.sub (nu.mul (nu.literal 5 10) c.r) (nu.mul (nu.literal 418688 1000000) c.g))
    (nu.mul (nu.literal 81312 1000000) c.b)

/-- `luma_chroma_to_normalized(y, pb, pr)` (R164), not clamped. -/
def lumaChromaToNormalized (nu : Numeric) (q : Ypp) : Rgb where
  r := nu.add q.y (nu.mul (nu.literal 1402 1000) q.pr)
  g := nu.sub (nu.sub q.y (nu.mul (nu.literal 344136 1000000) q.pb)) (nu.mul (nu.literal 714136 1000000) q.pr)
  b := nu.add q.y (nu.mul (nu.literal 1772 1000) q.pb)

/-- One channel of `normalized_to_rgb` (R165): rounded, then clamped to 0..d. -/
def channelOf (p : Params) (x : F64) (d : Int) : Int := clampInt (p.round (p.numeric.mul x (p.numeric.ofInt d))) 0 d

/-- The calculation of RGB_TO_NORM (R166) under a configuration. -/
def rgbToNormCalc (p : Params) (s : State dimBits) : Calc (Results dimBits) := do
  checkDenom p (s.int 3)
  checkChannel (s.int 0) (s.int 3)
  checkChannel (s.int 1) (s.int 3)
  checkChannel (s.int 2) (s.int 3)
  let n := rgbToNormalized p.numeric (s.int 0) (s.int 1) (s.int 2) (s.int 3)
  return { rf := [n.r, n.g, n.b] }

/-- The calculation of NORM_TO_YPBPR (R167) under a configuration. -/
def normToYpbprCalc (p : Params) (s : State dimBits) : Calc (Results dimBits) := do
  checkFloats p s [0, 1, 2]
  let q := normalizedToLumaChroma p.numeric ⟨s.flt 0, s.flt 1, s.flt 2⟩
  return { rf := [q.y, q.pb, q.pr] }

/-- The calculation of YPBPR_TO_NORM (R168) under a configuration. -/
def ypbprToNormCalc (p : Params) (s : State dimBits) : Calc (Results dimBits) := do
  checkFloats p s [0, 1, 2]
  let n := lumaChromaToNormalized p.numeric ⟨s.flt 0, s.flt 1, s.flt 2⟩
  return { rf := [n.r, n.g, n.b] }

/-- The calculation of NORM_TO_RGB (R169) under a configuration: NUMERIC_DOMAIN before the denominator (R303). -/
def normToRgbCalc (p : Params) (s : State dimBits) : Calc (Results dimBits) := do
  checkFloats p s [0, 1, 2]
  checkDenom p (s.int 3)
  return { ri := [s64 (channelOf p (s.flt 0) (s.int 3)), s64 (channelOf p (s.flt 1) (s.int 3)),
                  s64 (channelOf p (s.flt 2) (s.int 3))] }

/-- RGB_TO_NORM (R166). -/
def execRgbToNorm (s : State) : Out :=
  runCommand [.i 0, .i 1, .i 2, .i 3] (rgbToNormCalc Config.build) s

/-- NORM_TO_YPBPR (R167). -/
def execNormToYpbpr (s : State) : Out :=
  runCommand [.f 0, .f 1, .f 2] (normToYpbprCalc Config.build) s

/-- YPBPR_TO_NORM (R168). -/
def execYpbprToNorm (s : State) : Out :=
  runCommand [.f 0, .f 1, .f 2] (ypbprToNormCalc Config.build) s

/-- NORM_TO_RGB (R169). -/
def execNormToRgb (s : State) : Out :=
  runCommand [.f 0, .f 1, .f 2, .i 3] (normToRgbCalc Config.build) s

end Sys2Proof.Machine
end

