-- ==== Sys2Proof/Machine/Block.lean ====
section
/-! DEFINITION. The 2×2 block decorrelator: BLK_FWD and BLK_INV (spec 42_block_transform.md). -/

namespace Sys2Proof.Machine

variable {dimBits : Nat}

/-- `chroma_average(p0, p1, p2, p3)` (R181). -/
def chromaAverage (nu : Numeric) (p0 p1 p2 p3 : F64) : F64 :=
  nu.div (nu.add (nu.add (nu.add p0 p1) p2) p3) (nu.literal 4 1)

/-- The coefficient `a` of `block_forward` (R180): the mean. -/
def forwardA (nu : Numeric) (y0 y1 y2 y3 : F64) : F64 :=
  nu.div (nu.add (nu.add (nu.add y0 y1) y2) y3) (nu.literal 4 1)

/-- The coefficient `b` of `block_forward` (R180): bottom row minus top row. -/
def forwardB (nu : Numeric) (y0 y1 y2 y3 : F64) : F64 :=
  nu.div (nu.sub (nu.sub (nu.add y3 y2) y1) y0) (nu.literal 4 1)

/-- The coefficient `c` of `block_forward` (R180): right column minus left column. -/
def forwardC (nu : Numeric) (y0 y1 y2 y3 : F64) : F64 :=
  nu.div (nu.sub (nu.add (nu.sub y3 y2) y1) y0) (nu.literal 4 1)

/-- The coefficient `d` of `block_forward` (R180): the diagonal difference. -/
def forwardD (nu : Numeric) (y0 y1 y2 y3 : F64) : F64 :=
  nu.div (nu.add (nu.sub (nu.sub y3 y2) y1) y0) (nu.literal 4 1)

/-- The forward transform with the chroma averages of a block's four pixels in position order (R180, R181, R183). -/
def blockForward (nu : Numeric) (q0 q1 q2 q3 : Ypp) : Coeffs where
  a := forwardA nu q0.y q1.y q2.y q3.y
  b := forwardB nu q0.y q1.y q2.y q3.y
  c := forwardC nu q0.y q1.y q2.y q3.y
  d := forwardD nu q0.y q1.y q2.y q3.y
  pb := chromaAverage nu q0.pb q1.pb q2.pb q3.pb
  pr := chromaAverage nu q0.pr q1.pr q2.pr q3.pr

/-- The luma of the four positions of `block_inverse` (R182). -/
def inverseY0 (nu : Numeric) (k : Coeffs) : F64 := nu.add (nu.sub (nu.sub k.a k.b) k.c) k.d
def inverseY1 (nu : Numeric) (k : Coeffs) : F64 := nu.sub (nu.add (nu.sub k.a k.b) k.c) k.d
def inverseY2 (nu : Numeric) (k : Coeffs) : F64 := nu.sub (nu.sub (nu.add k.a k.b) k.c) k.d
def inverseY3 (nu : Numeric) (k : Coeffs) : F64 := nu.add (nu.add (nu.add k.a k.b) k.c) k.d

/-- `block_inverse` (R182): the four pixels in position order, each with the block's chroma. -/
def blockInverse (nu : Numeric) (k : Coeffs) : List Ypp :=
  [⟨inverseY0 nu k, k.pb, k.pr⟩, ⟨inverseY1 nu k, k.pb, k.pr⟩, ⟨inverseY2 nu k, k.pb, k.pr⟩,
   ⟨inverseY3 nu k, k.pb, k.pr⟩]

/-- The six coefficients in port order (R99). -/
def coeffPorts (k : Coeffs) : List F64 := [k.a, k.b, k.c, k.d, k.pb, k.pr]

/-- Pixels in the port order of R26: y, pb, pr of each position. -/
def yppPorts : List Ypp → List F64
  | [] => []
  | q :: qs => q.y :: q.pb :: q.pr :: yppPorts qs

/-- The coefficients in F[0..5] (R99). -/
def State.coeffs (s : State dimBits) : Coeffs := ⟨s.flt 0, s.flt 1, s.flt 2, s.flt 3, s.flt 4, s.flt 5⟩

/-- The calculation of BLK_FWD (R183) under a configuration. -/
def blkFwdCalc (p : Params) (s : State dimBits) : Calc (Results dimBits) := do
  checkFloats p s [0, 1, 2, 3, 4, 5, 6, 7, 8, 9, 10, 11]
  return { rf := coeffPorts (blockForward p.numeric ⟨s.flt 0, s.flt 1, s.flt 2⟩ ⟨s.flt 3, s.flt 4, s.flt 5⟩
                    ⟨s.flt 6, s.flt 7, s.flt 8⟩ ⟨s.flt 9, s.flt 10, s.flt 11⟩) }

/-- The calculation of BLK_INV (R184) under a configuration. -/
def blkInvCalc (p : Params) (s : State dimBits) : Calc (Results dimBits) := do
  checkFloats p s [0, 1, 2, 3, 4, 5]
  return { rf := yppPorts (blockInverse p.numeric s.coeffs) }

/-- BLK_FWD (R183). -/
def execBlkFwd (s : State) : Out :=
  runCommand [.f 0, .f 1, .f 2, .f 3, .f 4, .f 5, .f 6, .f 7, .f 8, .f 9, .f 10, .f 11] (blkFwdCalc Config.build) s

/-- BLK_INV (R184). -/
def execBlkInv (s : State) : Out :=
  runCommand [.f 0, .f 1, .f 2, .f 3, .f 4, .f 5] (blkInvCalc Config.build) s

end Sys2Proof.Machine
end

