-- ==== Sys2Proof/Machine/Quantizer.lean ====
section
/-! DEFINITION. The quantizer with chroma codebook indexing: QUANT_A, QUANT_BCD, CHROMA_Q, CHROMA_DQ, DEQUANT_A,
DEQUANT_BCD, BLK_QUANT, BLK_DEQUANT (spec 43_quantizer.md). -/

namespace Sys2Proof.Machine

variable {dimBits : Nat}

/-- `quant_a(a)` (R200): round, then clamp the integer. -/
def quantA (p : Params) (a : F64) : Int := clampInt (p.round (p.numeric.mul a (p.numeric.literal 511 1))) 0 511

/-- `quant_bcd(v)` (R201): clamp the float, then round. -/
def quantBcd (p : Params) (v : F64) : Int :=
  p.round (p.numeric.mul (p.numeric.clamp v (p.numeric.literal (-3) 10) (p.numeric.literal 3 10))
    (p.numeric.literal 50 1))

/-- The index of the level nearest to `v`, the lower index on a tie, given the best index and distance so far; `k` is
the index of the next level (R203). Distances are exact, in the units of NUMERIC. -/
def nearestLevel (nu : Numeric) (v : F64) : List F64 → Nat → Nat → Nat → Nat
  | [], _, best, _ => best
  | l :: ls, k, best, dist =>
    let d := (nu.val v - nu.val l).natAbs
    if d < dist then nearestLevel nu v ls (k + 1) k d else nearestLevel nu v ls (k + 1) best dist

/-- `chroma_quantize(v)` under a codebook (R203). -/
def chromaQuantize (nu : Numeric) (cb : Vector F64 16) (v : F64) : Nat :=
  nearestLevel nu v cb.toList.tail 1 0 (nu.val v - nu.val cb[0]).natAbs

/-- `chroma_dequantize(i) = CB[i]` for i in 0..15 (R202). Every caller has checked or extracted an index of 4 bits. -/
def chromaDequantize (cb : Vector F64 16) (i : Int) : F64 := cb[(BitVec.ofInt 4 i).toNat]

/-- `dequant_a(a')` (R204). -/
def dequantA (nu : Numeric) (a : Int) : F64 := nu.div (nu.ofInt a) (nu.literal 511 1)

/-- `dequant_bcd(v')` (R205). -/
def dequantBcd (nu : Numeric) (v : Int) : F64 := nu.div (nu.ofInt v) (nu.literal 50 1)

/-- `block_quantize` (R206). -/
def blockQuantize (p : Params) (k : Coeffs) : Record :=
  ⟨quantA p k.a, quantBcd p k.b, quantBcd p k.c, quantBcd p k.d, chromaQuantize p.numeric p.codebook k.pb,
   chromaQuantize p.numeric p.codebook k.pr⟩

/-- `block_dequantize` (R207). -/
def blockDequantize (p : Params) (r : Record) : Coeffs :=
  ⟨dequantA p.numeric r.a, dequantBcd p.numeric r.b, dequantBcd p.numeric r.c, dequantBcd p.numeric r.d,
   chromaDequantize p.codebook r.pb, chromaDequantize p.codebook r.pr⟩

/-- The record in I[0..5] (R99). -/
def State.record (s : State dimBits) : Record := ⟨s.int 0, s.int 1, s.int 2, s.int 3, s.int 4, s.int 5⟩

/-- A record in port order as s64 patterns (R99). -/
def recordPorts (r : Record) : List Word64 := [s64 r.a, s64 r.b, s64 r.c, s64 r.d, s64 r.pb, s64 r.pr]

/-- A value outside its packed field's range is MALFORMED_INPUT with REASON 5 (R211 to R215). -/
def checkRange (v lo hi : Int) : Calc Unit := check (decide (lo ≤ v ∧ v ≤ hi)) (errMalformed reasonValueRange)

/-- The calculation of QUANT_A (R208) under a configuration. -/
def quantACalc (p : Params) (s : State dimBits) : Calc (Results dimBits) := do
  checkFloats p s [0]
  return { ri := [s64 (quantA p (s.flt 0))] }

/-- The calculation of QUANT_BCD (R209) under a configuration. -/
def quantBcdCalc (p : Params) (s : State dimBits) : Calc (Results dimBits) := do
  checkFloats p s [0]
  return { ri := [s64 (quantBcd p (s.flt 0))] }

/-- The calculation of CHROMA_Q (R210) under a configuration. -/
def chromaQCalc (p : Params) (s : State dimBits) : Calc (Results dimBits) := do
  checkFloats p s [0]
  return { ri := [s64 (chromaQuantize p.numeric p.codebook (s.flt 0))] }

/-- The calculation of CHROMA_DQ (R211) under a configuration. -/
def chromaDqCalc (p : Params) (s : State dimBits) : Calc (Results dimBits) := do
  checkRange (s.int 0) 0 15
  return { rf := [chromaDequantize p.codebook (s.int 0)] }

/-- The calculation of BLK_QUANT (R214) under a configuration. -/
def blkQuantCalc (p : Params) (s : State dimBits) : Calc (Results dimBits) := do
  checkFloats p s [0, 1, 2, 3, 4, 5]
  return { ri := recordPorts (blockQuantize p s.coeffs) }

/-- The calculation of BLK_DEQUANT (R215) under a configuration. -/
def blkDequantCalc (p : Params) (s : State dimBits) : Calc (Results dimBits) := do
  checkRange (s.int 0) 0 511
  checkRange (s.int 1) (-16) 15
  checkRange (s.int 2) (-16) 15
  checkRange (s.int 3) (-16) 15
  checkRange (s.int 4) 0 15
  checkRange (s.int 5) 0 15
  return { rf := coeffPorts (blockDequantize p s.record) }

/-- QUANT_A (R208). -/
def execQuantA (s : State) : Out :=
  runCommand [.f 0] (quantACalc Config.build) s

/-- QUANT_BCD (R209). -/
def execQuantBcd (s : State) : Out :=
  runCommand [.f 0] (quantBcdCalc Config.build) s

/-- CHROMA_Q (R210). -/
def execChromaQ (s : State) : Out :=
  runCommand [.f 0] (chromaQCalc Config.build) s

/-- CHROMA_DQ (R211). -/
def execChromaDq (s : State) : Out :=
  runCommand [.i 0] (chromaDqCalc Config.build) s

/-- The calculation of DEQUANT_A (R212) under a configuration. -/
def dequantACalc (p : Params) (s : State dimBits) : Calc (Results dimBits) := do
  checkRange (s.int 0) 0 511
  return { rf := [dequantA p.numeric (s.int 0)] }

/-- DEQUANT_A (R212). -/
def execDequantA (s : State) : Out :=
  runCommand [.i 0] (dequantACalc Config.build) s

/-- The calculation of DEQUANT_BCD (R213) under a configuration. -/
def dequantBcdCalc (p : Params) (s : State dimBits) : Calc (Results dimBits) := do
  checkRange (s.int 0) (-16) 15
  return { rf := [dequantBcd p.numeric (s.int 0)] }

/-- DEQUANT_BCD (R213). -/
def execDequantBcd (s : State) : Out :=
  runCommand [.i 0] (dequantBcdCalc Config.build) s

/-- BLK_QUANT (R214). -/
def execBlkQuant (s : State) : Out :=
  runCommand [.f 0, .f 1, .f 2, .f 3, .f 4, .f 5] (blkQuantCalc Config.build) s

/-- BLK_DEQUANT (R215). -/
def execBlkDequant (s : State) : Out :=
  runCommand [.i 0, .i 1, .i 2, .i 3, .i 4, .i 5] (blkDequantCalc Config.build) s

end Sys2Proof.Machine
end

