-- ==== Sys2Proof/Machine/Packer.lean ====
section
/-! DEFINITION. The word packer: PACK and UNPACK (spec 44_packer.md, 30_encoding.md R96 to R99). -/

namespace Sys2Proof.Machine

variable {dimBits : Nat}

/-- One insert of `pack`: the new word, or the number of the field that does not fit (R230). -/
def packStep (field : BitVec 4) : Option Word64 → Except (BitVec 4) Word64
  | some w => .ok w
  | none => .error field

/-- `pack` (R230): six inserts from zero, in order; the first failing field ends it. -/
def packRecord (r : Record) : Except (BitVec 4) Word64 := do
  let w ← packStep 0#4 (insertUnsigned 0#64 9 23 r.a)
  let w ← packStep 1#4 (insertSigned w 5 18 r.b)
  let w ← packStep 2#4 (insertSigned w 5 13 r.c)
  let w ← packStep 3#4 (insertSigned w 5 8 r.d)
  let w ← packStep 4#4 (insertUnsigned w 4 4 r.pb)
  packStep 5#4 (insertUnsigned w 4 0 r.pr)

/-- `unpack` (R231) of a packed word held in 64 bits. -/
def unpackWord (w : Word64) : Record where
  a := (extractUnsigned w 9 23).toInt
  b := (extractSigned w 5 18).toInt
  c := (extractSigned w 5 13).toInt
  d := (extractSigned w 5 8).toInt
  pb := (extractUnsigned w 4 4).toInt
  pr := (extractUnsigned w 4 0).toInt

/-- PACK's result in RW64, or RANGE_VIOLATION with the failing field (R232). -/
def packResult : Except (BitVec 4) Word64 → Calc (Results dimBits)
  | .ok w => .ok { rw64 := some w }
  | .error f => raise (errPackField f)

/-- The calculation of PACK (R232). -/
def packCalc (s : State dimBits) : Calc (Results dimBits) :=
  packResult (packRecord s.record)

/-- PACK (R232). -/
def execPack (s : State) : Out :=
  runCommand [.i 0, .i 1, .i 2, .i 3, .i 4, .i 5] packCalc s

/-- The calculation of UNPACK (R233). -/
def unpackCalc (s : State dimBits) : Calc (Results dimBits) := do
  check (s.w64.val.extractLsb' 32 32 == 0#32) (errMalformed reasonUpperBits)
  return { ri := recordPorts (unpackWord s.w64.val) }

/-- UNPACK (R233). -/
def execUnpack (s : State) : Out :=
  runCommand [.w64] unpackCalc s

end Sys2Proof.Machine
end

