-- ==== Sys2Proof/Machine/Pipeline.lean ====
section
/-! DEFINITION. The image pipeline: TRIM, BLOCK_COUNT, BLOCK_MAP, COMPRESS, DECOMPRESS (spec 45_pipeline.md). -/

namespace Sys2Proof.Machine

variable {dimBits : Nat}

/-- One dimension of `trim` (R250). -/
def trimDim (n : Nat) : Nat := n - n % 2

/-- `block_count(W, H)` (R251). -/
def blockCountOf (W H : Nat) : Nat := (W / 2) * (H / 2)

/-- `block_map(W, k, p)` (R252, R253): the row-major index of position p of block k. -/
def blockMapOf (W k p : Nat) : Nat := (2 * (k / (W / 2)) + p / 2) * W + (2 * (k % (W / 2)) + p % 2)

/-- Both dimensions are even, or MALFORMED_INPUT with REASON 1 (R260, R261, R263). -/
def checkEven (W H : Nat) : Calc Unit := check (decide (W % 2 = 0 ∧ H % 2 = 0)) (errMalformed reasonOddDimension)

/-- Every channel of a pixel entry is at most the denominator (R161, R255). -/
def pixelWithin (d : Word32) (x : Pixel) : Bool := decide (x.r ≤ d) && decide (x.g ≤ d) && decide (x.b ≤ d)

/-- `valid_raster(R)` (R255): pixel count, then denominator, then every channel. -/
def checkRaster (p : Params) (R : Raster dimBits) : Calc Unit := do
  check (decide (R.n = R.width.toNat * R.height.toNat)) (errMalformed reasonPixelCount)
  checkDenom p R.denom.toNat
  check (R.px.all (pixelWithin R.denom)) (errMalformed reasonChannel)

/-- The pixel entries of the trimmed raster, row-major, `W'` columns and `H'` rows (R254). -/
def trimmedPixels (R : Raster dimBits) (W' H' : Nat) : Calc (List Pixel) :=
  collect (fun i => bufRead R.px (i / W' * R.width.toNat + i % W')) 0 (W' * H')

/-- A pixel entry through R162 and R163. -/
def pixelToYpp (nu : Numeric) (d : Word32) (x : Pixel) : Ypp :=
  normalizedToLumaChroma nu (rgbToNormalized nu x.r.toNat x.g.toNat x.b.toNat d.toNat)

/-- The packed word of a block's four Y/Pb/Pr pixels (R257). A record that does not pack is RANGE_VIOLATION; it cannot
occur (R216). -/
def blockWord (p : Params) (q0 q1 q2 q3 : Ypp) : Calc Word32 :=
  match packRecord (blockQuantize p (blockForward p.numeric q0 q1 q2 q3)) with
  | .ok w => .ok (w.setWidth 32)
  | .error _ => raise errRange

/-- Block k of `compress` (R257). -/
def compressBlock (p : Params) (Q : List Ypp) (W' k : Nat) : Calc Word32 := do
  let q0 ← bufRead Q (blockMapOf W' k 0)
  let q1 ← bufRead Q (blockMapOf W' k 1)
  let q2 ← bufRead Q (blockMapOf W' k 2)
  let q3 ← bufRead Q (blockMapOf W' k 3)
  blockWord p q0 q1 q2 q3

/-- `compress(R)` (R257), the blocks in block enumeration order (R70, R256). -/
def compressRaster (p : Params) (R : Raster dimBits) : Calc WordBuffer := do
  let W' := trimDim R.width.toNat
  let H' := trimDim R.height.toNat
  let T ← trimmedPixels R W' H'
  collect (compressBlock p (T.map (pixelToYpp p.numeric R.denom)) W') 0 (blockCountOf W' H')

/-- A Y/Pb/Pr pixel through R164 and R165 at the denominator DEC_DENOM (R258). -/
def yppToPixel (p : Params) (q : Ypp) : Pixel :=
  let n := lumaChromaToNormalized p.numeric q
  ⟨BitVec.ofInt 32 (channelOf p n.r p.decDenom), BitVec.ofInt 32 (channelOf p n.g p.decDenom),
   BitVec.ofInt 32 (channelOf p n.b p.decDenom)⟩

/-- The four pixels of a packed word, in position order (R258). -/
def wordPixels (p : Params) (w : Word32) : List Pixel :=
  (blockInverse p.numeric (blockDequantize p (unpackWord (w.setWidth 64)))).map (yppToPixel p)

/-- The pixels of block k written to their raster positions, from position `pos` on (R258). -/
def scatterPixels (W k : Nat) : Nat → List Pixel → List Pixel → List Pixel
  | _, [], out => out
  | pos, x :: xs, out => scatterPixels W k (pos + 1) xs (bufWrite out (blockMapOf W k pos) x)

/-- The blocks of a word stream scattered in block enumeration order, from block `k` on (R258). -/
def scatterWords (p : Params) (W : Nat) : Nat → WordBuffer → List Pixel → List Pixel
  | _, [], out => out
  | k, w :: ws, out => scatterWords p W (k + 1) ws (scatterPixels W k 0 (wordPixels p w) out)

/-- `decompress(S, W, H)` (R258). Every entry of the buffer under construction is written, since block_map is a
bijection (R253). -/
def decompressStream (p : Params) (S : WordBuffer) (W H : BitVec dimBits) : Raster dimBits where
  width := W
  height := H
  denom := BitVec.ofNat 32 p.decDenom
  px := scatterWords p W.toNat 0 S (List.replicate (W.toNat * H.toNat) ⟨0, 0, 0⟩)

/-- The s64 in RI[p] after BLOCK_MAP (R261). Where the index is no s64 the value is free (log 9). -/
def blockMapResult (W H : Nat) (k : Word64) (p : Nat) : Word64 :=
  let m := blockMapOf W k.toInt.toNat p
  if m < 2 ^ 63 then BitVec.ofNat 64 m else Config.blockMapBeyondS64 W H k p

/-- RW64 after BLOCK_COUNT (R260). Where the count is no u64 the value is free (log 20); at the default DIM_BITS it always
is one. -/
def blockCountResult (W H : Nat) : Word64 :=
  if blockCountOf W H < 2 ^ 64 then BitVec.ofNat 64 (blockCountOf W H) else Config.blockCountBeyondU64 W H

/-- A dimension after `trim`, in the width of the dimension ports (R250). -/
def trimPort (n : BitVec dimBits) : BitVec dimBits := BitVec.ofNat dimBits (trimDim n.toNat)

/-- The calculation of TRIM (R259). -/
def trimCalc (s : State dimBits) : Calc (Results dimBits) :=
  .ok { rdimW := some (trimPort s.dimW.val), rdimH := some (trimPort s.dimH.val) }

/-- TRIM (R259). -/
def execTrim (s : State) : Out :=
  runCommand [.dimW, .dimH] trimCalc s

/-- The calculation of BLOCK_COUNT (R260). -/
def blockCountCalc (s : State dimBits) : Calc (Results dimBits) := do
  checkEven s.dimWNat s.dimHNat
  return { rw64 := some (blockCountResult s.dimWNat s.dimHNat) }

/-- BLOCK_COUNT (R260). -/
def execBlockCount (s : State) : Out :=
  runCommand [.dimW, .dimH] blockCountCalc s

/-- The calculation of BLOCK_MAP (R261). -/
def blockMapCalc (s : State dimBits) : Calc (Results dimBits) := do
  checkEven s.dimWNat s.dimHNat
  check (decide (0 ≤ s.int 0 ∧ s.int 0 < (blockCountOf s.dimWNat s.dimHNat : Int))) (errMalformed reasonBlockIndex)
  let r := blockMapResult s.dimWNat s.dimHNat s.i[0].val
  return { ri := [r 0, r 1, r 2, r 3] }

/-- BLOCK_MAP (R261). -/
def execBlockMap (s : State) : Out :=
  runCommand [.dimW, .dimH, .i 0] blockMapCalc s

/-- The calculation of COMPRESS (R262) under a configuration. DESIGN CHOICE (log 19): a finite BUF_CAP refuses RASTER_IN
before the checks and STREAM_OUT after them; an unwritten RASTER_IN has faulted before either. -/
def compressCalc (p : Params) (s : State dimBits) : Calc (Results dimBits) := do
  let R := s.rasterIn.val
  withinCap p.bufCap R.n
  checkRaster p R
  let out ← compressRaster p R
  withinCap p.bufCap out.length
  return { streamOut := some out
           rdimW := some (trimPort R.width)
           rdimH := some (trimPort R.height) }

/-- The calculation of DECOMPRESS (R263) under a configuration: odd dimensions before the word count (R303). DESIGN
CHOICE (log 19): a finite BUF_CAP refuses STREAM_IN before these checks and RASTER_OUT after them; an unwritten STREAM_IN,
DIM_W or DIM_H has faulted before either. -/
def decompressCalc (p : Params) (s : State dimBits) : Calc (Results dimBits) := do
  let S := s.streamIn.val
  withinCap p.bufCap S.length
  checkEven s.dimWNat s.dimHNat
  check (decide (S.length = blockCountOf s.dimWNat s.dimHNat)) (errMalformed reasonWordCount)
  withinCap p.bufCap (s.dimWNat * s.dimHNat)
  return { rasterOut := some (decompressStream p S s.dimW.val s.dimH.val) }

/-- COMPRESS (R262). -/
def execCompress (s : State) : Out :=
  runCommand [.rasterIn] (compressCalc Config.build) s

/-- DECOMPRESS (R263). -/
def execDecompress (s : State) : Out :=
  runCommand [.streamIn, .dimW, .dimH] (decompressCalc Config.build) s

end Sys2Proof.Machine
end

