-- ==== Sys2Proof/Machine/Dispatch.lean ====
section
/-! DEFINITION. exec: one arm per command, each one direct call of its meaning. -/

namespace Sys2Proof.Machine

def exec (i : Instr) (s : State) : Host.Outcome State Fault Refusal :=
  match i with
  -- 40_bitfield.md
  | .fitsU width => Sys2Proof.Machine.execFitsU width s
  | .fitsS width => Sys2Proof.Machine.execFitsS width s
  | .extractU width lsb => Sys2Proof.Machine.execExtractU width lsb s
  | .extractS width lsb => Sys2Proof.Machine.execExtractS width lsb s
  | .insertU width lsb => Sys2Proof.Machine.execInsertU width lsb s
  | .insertS width lsb => Sys2Proof.Machine.execInsertS width lsb s
  -- 41_colour.md
  | .rgbToNorm => Sys2Proof.Machine.execRgbToNorm s
  | .normToYpbpr => Sys2Proof.Machine.execNormToYpbpr s
  | .ypbprToNorm => Sys2Proof.Machine.execYpbprToNorm s
  | .normToRgb => Sys2Proof.Machine.execNormToRgb s
  -- 42_block_transform.md
  | .blkFwd => Sys2Proof.Machine.execBlkFwd s
  | .blkInv => Sys2Proof.Machine.execBlkInv s
  -- 43_quantizer.md
  | .quantA => Sys2Proof.Machine.execQuantA s
  | .quantBcd => Sys2Proof.Machine.execQuantBcd s
  | .chromaQ => Sys2Proof.Machine.execChromaQ s
  | .chromaDq => Sys2Proof.Machine.execChromaDq s
  | .dequantA => Sys2Proof.Machine.execDequantA s
  | .dequantBcd => Sys2Proof.Machine.execDequantBcd s
  | .blkQuant => Sys2Proof.Machine.execBlkQuant s
  | .blkDequant => Sys2Proof.Machine.execBlkDequant s
  -- 44_packer.md
  | .pack => Sys2Proof.Machine.execPack s
  | .unpack => Sys2Proof.Machine.execUnpack s
  -- 45_pipeline.md
  | .trim => Sys2Proof.Machine.execTrim s
  | .blockCount => Sys2Proof.Machine.execBlockCount s
  | .blockMap => Sys2Proof.Machine.execBlockMap s
  | .compress => Sys2Proof.Machine.execCompress s
  | .decompress => Sys2Proof.Machine.execDecompress s

end Sys2Proof.Machine
end

