-- ==== Sys2Proof/Machine/HostPort.lean ====
section
/-! DEFINITION. Issuing a command word, the host's actions, and the command set under any configuration (spec
30_encoding.md R93, R100; 60_exceptions.md R302; 70_reset_and_hazards.md R342, R351; 00_scope.md R9). -/

namespace Sys2Proof.Machine

variable {dimBits : Nat}

/-- A command word issued (R90, R302): decoded, then run; a word that does not decode is ILLEGAL_COMMAND. `run` is the
command set. -/
def issueBy (run : Instr → State dimBits → Out dimBits) (w : Word32) (s : State dimBits) : Out dimBits :=
  match decode w with
  | .ok i => run i s
  | .error _ => illegalCommand s

/-- One host action (R100, R351). A write of CMD starts the command, which runs to completion in the same step (R4,
R71). -/
def performBy (run : Instr → State dimBits → Out dimBits) (a : HostAction dimBits) (s : State dimBits) : Out dimBits :=
  match a with
  | .write v => .next (s.writeInput v)
  | .writeIgnored v => .next (s.writeReadOnly v)
  | .command w => issueBy run w { s with cmd := some w }
  | .read t => hostRead s t
  | .reset => .next s.resetCore

/-- One step: a command in progress runs to completion; otherwise the host's next action is performed; a host with
none left leaves the core idle (R314, log 3). -/
def stepBy (run : Instr → State dimBits → Out dimBits) (s : State dimBits) : Out dimBits :=
  match s.cmd, s.script with
  | some w, _ => issueBy run w s
  | none, [] => .next s
  | none, a :: rest => performBy run a { s with script := rest }

/-- The reads column of R92: the input ports a command reads. -/
def operandPorts : Instr → List InPort
  | .fitsU _ | .fitsS _ => [.v64]
  | .extractU _ _ | .extractS _ _ => [.w64]
  | .insertU _ _ | .insertS _ _ => [.w64, .v64]
  | .rgbToNorm => [.i 0, .i 1, .i 2, .i 3]
  | .normToYpbpr | .ypbprToNorm => [.f 0, .f 1, .f 2]
  | .normToRgb => [.f 0, .f 1, .f 2, .i 3]
  | .blkFwd => [.f 0, .f 1, .f 2, .f 3, .f 4, .f 5, .f 6, .f 7, .f 8, .f 9, .f 10, .f 11]
  | .blkInv | .blkQuant => [.f 0, .f 1, .f 2, .f 3, .f 4, .f 5]
  | .quantA | .quantBcd | .chromaQ => [.f 0]
  | .chromaDq | .dequantA | .dequantBcd => [.i 0]
  | .blkDequant | .pack => [.i 0, .i 1, .i 2, .i 3, .i 4, .i 5]
  | .unpack => [.w64]
  | .trim | .blockCount => [.dimW, .dimH]
  | .blockMap => [.dimW, .dimH, .i 0]
  | .compress => [.rasterIn]
  | .decompress => [.streamIn, .dimW, .dimH]

/-- The calculation of each command under a configuration (R302 step 4). -/
def commandCalc (p : Params) : Instr → State dimBits → Calc (Results dimBits)
  | .fitsU width => fitsUCalc width
  | .fitsS width => fitsSCalc width
  | .extractU width lsb => extractUCalc width lsb
  | .extractS width lsb => extractSCalc width lsb
  | .insertU width lsb => insertUCalc width lsb
  | .insertS width lsb => insertSCalc width lsb
  | .rgbToNorm => rgbToNormCalc p
  | .normToYpbpr => normToYpbprCalc p
  | .ypbprToNorm => ypbprToNormCalc p
  | .normToRgb => normToRgbCalc p
  | .blkFwd => blkFwdCalc p
  | .blkInv => blkInvCalc p
  | .quantA => quantACalc p
  | .quantBcd => quantBcdCalc p
  | .chromaQ => chromaQCalc p
  | .chromaDq => chromaDqCalc p
  | .dequantA => dequantACalc p
  | .dequantBcd => dequantBcdCalc p
  | .blkQuant => blkQuantCalc p
  | .blkDequant => blkDequantCalc p
  | .pack => packCalc
  | .unpack => unpackCalc
  | .trim => trimCalc
  | .blockCount => blockCountCalc
  | .blockMap => blockMapCalc
  | .compress => compressCalc p
  | .decompress => decompressCalc p

/-- The command set under a configuration and any DIM_BITS (R9): exec is this one under Config.build (Laws/Step.lean). -/
def execUnder (p : Params) (i : Instr) (s : State dimBits) : Out dimBits := runCommand (operandPorts i) (commandCalc p i) s

end Sys2Proof.Machine
end

