-- ==== Sys2Proof/Machine/Step.lean ====
section
/-! DEFINITION. The step of the machine (spec 00_scope.md R4; 70_reset_and_hazards.md R342, R351). -/

namespace Sys2Proof.Machine

variable {dimBits : Nat}

/-- One step under the build's configuration. It conforms (Laws/Float.lean), so R342 refuses nothing here. -/
def step (s : State) : Host.Outcome State Fault Refusal := stepBy exec s

/-- One step under any configuration and any DIM_BITS: a configuration that does not conform is refused (R342). -/
def stepUnder (p : Params) (s : State dimBits) : Out dimBits :=
  if p.conforms then stepBy (execUnder p) s else .refused .nonconformingConfiguration

/-- `s` with a command word where the step takes its next command from: CMD (R74, R90; log 3). A command is one 32-bit
word, so `nbits` adds nothing. -/
def State.withFetchWord (s : State) (nbits w : Nat) : State := { s with cmd := some (BitVec.ofNat 32 (w % 2 ^ nbits)) }

end Sys2Proof.Machine
end

