-- ==== Sys2Proof/Safety.lean ====
section
/-! DEFINITION. The terms claims are stated in: how a command ends, the operand and result ports of each command, the
state invariant, and what a host program observes (spec 10_state.md R29, R33, R34; 30_encoding.md R92; 60_exceptions.md
R300, R304; 70_reset_and_hazards.md R350). -/

namespace Sys2Proof.Machine

variable {dimBits : Nat}

/-- The input ports are the same, contents and valid bits (R33). -/
structure SameInputs (s t : State dimBits) : Prop where
  w64 : t.w64 = s.w64
  v64 : t.v64 = s.v64
  i : t.i = s.i
  f : t.f = s.f
  dimW : t.dimW = s.dimW
  dimH : t.dimH = s.dimH
  rasterIn : t.rasterIn = s.rasterIn
  streamIn : t.streamIn = s.streamIn

/-- A port holds a written value, or is invalid where none was written (R34). -/
def Port.Holds {α : Type} (p : Port α) : Option α → Prop
  | some v => p = ⟨v, true⟩
  | none => p.valid = false

/-- The command ended from `s` in `t` with success and the results `r` (R34): STATUS = 0x00000FF0; each port that `r`
names holds its value and is valid, and every other result port is invalid; the input ports are unchanged (R33), no
command is in progress (R38), and the host's program and readings are untouched. -/
structure Succeeded (s t : State dimBits) (r : Results dimBits) : Prop where
  status : t.status = 0x00000FF0#32
  idle : t.cmd = none
  inputs : SameInputs s t
  script : t.script = s.script
  reads : t.reads = s.reads
  rw64 : t.rw64.Holds r.rw64
  rb : t.rb.Holds r.rb
  ri : ∀ k : Fin 6, t.ri[k].Holds r.ri[k.val]?
  rf : ∀ k : Fin 12, t.rf[k].Holds r.rf[k.val]?
  rdimW : t.rdimW.Holds r.rdimW
  rdimH : t.rdimH.Holds r.rdimH
  streamOut : t.streamOut.Holds r.streamOut
  rasterOut : t.rasterOut.Holds r.rasterOut

/-- The command ended from `s` in `t` with an error and the given STATUS (R304): every result port is invalid, the
input ports are unchanged, no command is in progress, and the host's program and readings are untouched. -/
structure Failed (s t : State dimBits) (status : Word32) : Prop where
  status : t.status = status
  idle : t.cmd = none
  inputs : SameInputs s t
  script : t.script = s.script
  reads : t.reads = s.reads
  noResult : ∀ p : OutPort, t.outValid p = false

/-- `check_f` of R160 at the default F_DOMAIN_MAX: finite, and of magnitude at most 2^20. -/
def InDomain (x : F64) : Prop := x.isFinite = true ∧ |x.real| ≤ 2 ^ 20

/-- No result port F shows a NaN or an infinity: every valid RF[k] is finite (R160). -/
def FloatResultsFinite (s : State dimBits) : Prop :=
  ∀ k : Fin 12, s.rf[k].valid = true → s.rf[k].val.isFinite = true

/-- The writes column of R92: the result ports a command writes on success. -/
def resultPorts : Instr → List OutPort
  | .fitsU _ | .fitsS _ => [.rb]
  | .extractU _ _ | .extractS _ _ | .insertU _ _ | .insertS _ _ => [.rw64]
  | .rgbToNorm | .normToYpbpr | .ypbprToNorm => [.rf 0, .rf 1, .rf 2]
  | .normToRgb => [.ri 0, .ri 1, .ri 2]
  | .blkFwd | .blkDequant => [.rf 0, .rf 1, .rf 2, .rf 3, .rf 4, .rf 5]
  | .blkInv => [.rf 0, .rf 1, .rf 2, .rf 3, .rf 4, .rf 5, .rf 6, .rf 7, .rf 8, .rf 9, .rf 10, .rf 11]
  | .quantA | .quantBcd | .chromaQ => [.ri 0]
  | .chromaDq | .dequantA | .dequantBcd => [.rf 0]
  | .blkQuant | .unpack => [.ri 0, .ri 1, .ri 2, .ri 3, .ri 4, .ri 5]
  | .pack | .blockCount => [.rw64]
  | .trim => [.rdimW, .rdimH]
  | .blockMap => [.ri 0, .ri 1, .ri 2, .ri 3]
  | .compress => [.streamOut, .rdimW, .rdimH]
  | .decompress => [.rasterOut]

/-- The STATUS words a command can end with, 0x00000FF0 apart (R300 and each command's rule). -/
def errorWords : Instr → List Word32
  | .fitsU _ | .fitsS _ | .extractU _ _ | .extractS _ _ => [0x00000FF3#32]
  | .insertU _ _ | .insertS _ _ => [0x00000FF3#32, 0x00000FF1#32]
  | .rgbToNorm => [0x000003F2#32, 0x000004F2#32]
  | .normToRgb => [0x00000FF5#32, 0x000003F2#32]
  | .normToYpbpr | .ypbprToNorm | .blkFwd | .blkInv | .quantA | .quantBcd | .chromaQ | .blkQuant => [0x00000FF5#32]
  | .chromaDq | .dequantA | .dequantBcd | .blkDequant => [0x000005F2#32]
  | .pack => [0x00000F01#32, 0x00000F11#32, 0x00000F21#32, 0x00000F31#32, 0x00000F41#32, 0x00000F51#32]
  | .unpack => [0x000006F2#32]
  | .trim => []
  | .blockCount => [0x000001F2#32]
  | .blockMap => [0x000001F2#32, 0x000007F2#32]
  | .compress => [0x000002F2#32, 0x000003F2#32, 0x000004F2#32]
  | .decompress => [0x000001F2#32, 0x000000F2#32]

/-- A STATUS word the core can show (R29, R300): bits 31:12 zero; CODE 0..5 or 7; FIELD 0xF, or 0..5 with
RANGE_VIOLATION; REASON 0xF, or 0..7 with MALFORMED_INPUT and then always. -/
structure StatusLegal (w : Word32) : Prop where
  reserved : statusReserved w = 0#20
  code : statusCode w ≤ 5#4 ∨ statusCode w = 7#4
  field : statusField w = 0xF#4 ∨ (statusCode w = 1#4 ∧ statusField w ≤ 5#4)
  reason : if statusCode w = 2#4 then statusReason w ≤ 7#4 else statusReason w = 0xF#4

/-- What holds between any two steps: no command is in progress (R38), STATUS is legal (R29), and unless the last
command completed with OK every result port is invalid (R34, R39, R304). -/
structure Inv (s : State dimBits) : Prop where
  idle : s.cmd = none
  statusLegal : StatusLegal s.status
  results : s.status ≠ 0x00000FF0#32 → ∀ p : OutPort, s.outValid p = false

/-- The same contents and valid bit of one input port in two states. -/
def InPort.Agree (p : InPort) (s t : State dimBits) : Prop :=
  match p with
  | .w64 => s.w64 = t.w64
  | .v64 => s.v64 = t.v64
  | .i k => s.i[k] = t.i[k]
  | .f k => s.f[k] = t.f[k]
  | .dimW => s.dimW = t.dimW
  | .dimH => s.dimH = t.dimH
  | .rasterIn => s.rasterIn = t.rasterIn
  | .streamIn => s.streamIn = t.streamIn

/-- The same content of one result port in two states. -/
def OutPort.SameValue (p : OutPort) (s t : State dimBits) : Prop :=
  match p with
  | .rw64 => s.rw64.val = t.rw64.val
  | .rb => s.rb.val = t.rb.val
  | .ri k => s.ri[k].val = t.ri[k].val
  | .rf k => s.rf[k].val = t.rf[k].val
  | .rdimW => s.rdimW.val = t.rdimW.val
  | .rdimH => s.rdimH.val = t.rdimH.val
  | .streamOut => s.streamOut.val = t.streamOut.val
  | .rasterOut => s.rasterOut.val = t.rasterOut.val

/-- The host can tell no difference between two outcomes of a command: the same fault or refusal, or the same STATUS,
the same valid result ports and the same values in them (R350). -/
def SameToHost : Out dimBits → Out dimBits → Prop
  | .next s, .next t =>
    s.status = t.status ∧ ∀ p : OutPort, s.outValid p = t.outValid p ∧ (s.outValid p = true → p.SameValue s t)
  | .fault f, .fault g => f = g
  | .refused r, .refused q => r = q
  | _, _ => False

/-- A raster that passes `valid_raster` at the default DENOM_MAX (R27, R255). -/
structure WellFormedRaster (R : Raster dimBits) : Prop where
  count : R.n = R.width.toNat * R.height.toNat
  denom : 1 ≤ R.denom.toNat ∧ R.denom.toNat ≤ 65535
  channels : ∀ x ∈ R.px, x.r ≤ R.denom ∧ x.g ≤ R.denom ∧ x.b ≤ R.denom

/-- What a run observes (R350): the readings, the last STATUS, and the fault or refusal that ended it, if any. -/
structure Observation (dimBits : Nat := 32) where
  reads : List (Reading dimBits)
  status : Word32
  fault : Option Fault
  refusal : Option Refusal
  deriving DecidableEq, Repr

/-- The observation of at most `n` steps of `next` from `s`. A fault is final (R37): the run ends with it, STATUS and
the readings as they were. -/
def observeBy (next : State dimBits → Out dimBits) : Nat → State dimBits → Observation dimBits
  | 0, s => ⟨s.reads, s.status, none, none⟩
  | n + 1, s =>
    match next s with
    | .next t => observeBy next n t
    | .fault f => ⟨s.reads, s.status, some f, none⟩
    | .refused r => ⟨s.reads, s.status, none, some r⟩

/-- The observation of a host program run to its end from reset: one step an action (R350). -/
def observeProgram (script : List HostAction) : Observation :=
  observeBy step script.length { State.reset with script := script }

/-- A safe run: no model fault is recorded, the premise of a claim about a program (R350). -/
def SafeProgram (script : List HostAction) : Prop := (observeProgram script).fault = none

/-- `z` is the binary64 value of the exact result `q`, rounded to nearest, ties to even: finite exactly below the
overflow threshold, an infinity above it; no finite value is nearer, and of two equally near ones `z` has the even pattern;
and `z` has the sign of a `q` other than zero, so also where it is an infinity or a `q` too small rounds to a zero. -/
def RoundedTo (z : F64) (q : ℚ) : Prop :=
  (z.isFinite = true ↔ |q| < 2 ^ 1024 - 2 ^ 970) ∧
  (z.isFinite = false → z.isInf = true) ∧
  (q ≠ 0 → (z.sign = true ↔ q < 0)) ∧
  (z.isFinite = true → ∀ w : F64, w.isFinite = true →
    |z.real - q| ≤ |w.real - q| ∧ (|w.real - q| = |z.real - q| → w.real = z.real ∨ z.fracField % 2 = 0))

/-- `fits_signed(n, width)` as R131 writes it. -/
def FitsS (n : Int) (width : Nat) : Prop :=
  if width = 0 then n = 0 else -(2 ^ (width - 1)) ≤ n ∧ n < 2 ^ (width - 1)

/-- All of I[0..5] are written. -/
def IntPortsWritten (s : State dimBits) : Prop := ∀ k : Fin 6, s.i[k].valid = true

/-- The packed-field ranges of R96. -/
def RecordInRange (r : Record) : Prop :=
  (0 ≤ r.a ∧ r.a ≤ 511) ∧ (-16 ≤ r.b ∧ r.b ≤ 15) ∧ (-16 ≤ r.c ∧ r.c ≤ 15) ∧ (-16 ≤ r.d ∧ r.d ≤ 15) ∧
    (0 ≤ r.pb ∧ r.pb ≤ 15) ∧ (0 ≤ r.pr ∧ r.pr ≤ 15)

/-- The first `n` of F[0..11] are written. -/
def FloatPortsWritten (n : Nat) (s : State dimBits) : Prop := ∀ k : Fin 12, k.val < n → s.f[k].valid = true

/-- The first `n` of F[0..11] pass `check_f` (R160). -/
def FloatPortsInDomain (n : Nat) (s : State dimBits) : Prop := ∀ k : Fin 12, k.val < n → InDomain (s.flt k)

end Sys2Proof.Machine
end

