-- ==== Sys2Proof/Certificates/Slice0/Obligations.lean ====
section
/-! DEFINITION. The statements for the provers. Each docstring names the rules of spec/ it formalises. `Succeeded` and
`Failed` (Safety.lean) say the whole end of a command, its frame included: the input ports are unchanged, and every
result port that is not named is invalid. -/

section

open Sys2Proof Sys2Proof.Machine

/-! ### Encoding (30_encoding.md) -/

/-- R90, R91: the word `enc(OPC, WIDTH, LSB)` of every well-formed command decodes to that command, with both immediates
as they were. -/
def Obligations.DecodeOfEncode : Prop :=
  ∀ i : Instr, i.wellFormed = true → decode (encode i) = .ok i

/-- R92 and R93 from the other side: a word that decodes to a command is the word of that command, which is well-formed.
So no two words decode to one command. -/
def Obligations.EncodeOfDecode : Prop :=
  ∀ (w : Word32) (i : Instr), decode w = .ok i → i.wellFormed = true ∧ encode i = w

/-- R93 and R94: exactly which words are legal, by the bits of the word. Bits 31:22 are zero; the operation code is in
R92's table; FITS_U and FITS_S have bits 21:15 zero; every command but the six bit-field ones has bits 21:8 zero. -/
def Obligations.LegalWordsExactly : Prop :=
  ∀ w : Word32, (∃ i, decode w = .ok i) ↔
    (w.toNat / 2 ^ 22 = 0 ∧
      ((w.toNat % 2 ^ 8 ∈ [0x03, 0x04, 0x05, 0x06]) ∨
       (w.toNat % 2 ^ 8 ∈ [0x01, 0x02] ∧ w.toNat / 2 ^ 15 % 2 ^ 7 = 0) ∨
       (w.toNat % 2 ^ 8 ∈ [0x10, 0x11, 0x12, 0x13, 0x20, 0x21, 0x30, 0x31, 0x32, 0x33, 0x34, 0x35, 0x36, 0x37, 0x40,
          0x41, 0x50, 0x51, 0x52, 0x53, 0x54] ∧ w.toNat / 2 ^ 8 % 2 ^ 14 = 0)))

/-- R90 and R92: words written out from the spec's fields (OPC 7:0, WIDTH 14:8, LSB 21:15, RSVD 31:22), at least one of
each family, decode to the commands they stand for. -/
def Obligations.WrittenOutWordsDecode : Prop :=
  decode (0#10 ++ 0#7 ++ 9#7 ++ 0x01#8) = .ok (.fitsU 9) ∧
  decode (0#10 ++ 23#7 ++ 9#7 ++ 0x03#8) = .ok (.extractU 9 23) ∧
  decode (0#10 ++ 18#7 ++ 5#7 ++ 0x06#8) = .ok (.insertS 5 18) ∧
  decode (0#10 ++ 0#7 ++ 0#7 ++ 0x13#8) = .ok .normToRgb ∧
  decode (0#10 ++ 0#7 ++ 0#7 ++ 0x21#8) = .ok .blkInv ∧
  decode (0#10 ++ 0#7 ++ 0#7 ++ 0x37#8) = .ok .blkDequant ∧
  decode (0#10 ++ 0#7 ++ 0#7 ++ 0x40#8) = .ok .pack ∧
  decode (0#10 ++ 0#7 ++ 0#7 ++ 0x54#8) = .ok .decompress ∧
  decode (0#10 ++ 64#7 ++ 1#7 ++ 0x03#8) = .ok (.extractU 1 64)

/-! ### The step: commands and host actions -/

/-- R90, R302: a step whose next host action writes a word that decodes to `i` into CMD is `exec i`, at the state with
that action taken from the program and the word in CMD (log 1). A step with such a word already in CMD is `exec i` at the
state itself (log 3). -/
def Obligations.StepRunsDecodedCommand : Prop :=
  ∀ (s : State) (w : Word32) (i : Instr), decode w = .ok i →
    (∀ rest : List HostAction, s.cmd = none → s.script = .command w :: rest →
      step s = exec i { s with script := rest, cmd := some w }) ∧
    (s.cmd = some w → step s = exec i s)

/-- R93, R94, R302: a step that writes a word that does not decode into CMD ends with ILLEGAL_COMMAND (0x00000FF4) and
every result port invalid, whatever the input ports hold. -/
def Obligations.StepRejectsIllegalWord : Prop :=
  ∀ (s : State) (w : Word32) (rest : List HostAction) (e : DecodeReject), s.cmd = none →
    s.script = .command w :: rest → decode w = .error e →
    ∃ t, step s = .next t ∧ Failed { s with script := rest } t 0x00000FF4#32

/-- R33, R351: a host write of an input port gives it the value and sets its valid bit; a host write to a result port
or to STATUS is ignored (R29). Both change nothing else. -/
def Obligations.StepHostWrites : Prop :=
  ∀ (s : State) (rest : List HostAction), s.cmd = none →
    (∀ v, s.script = .write (.w64 v) :: rest → step s = .next { s with script := rest, w64 := ⟨v, true⟩ }) ∧
    (∀ v, s.script = .write (.v64 v) :: rest → step s = .next { s with script := rest, v64 := ⟨v, true⟩ }) ∧
    (∀ k v, s.script = .write (.i k v) :: rest → step s = .next { s with script := rest, i := s.i.set k ⟨v, true⟩ }) ∧
    (∀ k v, s.script = .write (.f k v) :: rest → step s = .next { s with script := rest, f := s.f.set k ⟨v, true⟩ }) ∧
    (∀ v, s.script = .write (.dimW v) :: rest → step s = .next { s with script := rest, dimW := ⟨v, true⟩ }) ∧
    (∀ v, s.script = .write (.dimH v) :: rest → step s = .next { s with script := rest, dimH := ⟨v, true⟩ }) ∧
    (∀ v, s.script = .write (.rasterIn v) :: rest → step s = .next { s with script := rest, rasterIn := ⟨v, true⟩ }) ∧
    (∀ v, s.script = .write (.streamIn v) :: rest → step s = .next { s with script := rest, streamIn := ⟨v, true⟩ }) ∧
    (∀ v, s.script = .writeIgnored v :: rest → step s = .next { s with script := rest })

/-- R29, R30, R35: a read of STATUS returns it; a read of a valid result port returns its value, port by port; a read of an
invalid result port faults INVALID_RESULT_READ; a read of CMD faults CMD_READ. A read changes nothing but the host's own
list of readings. -/
def Obligations.StepHostReads : Prop :=
  ∀ (s : State) (rest : List HostAction), s.cmd = none →
    let returns := fun (t : ReadTarget) (v : Reading) =>
      s.script = .read t :: rest → step s = .next { s with script := rest, reads := s.reads ++ [v] }
    returns .status (.status s.status) ∧
    (s.rw64.valid = true → returns (.port .rw64) (.rw64 s.rw64.val)) ∧
    (s.rb.valid = true → returns (.port .rb) (.rb s.rb.val)) ∧
    (∀ k : Fin 6, s.ri[k].valid = true → returns (.port (.ri k)) (.ri k s.ri[k].val)) ∧
    (∀ k : Fin 12, s.rf[k].valid = true → returns (.port (.rf k)) (.rf k s.rf[k].val)) ∧
    (s.rdimW.valid = true → returns (.port .rdimW) (.rdimW s.rdimW.val)) ∧
    (s.rdimH.valid = true → returns (.port .rdimH) (.rdimH s.rdimH.val)) ∧
    (s.streamOut.valid = true → returns (.port .streamOut) (.streamOut s.streamOut.val)) ∧
    (s.rasterOut.valid = true → returns (.port .rasterOut) (.rasterOut s.rasterOut.val)) ∧
    (∀ p, s.script = .read (.port p) :: rest → s.outValid p = false → step s = .fault .invalidResultRead) ∧
    (s.script = .read .cmd :: rest → step s = .fault .cmdRead)

/-- R39, R340: RESET leaves STATUS = 0x00000FF7, every valid bit of every port 0 and no command in progress. The host's
remaining actions and its readings stay (the host's own, log 1). -/
def Obligations.StepReset : Prop :=
  ∀ (s : State) (rest : List HostAction), s.cmd = none → s.script = .reset :: rest →
    ∃ t, step s = .next t ∧ t.status = 0x00000FF7#32 ∧ t.cmd = none ∧ (∀ p : InPort, t.inValid p = false) ∧
      (∀ p : OutPort, t.outValid p = false) ∧ t.script = rest ∧ t.reads = s.reads

/-- R39: the state after reset, and at power-on (R341). -/
def Obligations.ResetState : Prop :=
  State.reset.status = 0x00000FF7#32 ∧ State.reset.cmd = none ∧ (∀ p : InPort, State.reset.inValid p = false) ∧
    (∀ p : OutPort, State.reset.outValid p = false)

/-! ### Invariants and whole-machine rules -/

/-- R29, R39: both invariants, that of InvKeptByStep and that of FloatResultsAreFinite, hold after reset. -/
def Obligations.InvAtReset : Prop := Inv State.reset ∧ FloatResultsFinite State.reset

/-- R29, R34, R38, R304: every step keeps the invariant: no command is in progress, STATUS is a legal word, and unless the
last command completed with OK every result port is invalid. -/
def Obligations.InvKeptByStep : Prop :=
  ∀ s t : State, Inv s → step s = .next t → Inv t

/-- R33, R304: no command changes an input port, whatever its outcome; nor does it touch the host's program or
readings. -/
def Obligations.CommandsKeepInputs : Prop :=
  ∀ (i : Instr) (s t : State), exec i s = .next t → SameInputs s t ∧ t.script = s.script ∧ t.reads = s.reads

/-- R34, R304: a command that answers a next state either completed with OK, and then exactly the result ports of R92's
writes column are valid, or ended with one of its error words (R300), and then no result port is valid. In both cases
no input port has changed. -/
def Obligations.CommandResultsExactly : Prop :=
  ∀ (i : Instr) (s t : State), exec i s = .next t → SameInputs s t ∧
    ((t.status = 0x00000FF0#32 ∧ ∀ p : OutPort, t.outValid p = true ↔ p ∈ resultPorts i) ∨
    (t.status ∈ errorWords i ∧ ∀ p : OutPort, t.outValid p = false))

/-- R36, R302: a command faults UNWRITTEN_OPERAND exactly when an input port of R92's reads column has never been
written, and it never ends in any other fault or in a refusal (R61: BUF_INDEX is unreachable; log 6: no buffer exceeds
the capacity). So with its operands written every command answers a next state. -/
def Obligations.CommandsStopOnlyOnUnwrittenOperands : Prop :=
  ∀ (i : Instr) (s : State),
    ((∃ p ∈ operandPorts i, s.inValid p = false) → exec i s = .fault .unwrittenOperand) ∧
    ((∀ p ∈ operandPorts i, s.inValid p = true) → ∃ t, exec i s = .next t)

/-- R20, R36: a command's outcome depends on nothing but the input ports of R92's reads column: two states that agree on
those give the host the same fault, or the same STATUS and the same valid results. -/
def Obligations.CommandsReadOnlyTheirOperands : Prop :=
  ∀ (i : Instr) (s t : State), (∀ p ∈ operandPorts i, p.Agree s t) → SameToHost (exec i s) (exec i t)

/-- R160: every step (a command or an illegal word, a host access, RESET, an idle step) keeps every valid RF[k] finite;
and a command makes it so from any state at all, whatever the operands. -/
def Obligations.FloatResultsAreFinite : Prop :=
  (∀ s t : State, FloatResultsFinite s → step s = .next t → FloatResultsFinite t) ∧
  ∀ (i : Instr) (s t : State), exec i s = .next t → FloatResultsFinite t

/-- R342: a step under a configuration is refused exactly when the configuration does not conform, that is when one of these
fails: 16 finite codebook levels, strictly increasing in exact value, each of magnitude at most F_DOMAIN_MAX; DENOM_MAX in
1..2^32-1; DEC_DENOM in 1..DENOM_MAX. Under a conforming one it is the step of that configuration's command set. The
build's configuration conforms, so its steps are those of the machine. The model's choices in it: F_DOMAIN_MAX is a whole
number (log 22), and under a NUMERIC other than the default the levels are numbers of that NUMERIC (log 23). -/
def Obligations.NonconformingConfigurationRefused : Prop :=
  (∀ (dimBits : Nat) (p : Params) (s : State dimBits),
    let level := fun k : Fin 16 => p.numeric.real p.codebook[k]
    let conforming :=
      (∀ k : Fin 16, p.numeric.isFinite p.codebook[k] = true) ∧
      (∀ j k : Fin 16, j < k → level j < level k) ∧
      (∀ k : Fin 16, |level k| ≤ p.fDomainMax) ∧
      (1 ≤ p.denomMax ∧ p.denomMax ≤ 2 ^ 32 - 1) ∧
      (1 ≤ p.decDenom ∧ p.decDenom ≤ p.denomMax)
    (stepUnder p s = .refused .nonconformingConfiguration ↔ ¬ conforming) ∧
    (conforming → stepUnder p s = stepBy (execUnder p) s)) ∧
  (∀ s : State, stepUnder Config.build s = step s)

/-! ### Binary64 arithmetic (00_scope.md R12, R13) -/

/-- R12: addition and subtraction of finite values are correctly rounded. An exact sum of zero has the sign of IEEE 754
arithmetic: minus only where both addends, the second one negated in a subtraction, are minus (D33). -/
def Obligations.AddSubCorrectlyRounded : Prop :=
  ∀ x y : F64, x.isFinite = true → y.isFinite = true →
    RoundedTo (F64.add x y) (x.real + y.real) ∧ RoundedTo (F64.sub x y) (x.real - y.real) ∧
    (x.real + y.real = 0 → (F64.add x y).sign = (x.sign && y.sign)) ∧
    (x.real - y.real = 0 → (F64.sub x y).sign = (x.sign && !y.sign))

/-- R12: multiplication of finite values is correctly rounded; the sign of every product, zeros and infinities included, is
minus exactly where one factor's sign is (D33). -/
def Obligations.MulCorrectlyRounded : Prop :=
  ∀ x y : F64, x.isFinite = true → y.isFinite = true →
    RoundedTo (F64.mul x y) (x.real * y.real) ∧ (F64.mul x y).sign = (x.sign != y.sign)

/-- R12: division of finite values by a finite value other than zero is correctly rounded; the sign of every quotient, zeros
and infinities included, is minus exactly where one operand's sign is (D33). -/
def Obligations.DivCorrectlyRounded : Prop :=
  ∀ x y : F64, x.isFinite = true → y.isFinite = true → y.real ≠ 0 →
    RoundedTo (F64.div x y) (x.real / y.real) ∧ (F64.div x y).sign = (x.sign != y.sign)

/-- R12: `f64(n)` is exact for every integer of magnitude below 2^53. -/
def Obligations.OfIntExact : Prop :=
  ∀ n : Int, |n| < 2 ^ 53 → (F64.ofInt n).isFinite = true ∧ (F64.ofInt n).real = n

/-- R13: `round(x)` is `floor(real(x) + 1/2)` for real(x) >= 0 and `-floor(-real(x) + 1/2)` below; `clamp(v, lo, hi)` is
`min(max(v, lo), hi)`, on floats and on integers. -/
def Obligations.RoundAndClamp : Prop :=
  (∀ x : F64, x.isFinite = true →
    (0 ≤ x.real → F64.round x = ⌊x.real + 1 / 2⌋) ∧ (x.real < 0 → F64.round x = -⌊-x.real + 1 / 2⌋)) ∧
  (∀ v lo hi : F64, v.isFinite = true → lo.isFinite = true → hi.isFinite = true →
    (F64.clamp v lo hi).real = min (max v.real lo.real) hi.real) ∧
  (∀ v lo hi : Int, clampInt v lo hi = min (max v lo) hi)

/-! ### Bit-field codec (40_bitfield.md) -/

/-- R130, R137: `fits_unsigned(n, width)` is 0 <= n < 2^width. FITS_U with a width of at most 64 completes with RB = 1 exactly when 0 <= n < 2^width, n = V64 as u64; a
larger width is FIELD_BOUNDS. -/
def Obligations.FitsUnsigned : Prop :=
  (∀ (n : Int) (width : Nat), fitsUnsigned n width = true ↔ 0 ≤ n ∧ n < 2 ^ width) ∧
  ∀ (s : State) (width : Nat), s.v64.valid = true →
    (width ≤ 64 → ∃ t, exec (.fitsU width) s = .next t ∧
      Succeeded s t { rb := some (decide (s.v64.val.toNat < 2 ^ width)) }) ∧
    (64 < width → ∃ t, exec (.fitsU width) s = .next t ∧ Failed s t 0x00000FF3#32)

/-- R131, R138: `fits_signed(n, width)` is -2^(width-1) <= n < 2^(width-1), and n = 0 for width 0. FITS_S with a width of at most 64 completes with RB = 1 exactly when -2^(width-1) <= n < 2^(width-1), n =
V64 as s64 (only n = 0 for width 0); a larger width is FIELD_BOUNDS. -/
def Obligations.FitsSigned : Prop :=
  (∀ (n : Int) (width : Nat), fitsSigned n width = true ↔
    (width = 0 ∧ n = 0) ∨ (1 ≤ width ∧ -(2 ^ (width - 1)) ≤ n ∧ n < 2 ^ (width - 1))) ∧
  ∀ (s : State) (width : Nat), s.v64.valid = true →
    (width = 0 → ∃ t, exec (.fitsS width) s = .next t ∧ Succeeded s t { rb := some (decide (s.v64.val.toInt = 0)) }) ∧
    (1 ≤ width → width ≤ 64 → ∃ t, exec (.fitsS width) s = .next t ∧
      Succeeded s t { rb := some (decide (-(2 ^ (width - 1)) ≤ s.v64.val.toInt ∧ s.v64.val.toInt < 2 ^ (width - 1))) }) ∧
    (64 < width → ∃ t, exec (.fitsS width) s = .next t ∧ Failed s t 0x00000FF3#32)

/-- R132, R133, R139: EXTRACT_U of a field in bounds completes, and bit j of RW64 is bit lsb+j of W64 for j < width and 0
above (0 for width 0); a field out of bounds is FIELD_BOUNDS. -/
def Obligations.ExtractUnsigned : Prop :=
  ∀ (s : State) (width lsb : Nat), s.w64.valid = true →
    (width + lsb ≤ 64 → ∃ t v, exec (.extractU width lsb) s = .next t ∧ Succeeded s t { rw64 := some v } ∧
      ∀ j, j < 64 → v.getLsbD j = (decide (j < width) && s.w64.val.getLsbD (lsb + j))) ∧
    (64 < width + lsb → ∃ t, exec (.extractU width lsb) s = .next t ∧ Failed s t 0x00000FF3#32)

/-- R132, R134, R140: EXTRACT_S of a field in bounds completes; bit j of RW64 is bit lsb+j of W64 for j < width and the
field's top bit above, and RW64 is 0 for width 0; a field out of bounds is FIELD_BOUNDS. -/
def Obligations.ExtractSigned : Prop :=
  ∀ (s : State) (width lsb : Nat), s.w64.valid = true →
    (width + lsb ≤ 64 → ∃ t v, exec (.extractS width lsb) s = .next t ∧ Succeeded s t { rw64 := some v } ∧
      (width = 0 → v = 0#64) ∧
      (1 ≤ width → ∀ j, j < 64 → v.getLsbD j = s.w64.val.getLsbD (lsb + min j (width - 1)))) ∧
    (64 < width + lsb → ∃ t, exec (.extractS width lsb) s = .next t ∧ Failed s t 0x00000FF3#32)

/-- R132, R135, R141, R303: INSERT_U of a field in bounds with a value that fits completes; RW64 has V64's low width
bits in the field and W64's bits everywhere else. A value that does not fit is RANGE_VIOLATION, and a field out of
bounds is FIELD_BOUNDS whatever the value. -/
def Obligations.InsertUnsigned : Prop :=
  ∀ (s : State) (width lsb : Nat), s.w64.valid = true → s.v64.valid = true →
    (width + lsb ≤ 64 → s.v64.val.toNat < 2 ^ width → ∃ t v, exec (.insertU width lsb) s = .next t ∧
      Succeeded s t { rw64 := some v } ∧ ∀ j, j < 64 → v.getLsbD j =
        if lsb ≤ j ∧ j < lsb + width then s.v64.val.getLsbD (j - lsb) else s.w64.val.getLsbD j) ∧
    (width + lsb ≤ 64 → 2 ^ width ≤ s.v64.val.toNat → ∃ t, exec (.insertU width lsb) s = .next t ∧
      Failed s t 0x00000FF1#32) ∧
    (64 < width + lsb → ∃ t, exec (.insertU width lsb) s = .next t ∧ Failed s t 0x00000FF3#32)

/-- R131, R132, R136, R142, R303: INSERT_S, as INSERT_U with V64 read as s64 and the signed fit test. -/
def Obligations.InsertSigned : Prop :=
  ∀ (s : State) (width lsb : Nat), s.w64.valid = true → s.v64.valid = true →
    (width + lsb ≤ 64 → FitsS s.v64.val.toInt width → ∃ t v, exec (.insertS width lsb) s = .next t ∧
      Succeeded s t { rw64 := some v } ∧ ∀ j, j < 64 → v.getLsbD j =
        if lsb ≤ j ∧ j < lsb + width then s.v64.val.getLsbD (j - lsb) else s.w64.val.getLsbD j) ∧
    (width + lsb ≤ 64 → ¬ FitsS s.v64.val.toInt width → ∃ t, exec (.insertS width lsb) s = .next t ∧
      Failed s t 0x00000FF1#32) ∧
    (64 < width + lsb → ∃ t, exec (.insertS width lsb) s = .next t ∧ Failed s t 0x00000FF3#32)

/-- R143: extracting a field that was just inserted gives back the value, unsigned and signed, for every word, every
field in bounds and every value that fits; and the insert leaves every bit outside the field unchanged. -/
def Obligations.ExtractOfInsert : Prop :=
  ∀ (s : State) (width lsb : Nat), s.w64.valid = true → s.v64.valid = true → width + lsb ≤ 64 →
    (s.v64.val.toNat < 2 ^ width → ∃ t, exec (.insertU width lsb) s = .next t ∧
      (∀ u : State, u.w64 = t.rw64 → ∃ v, exec (.extractU width lsb) u = .next v ∧ v.rw64 = ⟨s.v64.val, true⟩) ∧
      ∀ j, j < 64 → ¬ (lsb ≤ j ∧ j < lsb + width) → t.rw64.val.getLsbD j = s.w64.val.getLsbD j) ∧
    (FitsS s.v64.val.toInt width → ∃ t, exec (.insertS width lsb) s = .next t ∧
      (∀ u : State, u.w64 = t.rw64 → ∃ v, exec (.extractS width lsb) u = .next v ∧ v.rw64 = ⟨s.v64.val, true⟩) ∧
      ∀ j, j < 64 → ¬ (lsb ≤ j ∧ j < lsb + width) → t.rw64.val.getLsbD j = s.w64.val.getLsbD j)

/-! ### Word packer (44_packer.md) -/

/-- R96, R98, R230, R232: PACK of a record in range completes, with RW64 = a·2^23 + b·2^18 + c·2^13 + d·2^8 + avg_pb·2^4
+ avg_pr, each signed field as its five-bit pattern. -/
def Obligations.PackLayout : Prop :=
  ∀ s : State, IntPortsWritten s → RecordInRange s.record →
    ∃ t v, exec .pack s = .next t ∧ Succeeded s t { rw64 := some v } ∧
      (v.toNat : Int) = s.int 0 * 2 ^ 23 + (s.int 1 % 32) * 2 ^ 18 + (s.int 2 % 32) * 2 ^ 13 + (s.int 3 % 32) * 2 ^ 8 +
        s.int 4 * 2 ^ 4 + s.int 5

/-- R230, R232: PACK of a record out of range is RANGE_VIOLATION with the number of its first failing field. -/
def Obligations.PackReportsFirstFailingField : Prop :=
  ∀ s : State, IntPortsWritten s →
    let aOk := 0 ≤ s.int 0 ∧ s.int 0 ≤ 511
    let bOk := -16 ≤ s.int 1 ∧ s.int 1 ≤ 15
    let cOk := -16 ≤ s.int 2 ∧ s.int 2 ≤ 15
    let dOk := -16 ≤ s.int 3 ∧ s.int 3 ≤ 15
    let pbOk := 0 ≤ s.int 4 ∧ s.int 4 ≤ 15
    let prOk := 0 ≤ s.int 5 ∧ s.int 5 ≤ 15
    (¬ aOk → ∃ t, exec .pack s = .next t ∧ Failed s t 0x00000F01#32) ∧
    (aOk → ¬ bOk → ∃ t, exec .pack s = .next t ∧ Failed s t 0x00000F11#32) ∧
    (aOk → bOk → ¬ cOk → ∃ t, exec .pack s = .next t ∧ Failed s t 0x00000F21#32) ∧
    (aOk → bOk → cOk → ¬ dOk → ∃ t, exec .pack s = .next t ∧ Failed s t 0x00000F31#32) ∧
    (aOk → bOk → cOk → dOk → ¬ pbOk → ∃ t, exec .pack s = .next t ∧ Failed s t 0x00000F41#32) ∧
    (aOk → bOk → cOk → dOk → pbOk → ¬ prOk → ∃ t, exec .pack s = .next t ∧ Failed s t 0x00000F51#32)

/-- R97, R231, R233: UNPACK of a word with bits 63:32 zero completes with the fields of R96, b, c and d sign-extended;
with any of bits 63:32 set it is MALFORMED_INPUT with REASON 6. -/
def Obligations.UnpackFields : Prop :=
  ∀ s : State, s.w64.valid = true →
    let w := s.w64.val.toNat
    let signed := fun n : Nat => if n < 16 then (n : Int) else (n : Int) - 32
    (w < 2 ^ 32 → ∃ t, exec .unpack s = .next t ∧ Succeeded s t { ri :=
      [s64 (w / 2 ^ 23 : Nat), s64 (signed (w / 2 ^ 18 % 32)), s64 (signed (w / 2 ^ 13 % 32)),
       s64 (signed (w / 2 ^ 8 % 32)), s64 (w / 2 ^ 4 % 16 : Nat), s64 (w % 16 : Nat)] }) ∧
    (2 ^ 32 ≤ w → ∃ t, exec .unpack s = .next t ∧ Failed s t 0x000006F2#32)

/-- R234: UNPACK after PACK gives back every record in range, and PACK after UNPACK gives back every 32-bit word. -/
def Obligations.PackUnpackInverse : Prop :=
  (∀ s : State, IntPortsWritten s → RecordInRange s.record → ∃ t, exec .pack s = .next t ∧
    ∀ u : State, u.w64 = t.rw64 → ∃ v, exec .unpack u = .next v ∧ ∀ k : Fin 6, v.ri[k] = s.i[k]) ∧
  (∀ s : State, s.w64.valid = true → s.w64.val.toNat < 2 ^ 32 → ∃ t, exec .unpack s = .next t ∧
    ∀ u : State, u.i = t.ri → ∃ v, exec .pack u = .next v ∧ v.rw64 = s.w64)

/-! ### Colour transform (41_colour.md) -/

/-- R161, R162, R166: RGB_TO_NORM of channels in 0..d with 1 <= d <= 65535 completes with the three divided channels; a
bad denominator is REASON 3, and with a good one a channel outside 0..d is REASON 4. -/
def Obligations.RgbToNorm : Prop :=
  ∀ s : State, (∀ k : Fin 4, s.i[k.val].valid = true) →
    let d := s.int 3
    let denomOk := 1 ≤ d ∧ d ≤ 65535
    let channelsOk := (0 ≤ s.int 0 ∧ s.int 0 ≤ d) ∧ (0 ≤ s.int 1 ∧ s.int 1 ≤ d) ∧ (0 ≤ s.int 2 ∧ s.int 2 ≤ d)
    (denomOk → channelsOk → ∃ t, exec .rgbToNorm s = .next t ∧ Succeeded s t { rf :=
      [F64.div (F64.ofInt (s.int 0)) (F64.ofInt d), F64.div (F64.ofInt (s.int 1)) (F64.ofInt d),
       F64.div (F64.ofInt (s.int 2)) (F64.ofInt d)] }) ∧
    (¬ denomOk → ∃ t, exec .rgbToNorm s = .next t ∧ Failed s t 0x000003F2#32) ∧
    (denomOk → ¬ channelsOk → ∃ t, exec .rgbToNorm s = .next t ∧ Failed s t 0x000004F2#32)

/-- R163, R167: NORM_TO_YPBPR completes on operands in the domain, with the formulas of R163 in the parenthesization
written; the literals are the binary64 patterns of 93_implementation_defined.md. -/
def Obligations.NormToYpbpr : Prop :=
  ∀ s : State, FloatPortsWritten 3 s → FloatPortsInDomain 3 s →
    let r := s.flt 0
    let g := s.flt 1
    let b := s.flt 2
    ∃ t, exec .normToYpbpr s = .next t ∧ Succeeded s t { rf :=
      [F64.add (F64.add (F64.mul ⟨0x3FD322D0E5604189#64⟩ r) (F64.mul ⟨0x3FE2C8B439581062#64⟩ g))
         (F64.mul ⟨0x3FBD2F1A9FBE76C9#64⟩ b),
       F64.add (F64.sub (F64.mul ⟨0xBFC5992428D434A0#64⟩ r) (F64.mul ⟨0x3FD5336DEB95E5B0#64⟩ g))
         (F64.mul ⟨0x3FE0000000000000#64⟩ b),
       F64.sub (F64.sub (F64.mul ⟨0x3FE0000000000000#64⟩ r) (F64.mul ⟨0x3FDACBC8C0CE91C9#64⟩ g))
         (F64.mul ⟨0x3FB4D0DCFCC5B8DC#64⟩ b)] }

/-- R164, R168: YPBPR_TO_NORM completes on operands in the domain, with the formulas of R164, not clamped. -/
def Obligations.YpbprToNorm : Prop :=
  ∀ s : State, FloatPortsWritten 3 s → FloatPortsInDomain 3 s →
    let y := s.flt 0
    let pb := s.flt 1
    let pr := s.flt 2
    ∃ t, exec .ypbprToNorm s = .next t ∧ Succeeded s t { rf :=
      [F64.add y (F64.mul ⟨0x3FF66E978D4FDF3B#64⟩ pr),
       F64.sub (F64.sub y (F64.mul ⟨0x3FD6065300581494#64⟩ pb)) (F64.mul ⟨0x3FE6DA33BD9CAE21#64⟩ pr),
       F64.add y (F64.mul ⟨0x3FFC5A1CAC083127#64⟩ pb)] }

/-- R13, R165, R169, R303: NORM_TO_RGB completes on channels in the domain and 1 <= d <= 65535, each result round(channel
* d) clamped to 0..d; a channel out of the domain is NUMERIC_DOMAIN whatever the denominator, and then a bad
denominator is REASON 3. -/
def Obligations.NormToRgb : Prop :=
  ∀ s : State, FloatPortsWritten 3 s → s.i[3].valid = true →
    let d := s.int 3
    let channel := fun k : Fin 12 => min (max (F64.round (F64.mul (s.flt k) (F64.ofInt d))) 0) d
    (FloatPortsInDomain 3 s → 1 ≤ d → d ≤ 65535 → ∃ t, exec .normToRgb s = .next t ∧
      Succeeded s t { ri := [s64 (channel 0), s64 (channel 1), s64 (channel 2)] }) ∧
    (¬ FloatPortsInDomain 3 s → ∃ t, exec .normToRgb s = .next t ∧ Failed s t 0x00000FF5#32) ∧
    (FloatPortsInDomain 3 s → ¬ (1 ≤ d ∧ d ≤ 65535) → ∃ t, exec .normToRgb s = .next t ∧ Failed s t 0x000003F2#32)

/-- R160: every command that reads float ports ends with NUMERIC_DOMAIN (0x00000FF5) when one of those ports holds a
NaN, an infinity or a magnitude above 2^20. -/
def Obligations.FloatCommandsCheckTheDomain : Prop :=
  ∀ (s : State) (i : Instr) (n : Nat),
    (i, n) ∈ [(.normToYpbpr, 3), (.ypbprToNorm, 3), (.blkFwd, 12), (.blkInv, 6), (.quantA, 1), (.quantBcd, 1),
      (.chromaQ, 1), (.blkQuant, 6)] →
    FloatPortsWritten n s → ¬ FloatPortsInDomain n s → ∃ t, exec i s = .next t ∧ Failed s t 0x00000FF5#32

/-! ### Block transform (42_block_transform.md) -/

/-- R180, R181, R183: BLK_FWD completes on operands in the domain, with the forward formulas of R180 on the four lumas and
the chroma averages of R181. -/
def Obligations.BlockForward : Prop :=
  ∀ s : State, FloatPortsWritten 12 s → FloatPortsInDomain 12 s →
    let four : F64 := ⟨0x4010000000000000#64⟩
    let avg := fun p0 p1 p2 p3 : F64 => F64.div (F64.add (F64.add (F64.add p0 p1) p2) p3) four
    let y0 := s.flt 0
    let y1 := s.flt 3
    let y2 := s.flt 6
    let y3 := s.flt 9
    ∃ t, exec .blkFwd s = .next t ∧ Succeeded s t { rf :=
      [avg y0 y1 y2 y3,
       F64.div (F64.sub (F64.sub (F64.add y3 y2) y1) y0) four,
       F64.div (F64.sub (F64.add (F64.sub y3 y2) y1) y0) four,
       F64.div (F64.add (F64.sub (F64.sub y3 y2) y1) y0) four,
       avg (s.flt 1) (s.flt 4) (s.flt 7) (s.flt 10),
       avg (s.flt 2) (s.flt 5) (s.flt 8) (s.flt 11)] }

/-- R182, R184: BLK_INV completes on operands in the domain, with the inverse formulas of R182 and the block's chroma in
every pixel. -/
def Obligations.BlockInverse : Prop :=
  ∀ s : State, FloatPortsWritten 6 s → FloatPortsInDomain 6 s →
    let a := s.flt 0
    let b := s.flt 1
    let c := s.flt 2
    let d := s.flt 3
    let pb := s.flt 4
    let pr := s.flt 5
    ∃ t, exec .blkInv s = .next t ∧ Succeeded s t { rf :=
      [F64.add (F64.sub (F64.sub a b) c) d, pb, pr,
       F64.sub (F64.add (F64.sub a b) c) d, pb, pr,
       F64.sub (F64.sub (F64.add a b) c) d, pb, pr,
       F64.add (F64.add (F64.add a b) c) d, pb, pr] }

/-! ### Quantizer (43_quantizer.md) -/

/-- R200, R208: QUANT_A completes on an operand in the domain with clamp(round(a * 511), 0, 511). -/
def Obligations.QuantizeA : Prop :=
  ∀ s : State, s.f[0].valid = true → InDomain (s.flt 0) → ∃ t, exec .quantA s = .next t ∧
    Succeeded s t { ri := [s64 (min (max (F64.round (F64.mul (s.flt 0) ⟨0x407FF00000000000#64⟩)) 0) 511)] }

/-- R201, R209: QUANT_BCD completes on an operand in the domain with round(clamp(v, -0.3, 0.3) * 50), and the result
lies in -15..15. In binary64, 0.3 * 50 is 15 exactly. -/
def Obligations.QuantizeBcd : Prop :=
  F64.mul ⟨0x3FD3333333333333#64⟩ ⟨0x4049000000000000#64⟩ = ⟨0x402E000000000000#64⟩ ∧
  ∀ s : State, s.f[0].valid = true → InDomain (s.flt 0) → ∃ t q, exec .quantBcd s = .next t ∧
    Succeeded s t { ri := [s64 q] } ∧
    q = F64.round (F64.mul (F64.clamp (s.flt 0) ⟨0xBFD3333333333333#64⟩ ⟨0x3FD3333333333333#64⟩)
      ⟨0x4049000000000000#64⟩) ∧
    -15 ≤ q ∧ q ≤ 15

/-- R203, R210: CHROMA_Q completes on an operand in the domain with the index in 0..15 of the codebook level nearest to it
in exact distance, the smaller index on a tie. For every codebook the build may have (log 5). -/
def Obligations.ChromaQuantizeNearest : Prop :=
  ∀ s : State, s.f[0].valid = true → InDomain (s.flt 0) → ∃ (t : State) (k : Fin 16), exec .chromaQ s = .next t ∧
    Succeeded s t { ri := [s64 k.val] } ∧
    ∀ j : Fin 16,
      |(s.flt 0).real - Config.build.codebook[k].real| ≤ |(s.flt 0).real - Config.build.codebook[j].real| ∧
      (j < k → |(s.flt 0).real - Config.build.codebook[k].real| < |(s.flt 0).real - Config.build.codebook[j].real|)

/-- R217 (its last sentence): every level of the codebook quantizes to its own index. -/
def Obligations.ChromaLevelsAreFixed : Prop :=
  ∀ (s : State) (k : Fin 16), s.f[0] = ⟨Config.build.codebook[k], true⟩ →
    ∃ t, exec .chromaQ s = .next t ∧ Succeeded s t { ri := [s64 k.val] }

/-- R202, R204, R205, R211, R212, R213: the three dequantizers complete on an integer of their field's range, with the
level, a'/511 and v'/50, and are MALFORMED_INPUT with REASON 5 outside it. The field value -16 gives -0.32. -/
def Obligations.Dequantizers : Prop :=
  F64.div (F64.ofInt (-16)) ⟨0x4049000000000000#64⟩ = ⟨0xBFD47AE147AE147B#64⟩ ∧
  ∀ s : State, s.i[0].valid = true →
    (∀ k : Fin 16, s.int 0 = k.val → ∃ t, exec .chromaDq s = .next t ∧
      Succeeded s t { rf := [Config.build.codebook[k]] }) ∧
    (¬ (0 ≤ s.int 0 ∧ s.int 0 ≤ 15) → ∃ t, exec .chromaDq s = .next t ∧ Failed s t 0x000005F2#32) ∧
    (0 ≤ s.int 0 ∧ s.int 0 ≤ 511 → ∃ t, exec .dequantA s = .next t ∧
      Succeeded s t { rf := [F64.div (F64.ofInt (s.int 0)) ⟨0x407FF00000000000#64⟩] }) ∧
    (¬ (0 ≤ s.int 0 ∧ s.int 0 ≤ 511) → ∃ t, exec .dequantA s = .next t ∧ Failed s t 0x000005F2#32) ∧
    (-16 ≤ s.int 0 ∧ s.int 0 ≤ 15 → ∃ t, exec .dequantBcd s = .next t ∧
      Succeeded s t { rf := [F64.div (F64.ofInt (s.int 0)) ⟨0x4049000000000000#64⟩] }) ∧
    (¬ (-16 ≤ s.int 0 ∧ s.int 0 ≤ 15) → ∃ t, exec .dequantBcd s = .next t ∧ Failed s t 0x000005F2#32)

/-- R206, R214: BLK_QUANT gives in RI[0..5] what QUANT_A, QUANT_BCD (three times) and CHROMA_Q (twice) give of its six
coefficients one by one. -/
def Obligations.BlockQuantizeIsItsParts : Prop :=
  ∀ s : State, FloatPortsWritten 6 s → FloatPortsInDomain 6 s → ∃ t, exec .blkQuant s = .next t ∧
    t.status = 0x00000FF0#32 ∧ SameInputs s t ∧ (∀ p : OutPort, t.outValid p = true ↔ ∃ k : Fin 6, p = .ri k) ∧
    ∀ (k : Fin 6) (u : State), u.f[0] = s.f[k.val]'(by omega) →
      ∃ v, exec (if k = 0 then .quantA else if k.val ≤ 3 then .quantBcd else .chromaQ) u = .next v ∧ v.ri[0] = t.ri[k]

/-- R207, R215: BLK_DEQUANT of a record in range completes and gives in RF[0..5] what DEQUANT_A, DEQUANT_BCD and CHROMA_DQ
give of its six integers one by one; a record out of range is MALFORMED_INPUT with REASON 5. -/
def Obligations.BlockDequantizeIsItsParts : Prop :=
  ∀ s : State, IntPortsWritten s →
    (RecordInRange s.record → ∃ t, exec .blkDequant s = .next t ∧
      t.status = 0x00000FF0#32 ∧ SameInputs s t ∧
      (∀ p : OutPort, t.outValid p = true ↔ ∃ k : Fin 12, k.val < 6 ∧ p = .rf k) ∧
      ∀ (k : Fin 6) (u : State), u.i[0] = s.i[k] →
        ∃ v, exec (if k = 0 then .dequantA else if k.val ≤ 3 then .dequantBcd else .chromaDq) u = .next v ∧
          v.rf[0] = t.rf[k.val]'(by omega)) ∧
    (¬ RecordInRange s.record → ∃ t, exec .blkDequant s = .next t ∧ Failed s t 0x000005F2#32)

/-- R216: what BLK_QUANT gives lies in 0..511, three times -15..15 and twice 0..15, and always packs: PACK of its six
results succeeds. -/
def Obligations.QuantizedRecordsPack : Prop :=
  ∀ s t : State, exec .blkQuant s = .next t → t.status = 0x00000FF0#32 →
    (0 ≤ t.ri[0].val.toInt ∧ t.ri[0].val.toInt ≤ 511) ∧
    (∀ k : Fin 6, 1 ≤ k.val → k.val ≤ 3 → -15 ≤ t.ri[k].val.toInt ∧ t.ri[k].val.toInt ≤ 15) ∧
    (∀ k : Fin 6, 4 ≤ k.val → 0 ≤ t.ri[k].val.toInt ∧ t.ri[k].val.toInt ≤ 15) ∧
    ∀ u : State, u.i = t.ri → ∃ v, exec .pack u = .next v ∧ v.status = 0x00000FF0#32 ∧ v.rw64.valid = true

/-! ### Pipeline (45_pipeline.md) -/

/-- R250, R259: TRIM completes on every pair of dimensions, each made even by dropping an odd last one. -/
def Obligations.TrimDimensions : Prop :=
  ∀ s : State, s.dimW.valid = true → s.dimH.valid = true → ∃ t w h, exec .trim s = .next t ∧
    Succeeded s t { rdimW := some w, rdimH := some h } ∧
    w.toNat = s.dimW.val.toNat - s.dimW.val.toNat % 2 ∧ h.toNat = s.dimH.val.toNat - s.dimH.val.toNat % 2

/-- R251, R260: BLOCK_COUNT of even dimensions completes with (W div 2) * (H div 2); an odd dimension is MALFORMED_INPUT
with REASON 1. -/
def Obligations.BlockCount : Prop :=
  ∀ s : State, s.dimW.valid = true → s.dimH.valid = true →
    let W := s.dimW.val.toNat
    let H := s.dimH.val.toNat
    (W % 2 = 0 → H % 2 = 0 → ∃ t n, exec .blockCount s = .next t ∧ Succeeded s t { rw64 := some n } ∧
      n.toNat = (W / 2) * (H / 2)) ∧
    (¬ (W % 2 = 0 ∧ H % 2 = 0) → ∃ t, exec .blockCount s = .next t ∧ Failed s t 0x000001F2#32)

/-- R252, R261: BLOCK_MAP of even dimensions and a block index 0 <= k < block_count completes; RI[p] is the row-major index
of row 2·(k div (W/2)) + p div 2 and column 2·(k mod (W/2)) + p mod 2, wherever that index is an s64. An odd dimension is
REASON 1, and then a bad index REASON 7. -/
def Obligations.BlockMap : Prop :=
  ∀ s : State, s.dimW.valid = true → s.dimH.valid = true → s.i[0].valid = true →
    let W := s.dimW.val.toNat
    let H := s.dimH.val.toNat
    let even := W % 2 = 0 ∧ H % 2 = 0
    (∀ k : Nat, even → s.int 0 = k → k < (W / 2) * (H / 2) → ∃ t r0 r1 r2 r3, exec .blockMap s = .next t ∧
      Succeeded s t { ri := [r0, r1, r2, r3] } ∧
      ∀ (p : Nat) (r : Word64), [r0, r1, r2, r3][p]? = some r →
        (2 * (k / (W / 2)) + p / 2) * W + (2 * (k % (W / 2)) + p % 2) < 2 ^ 63 →
        r.toInt = ((2 * (k / (W / 2)) + p / 2) * W + (2 * (k % (W / 2)) + p % 2) : Nat)) ∧
    (¬ even → ∃ t, exec .blockMap s = .next t ∧ Failed s t 0x000001F2#32) ∧
    (even → ¬ (0 ≤ s.int 0 ∧ s.int 0 < ((W / 2) * (H / 2) : Nat)) → ∃ t, exec .blockMap s = .next t ∧
      Failed s t 0x000007F2#32)

/-- R253: block_map's formula; and over the blocks k < block_count(W, H) and the positions p < 4 of even dimensions, block_map is a bijection onto
0..W*H-1. -/
def Obligations.BlockMapBijection : Prop :=
  (∀ W k p : Nat, blockMapOf W k p = (2 * (k / (W / 2)) + p / 2) * W + (2 * (k % (W / 2)) + p % 2)) ∧
  ∀ W H : Nat, W % 2 = 0 → H % 2 = 0 →
    (∀ k p, k < blockCountOf W H → p < 4 → blockMapOf W k p < W * H) ∧
    (∀ n, n < W * H → ∃ k p, k < blockCountOf W H ∧ p < 4 ∧ blockMapOf W k p = n) ∧
    (∀ k p k' p', k < blockCountOf W H → p < 4 → k' < blockCountOf W H → p' < 4 →
      blockMapOf W k p = blockMapOf W k' p' → k = k' ∧ p = p')

/-- R254, R257, R262, R264: COMPRESS of a well-formed raster completes with the trimmed dimensions and one word a block, in
block enumeration order; word k is the packed record of the quantized forward transform of block k's four pixels, taken
from their rows and columns in the raster and each carried through R162 and R163. That every raster fits the buffers is
the model's assumption (log 6). -/
def Obligations.CompressBlocks : Prop :=
  ∀ s : State, s.rasterIn.valid = true → WellFormedRaster s.rasterIn.val →
    let R := s.rasterIn.val
    let W := R.width.toNat - R.width.toNat % 2
    let H := R.height.toNat - R.height.toNat % 2
    let pixel := fun row col : Nat => R.px[row * R.width.toNat + col]?
    let ypp := fun x : Pixel => normalizedToLumaChroma .binary64
      (rgbToNormalized .binary64 x.r.toNat x.g.toNat x.b.toNat R.denom.toNat)
    ∃ t out w h, exec .compress s = .next t ∧
      Succeeded s t { streamOut := some out, rdimW := some w, rdimH := some h } ∧
      w.toNat = W ∧ h.toNat = H ∧ out.length = (W / 2) * (H / 2) ∧
      ∀ br bc, br < H / 2 → bc < W / 2 → ∃ (x0 x1 x2 x3 : Pixel) (v : Word64),
        pixel (2 * br) (2 * bc) = some x0 ∧ pixel (2 * br) (2 * bc + 1) = some x1 ∧
        pixel (2 * br + 1) (2 * bc) = some x2 ∧ pixel (2 * br + 1) (2 * bc + 1) = some x3 ∧
        packRecord (blockQuantize Config.build (blockForward .binary64 (ypp x0) (ypp x1) (ypp x2) (ypp x3))) = .ok v ∧
        out[br * (W / 2) + bc]? = some (v.setWidth 32)

/-- R255, R262, R303: COMPRESS of a raster that is not well-formed is MALFORMED_INPUT: REASON 2 for the pixel count, then 3
for the denominator, then 4 for a channel of any pixel, trimmed or not. That the raster fits the buffer is the model's
assumption (log 6). -/
def Obligations.CompressErrors : Prop :=
  ∀ s : State, s.rasterIn.valid = true →
    let R := s.rasterIn.val
    let countOk := R.n = R.width.toNat * R.height.toNat
    let denomOk := 1 ≤ R.denom.toNat ∧ R.denom.toNat ≤ 65535
    (¬ countOk → ∃ t, exec .compress s = .next t ∧ Failed s t 0x000002F2#32) ∧
    (countOk → ¬ denomOk → ∃ t, exec .compress s = .next t ∧ Failed s t 0x000003F2#32) ∧
    (countOk → denomOk → (∃ x ∈ R.px, R.denom < x.r ∨ R.denom < x.g ∨ R.denom < x.b) →
      ∃ t, exec .compress s = .next t ∧ Failed s t 0x000004F2#32)

/-- R70: a word of COMPRESS depends on its own block only: two well-formed rasters of the same size and denominator whose
block in block row br and block column bc has the same four pixels compress to streams with the same word there. -/
def Obligations.CompressWordsAreLocal : Prop :=
  ∀ s s' t t' : State, exec .compress s = .next t → exec .compress s' = .next t' →
    t.status = 0x00000FF0#32 → t'.status = 0x00000FF0#32 →
    s.rasterIn.val.width = s'.rasterIn.val.width → s.rasterIn.val.height = s'.rasterIn.val.height →
    s.rasterIn.val.denom = s'.rasterIn.val.denom →
    ∀ br bc, br < s.rasterIn.val.height.toNat / 2 → bc < s.rasterIn.val.width.toNat / 2 →
      (∀ row col, row / 2 = br → col / 2 = bc →
        s.rasterIn.val.px[row * s.rasterIn.val.width.toNat + col]? =
          s'.rasterIn.val.px[row * s.rasterIn.val.width.toNat + col]?) →
      t.streamOut.val[br * (s.rasterIn.val.width.toNat / 2) + bc]? =
        t'.streamOut.val[br * (s.rasterIn.val.width.toNat / 2) + bc]?

/-- R251, R253, R258, R263: DECOMPRESS of block_count(W, H) words with even dimensions completes with a W×H raster of denominator 255,
and position p of block k holds what YPBPR_TO_NORM and NORM_TO_RGB's functions give of position p of the inverse
transform of word k's dequantized record. That every stream and raster fits the buffers is the model's assumption (log 6). -/
def Obligations.DecompressPixels : Prop :=
  ∀ s : State, s.streamIn.valid = true → s.dimW.valid = true → s.dimH.valid = true →
    let S := s.streamIn.val
    let W := s.dimW.val.toNat
    let H := s.dimH.val.toNat
    W % 2 = 0 → H % 2 = 0 → S.length = (W / 2) * (H / 2) →
    ∃ t out, exec .decompress s = .next t ∧ Succeeded s t { rasterOut := some out } ∧
      out.width = s.dimW.val ∧ out.height = s.dimH.val ∧ out.denom = 255#32 ∧ out.n = W * H ∧
      ∀ (br bc p : Nat) (w : Word32) (q : Ypp), br < H / 2 → bc < W / 2 → S[br * (W / 2) + bc]? = some w →
        (blockInverse .binary64 (blockDequantize Config.build (unpackWord (w.setWidth 64))))[p]? = some q →
        ∃ x : Pixel, out.px[(2 * br + p / 2) * W + (2 * bc + p % 2)]? = some x ∧
          (x.r.toNat : Int) = min (max (F64.round (F64.mul (lumaChromaToNormalized .binary64 q).r (F64.ofInt 255))) 0) 255 ∧
          (x.g.toNat : Int) = min (max (F64.round (F64.mul (lumaChromaToNormalized .binary64 q).g (F64.ofInt 255))) 0) 255 ∧
          (x.b.toNat : Int) = min (max (F64.round (F64.mul (lumaChromaToNormalized .binary64 q).b (F64.ofInt 255))) 0) 255

/-- R263, R303: DECOMPRESS with an odd dimension is MALFORMED_INPUT with REASON 1, whatever the stream; with even
dimensions and another number of words, REASON 0. That the stream fits the buffer is the model's assumption (log 6). -/
def Obligations.DecompressErrors : Prop :=
  ∀ s : State, s.streamIn.valid = true → s.dimW.valid = true → s.dimH.valid = true →
    let W := s.dimW.val.toNat
    let H := s.dimH.val.toNat
    (¬ (W % 2 = 0 ∧ H % 2 = 0) → ∃ t, exec .decompress s = .next t ∧ Failed s t 0x000001F2#32) ∧
    (W % 2 = 0 → H % 2 = 0 → s.streamIn.val.length ≠ (W / 2) * (H / 2) →
      ∃ t, exec .decompress s = .next t ∧ Failed s t 0x000000F2#32)

/-- R264, with the sizes of R250, R257 and R258: COMPRESS of a well-formed raster completes with the dimensions trim(W, H)
and one word a block; DECOMPRESS of its stream with its dimensions succeeds with a raster of trim(W, H). That every raster
and stream fits the buffers is the model's assumption (log 6). -/
def Obligations.DecompressOfCompress : Prop :=
  ∀ s : State, s.rasterIn.valid = true → WellFormedRaster s.rasterIn.val → ∃ t, exec .compress s = .next t ∧
    t.status = 0x00000FF0#32 ∧
    t.rdimW.val.toNat = s.rasterIn.val.width.toNat - s.rasterIn.val.width.toNat % 2 ∧
    t.rdimH.val.toNat = s.rasterIn.val.height.toNat - s.rasterIn.val.height.toNat % 2 ∧
    t.streamOut.val.length = (t.rdimW.val.toNat / 2) * (t.rdimH.val.toNat / 2) ∧
    ∀ u : State, u.streamIn = t.streamOut → u.dimW = t.rdimW → u.dimH = t.rdimH →
      ∃ v, exec .decompress u = .next v ∧ v.status = 0x00000FF0#32 ∧ v.rasterOut.valid = true ∧
        v.rasterOut.val.width.toNat = s.rasterIn.val.width.toNat - s.rasterIn.val.width.toNat % 2 ∧
        v.rasterOut.val.height.toNat = s.rasterIn.val.height.toNat - s.rasterIn.val.height.toNat % 2 ∧
        v.rasterOut.val.n = v.rasterOut.val.width.toNat * v.rasterOut.val.height.toNat

/-- R66, R67: the wire image of a word buffer has four bytes a word, most significant first, and reads back as the
buffer. -/
def Obligations.WireImageBigEndian : Prop :=
  ∀ s : WordBuffer, (wireImage s).length = 4 * s.length ∧ wordsOfWire (wireImage s) = s ∧
    ∀ (k : Nat) (w : Word32), s[k]? = some w →
      (wireImage s)[4 * k]? = some (w.extractLsb' 24 8) ∧ (wireImage s)[4 * k + 1]? = some (w.extractLsb' 16 8) ∧
      (wireImage s)[4 * k + 2]? = some (w.extractLsb' 8 8) ∧ (wireImage s)[4 * k + 3]? = some (w.extractLsb' 0 8)

end
end

