-- ==== Sys2Proof/Laws/State.lean ====
section
/-! SUPPORT. The fields of State under each state update: one lemma per field and update, so that no proof unfolds a
record update. -/

namespace Sys2Proof.Machine

variable {dimBits : Nat}

/-! ### clearResults (R34) -/

@[simp] theorem State.clearResults_w64 (s : State dimBits) : (s.clearResults).w64 = s.w64 := rfl
@[simp] theorem State.clearResults_v64 (s : State dimBits) : (s.clearResults).v64 = s.v64 := rfl
@[simp] theorem State.clearResults_i (s : State dimBits) : (s.clearResults).i = s.i := rfl
@[simp] theorem State.clearResults_f (s : State dimBits) : (s.clearResults).f = s.f := rfl
@[simp] theorem State.clearResults_dimW (s : State dimBits) : (s.clearResults).dimW = s.dimW := rfl
@[simp] theorem State.clearResults_dimH (s : State dimBits) : (s.clearResults).dimH = s.dimH := rfl
@[simp] theorem State.clearResults_rasterIn (s : State dimBits) : (s.clearResults).rasterIn = s.rasterIn := rfl
@[simp] theorem State.clearResults_streamIn (s : State dimBits) : (s.clearResults).streamIn = s.streamIn := rfl
@[simp] theorem State.clearResults_status (s : State dimBits) : (s.clearResults).status = s.status := rfl
@[simp] theorem State.clearResults_cmd (s : State dimBits) : (s.clearResults).cmd = s.cmd := rfl
@[simp] theorem State.clearResults_script (s : State dimBits) : (s.clearResults).script = s.script := rfl
@[simp] theorem State.clearResults_reads (s : State dimBits) : (s.clearResults).reads = s.reads := rfl
@[simp] theorem State.clearResults_rw64 (s : State dimBits) : (s.clearResults).rw64 = s.rw64.clear := rfl
@[simp] theorem State.clearResults_rb (s : State dimBits) : (s.clearResults).rb = s.rb.clear := rfl
@[simp] theorem State.clearResults_rdimW (s : State dimBits) : (s.clearResults).rdimW = s.rdimW.clear := rfl
@[simp] theorem State.clearResults_rdimH (s : State dimBits) : (s.clearResults).rdimH = s.rdimH.clear := rfl
@[simp] theorem State.clearResults_streamOut (s : State dimBits) : (s.clearResults).streamOut = s.streamOut.clear := rfl
@[simp] theorem State.clearResults_rasterOut (s : State dimBits) : (s.clearResults).rasterOut = s.rasterOut.clear := rfl
@[simp] theorem State.clearResults_ri_get (s : State dimBits) (k : Nat) (h : k < 6) : (s.clearResults).ri[k] = s.ri[k].clear := by
  simp [State.clearResults]
@[simp] theorem State.clearResults_rf_get (s : State dimBits) (k : Nat) (h : k < 12) : (s.clearResults).rf[k] = s.rf[k].clear := by
  simp [State.clearResults]

/-! ### takeError (R302, R304) -/

@[simp] theorem State.takeError_w64 (s : State dimBits) (e : Error) : (s.takeError e).w64 = s.w64 := rfl
@[simp] theorem State.takeError_v64 (s : State dimBits) (e : Error) : (s.takeError e).v64 = s.v64 := rfl
@[simp] theorem State.takeError_i (s : State dimBits) (e : Error) : (s.takeError e).i = s.i := rfl
@[simp] theorem State.takeError_f (s : State dimBits) (e : Error) : (s.takeError e).f = s.f := rfl
@[simp] theorem State.takeError_dimW (s : State dimBits) (e : Error) : (s.takeError e).dimW = s.dimW := rfl
@[simp] theorem State.takeError_dimH (s : State dimBits) (e : Error) : (s.takeError e).dimH = s.dimH := rfl
@[simp] theorem State.takeError_rasterIn (s : State dimBits) (e : Error) : (s.takeError e).rasterIn = s.rasterIn := rfl
@[simp] theorem State.takeError_streamIn (s : State dimBits) (e : Error) : (s.takeError e).streamIn = s.streamIn := rfl
@[simp] theorem State.takeError_rw64 (s : State dimBits) (e : Error) : (s.takeError e).rw64 = s.rw64 := rfl
@[simp] theorem State.takeError_rb (s : State dimBits) (e : Error) : (s.takeError e).rb = s.rb := rfl
@[simp] theorem State.takeError_rdimW (s : State dimBits) (e : Error) : (s.takeError e).rdimW = s.rdimW := rfl
@[simp] theorem State.takeError_rdimH (s : State dimBits) (e : Error) : (s.takeError e).rdimH = s.rdimH := rfl
@[simp] theorem State.takeError_streamOut (s : State dimBits) (e : Error) : (s.takeError e).streamOut = s.streamOut := rfl
@[simp] theorem State.takeError_rasterOut (s : State dimBits) (e : Error) : (s.takeError e).rasterOut = s.rasterOut := rfl
@[simp] theorem State.takeError_ri (s : State dimBits) (e : Error) : (s.takeError e).ri = s.ri := rfl
@[simp] theorem State.takeError_rf (s : State dimBits) (e : Error) : (s.takeError e).rf = s.rf := rfl
@[simp] theorem State.takeError_script (s : State dimBits) (e : Error) : (s.takeError e).script = s.script := rfl
@[simp] theorem State.takeError_reads (s : State dimBits) (e : Error) : (s.takeError e).reads = s.reads := rfl
@[simp] theorem State.takeError_status (s : State dimBits) (e : Error) : (s.takeError e).status = statusWord e := rfl
@[simp] theorem State.takeError_cmd (s : State dimBits) (e : Error) : (s.takeError e).cmd = none := rfl

/-! ### succeed (R34) -/

@[simp] theorem State.succeed_w64 (s : State dimBits) (r : Results dimBits) : (s.succeed r).w64 = s.w64 := rfl
@[simp] theorem State.succeed_v64 (s : State dimBits) (r : Results dimBits) : (s.succeed r).v64 = s.v64 := rfl
@[simp] theorem State.succeed_i (s : State dimBits) (r : Results dimBits) : (s.succeed r).i = s.i := rfl
@[simp] theorem State.succeed_f (s : State dimBits) (r : Results dimBits) : (s.succeed r).f = s.f := rfl
@[simp] theorem State.succeed_dimW (s : State dimBits) (r : Results dimBits) : (s.succeed r).dimW = s.dimW := rfl
@[simp] theorem State.succeed_dimH (s : State dimBits) (r : Results dimBits) : (s.succeed r).dimH = s.dimH := rfl
@[simp] theorem State.succeed_rasterIn (s : State dimBits) (r : Results dimBits) : (s.succeed r).rasterIn = s.rasterIn := rfl
@[simp] theorem State.succeed_streamIn (s : State dimBits) (r : Results dimBits) : (s.succeed r).streamIn = s.streamIn := rfl
@[simp] theorem State.succeed_script (s : State dimBits) (r : Results dimBits) : (s.succeed r).script = s.script := rfl
@[simp] theorem State.succeed_reads (s : State dimBits) (r : Results dimBits) : (s.succeed r).reads = s.reads := rfl
@[simp] theorem State.succeed_status (s : State dimBits) (r : Results dimBits) : (s.succeed r).status = statusOk := rfl
@[simp] theorem State.succeed_cmd (s : State dimBits) (r : Results dimBits) : (s.succeed r).cmd = none := rfl
@[simp] theorem State.succeed_rw64 (s : State dimBits) (r : Results dimBits) : (s.succeed r).rw64 = s.rw64.load r.rw64 := rfl
@[simp] theorem State.succeed_rb (s : State dimBits) (r : Results dimBits) : (s.succeed r).rb = s.rb.load r.rb := rfl
@[simp] theorem State.succeed_rdimW (s : State dimBits) (r : Results dimBits) : (s.succeed r).rdimW = s.rdimW.load r.rdimW := rfl
@[simp] theorem State.succeed_rdimH (s : State dimBits) (r : Results dimBits) : (s.succeed r).rdimH = s.rdimH.load r.rdimH := rfl
@[simp] theorem State.succeed_streamOut (s : State dimBits) (r : Results dimBits) : (s.succeed r).streamOut = s.streamOut.load r.streamOut := rfl
@[simp] theorem State.succeed_rasterOut (s : State dimBits) (r : Results dimBits) : (s.succeed r).rasterOut = s.rasterOut.load r.rasterOut := rfl
@[simp] theorem State.succeed_ri_get (s : State dimBits) (r : Results dimBits) (k : Nat) (h : k < 6) : (s.succeed r).ri[k] = s.ri[k].load r.ri[k]? := by
  simp [State.succeed]
@[simp] theorem State.succeed_rf_get (s : State dimBits) (r : Results dimBits) (k : Nat) (h : k < 12) : (s.succeed r).rf[k] = s.rf[k].load r.rf[k]? := by
  simp [State.succeed]

/-! ### writeInput (R33): a host write changes no result port, STATUS, CMD, program or reading -/

@[simp] theorem State.writeInput_rw64 (s : State dimBits) (v : PortWrite dimBits) : (s.writeInput v).rw64 = s.rw64 := by cases v <;> rfl
@[simp] theorem State.writeInput_rb (s : State dimBits) (v : PortWrite dimBits) : (s.writeInput v).rb = s.rb := by cases v <;> rfl
@[simp] theorem State.writeInput_rdimW (s : State dimBits) (v : PortWrite dimBits) : (s.writeInput v).rdimW = s.rdimW := by cases v <;> rfl
@[simp] theorem State.writeInput_rdimH (s : State dimBits) (v : PortWrite dimBits) : (s.writeInput v).rdimH = s.rdimH := by cases v <;> rfl
@[simp] theorem State.writeInput_streamOut (s : State dimBits) (v : PortWrite dimBits) : (s.writeInput v).streamOut = s.streamOut := by cases v <;> rfl
@[simp] theorem State.writeInput_rasterOut (s : State dimBits) (v : PortWrite dimBits) : (s.writeInput v).rasterOut = s.rasterOut := by cases v <;> rfl
@[simp] theorem State.writeInput_ri (s : State dimBits) (v : PortWrite dimBits) : (s.writeInput v).ri = s.ri := by cases v <;> rfl
@[simp] theorem State.writeInput_rf (s : State dimBits) (v : PortWrite dimBits) : (s.writeInput v).rf = s.rf := by cases v <;> rfl
@[simp] theorem State.writeInput_status (s : State dimBits) (v : PortWrite dimBits) : (s.writeInput v).status = s.status := by cases v <;> rfl
@[simp] theorem State.writeInput_cmd (s : State dimBits) (v : PortWrite dimBits) : (s.writeInput v).cmd = s.cmd := by cases v <;> rfl
@[simp] theorem State.writeInput_script (s : State dimBits) (v : PortWrite dimBits) : (s.writeInput v).script = s.script := by cases v <;> rfl
@[simp] theorem State.writeInput_reads (s : State dimBits) (v : PortWrite dimBits) : (s.writeInput v).reads = s.reads := by cases v <;> rfl

/-! ### resetCore (R39, R340) -/

@[simp] theorem State.resetCore_w64 (s : State dimBits) : (s.resetCore).w64 = (State.resetAt dimBits).w64 := rfl
@[simp] theorem State.resetCore_v64 (s : State dimBits) : (s.resetCore).v64 = (State.resetAt dimBits).v64 := rfl
@[simp] theorem State.resetCore_i (s : State dimBits) : (s.resetCore).i = (State.resetAt dimBits).i := rfl
@[simp] theorem State.resetCore_f (s : State dimBits) : (s.resetCore).f = (State.resetAt dimBits).f := rfl
@[simp] theorem State.resetCore_dimW (s : State dimBits) : (s.resetCore).dimW = (State.resetAt dimBits).dimW := rfl
@[simp] theorem State.resetCore_dimH (s : State dimBits) : (s.resetCore).dimH = (State.resetAt dimBits).dimH := rfl
@[simp] theorem State.resetCore_rasterIn (s : State dimBits) : (s.resetCore).rasterIn = (State.resetAt dimBits).rasterIn := rfl
@[simp] theorem State.resetCore_streamIn (s : State dimBits) : (s.resetCore).streamIn = (State.resetAt dimBits).streamIn := rfl
@[simp] theorem State.resetCore_rw64 (s : State dimBits) : (s.resetCore).rw64 = (State.resetAt dimBits).rw64 := rfl
@[simp] theorem State.resetCore_rb (s : State dimBits) : (s.resetCore).rb = (State.resetAt dimBits).rb := rfl
@[simp] theorem State.resetCore_rdimW (s : State dimBits) : (s.resetCore).rdimW = (State.resetAt dimBits).rdimW := rfl
@[simp] theorem State.resetCore_rdimH (s : State dimBits) : (s.resetCore).rdimH = (State.resetAt dimBits).rdimH := rfl
@[simp] theorem State.resetCore_streamOut (s : State dimBits) : (s.resetCore).streamOut = (State.resetAt dimBits).streamOut := rfl
@[simp] theorem State.resetCore_rasterOut (s : State dimBits) : (s.resetCore).rasterOut = (State.resetAt dimBits).rasterOut := rfl
@[simp] theorem State.resetCore_ri (s : State dimBits) : (s.resetCore).ri = (State.resetAt dimBits).ri := rfl
@[simp] theorem State.resetCore_rf (s : State dimBits) : (s.resetCore).rf = (State.resetAt dimBits).rf := rfl
@[simp] theorem State.resetCore_status (s : State dimBits) : (s.resetCore).status = (State.resetAt dimBits).status := rfl
@[simp] theorem State.resetCore_cmd (s : State dimBits) : (s.resetCore).cmd = (State.resetAt dimBits).cmd := rfl
@[simp] theorem State.resetCore_script (s : State dimBits) : (s.resetCore).script = s.script := rfl
@[simp] theorem State.resetCore_reads (s : State dimBits) : (s.resetCore).reads = s.reads := rfl

/-! ### Ports -/

@[simp] theorem Port.clear_val {α : Type} (p : Port α) : p.clear.val = p.val := rfl
@[simp] theorem Port.clear_valid {α : Type} (p : Port α) : p.clear.valid = false := rfl
@[simp] theorem Port.load_some {α : Type} (p : Port α) (v : α) : p.load (some v) = ⟨v, true⟩ := rfl
@[simp] theorem Port.load_none {α : Type} (p : Port α) : p.load none = p := rfl

end Sys2Proof.Machine
end

