-- ==== Sys2Proof/Laws/Ops.lean ====
section
/-! SUPPORT. What the shared operations can do: the readings of a cleared state, the ends of a command, and the cases
of runCommand. -/

namespace Sys2Proof.Machine

variable {dimBits : Nat}

/-! ### Readings survive the clearing of the result ports -/

@[simp] theorem State.inValid_clearResults (s : State dimBits) (p : InPort) : s.clearResults.inValid p = s.inValid p := by
  cases p <;> rfl

@[simp] theorem State.outValid_clearResults (s : State dimBits) (p : OutPort) : s.clearResults.outValid p = false := by
  cases p <;> simp [State.outValid]

@[simp] theorem State.outValid_takeError (s : State dimBits) (e : Error) (p : OutPort) :
    (s.takeError e).outValid p = s.outValid p := by
  cases p <;> rfl

@[simp] theorem State.int_clearResults (s : State dimBits) (k : Fin 6) : s.clearResults.int k = s.int k := rfl
@[simp] theorem State.flt_clearResults (s : State dimBits) (k : Fin 12) : s.clearResults.flt k = s.flt k := rfl
@[simp] theorem State.vU64_clearResults (s : State dimBits) : s.clearResults.vU64 = s.vU64 := rfl
@[simp] theorem State.vS64_clearResults (s : State dimBits) : s.clearResults.vS64 = s.vS64 := rfl
@[simp] theorem State.dimWNat_clearResults (s : State dimBits) : s.clearResults.dimWNat = s.dimWNat := rfl
@[simp] theorem State.dimHNat_clearResults (s : State dimBits) : s.clearResults.dimHNat = s.dimHNat := rfl
@[simp] theorem State.coeffs_clearResults (s : State dimBits) : s.clearResults.coeffs = s.coeffs := rfl
@[simp] theorem State.record_clearResults (s : State dimBits) : s.clearResults.record = s.record := rfl

/-! ### Calculations

The rewriting lemmas here are not proved by rfl: simp would use such a lemma by unfolding, and the kernel would then
unfold the arithmetic below it. -/

@[simp] theorem check_true (e : Error) : check true e = .ok () := by simp only [check, if_true]
@[simp] theorem check_false (e : Error) : check false e = raise e := by simp only [check, Bool.false_eq_true, if_false]

theorem check_eq_ok {b : Bool} {e : Error} {u : Unit} : check b e = .ok u ↔ b = true := by
  cases b <;> simp [raise]

/-- A calculation in two parts ends well when both do. -/
theorem bind_eq_ok {α β : Type} {x : Calc α} {g : α → Calc β} {b : β} :
    (x >>= g) = .ok b ↔ ∃ a, x = .ok a ∧ g a = .ok b := by
  cases x <;> simp [bind, Except.bind]

@[simp] theorem ok_bind {α β : Type} (a : α) (g : α → Calc β) : ((Except.ok a : Calc α) >>= g) = g a := by
  simp only [bind, Except.bind]

@[simp] theorem error_bind {α β : Type} (e : Stop) (g : α → Calc β) :
    ((Except.error e : Calc α) >>= g) = .error e := by simp only [bind, Except.bind]

@[simp] theorem raise_bind {α β : Type} (e : Error) (g : α → Calc β) : ((raise e : Calc α) >>= g) = raise e := by
  simp only [raise, bind, Except.bind]

@[simp] theorem map_raise {α β : Type} (g : α → β) (e : Error) : g <$> (raise e : Calc α) = raise e := by
  simp only [raise, Functor.map, Except.map]

@[simp] theorem map_ok {α β : Type} (g : α → β) (a : α) : g <$> (Except.ok a : Calc α) = .ok (g a) := by
  simp only [Functor.map, Except.map]

@[simp] theorem pure_calc {α : Type} (a : α) : (pure a : Calc α) = .ok a := by simp only [pure, Except.pure]

/-- A check that passes lets the calculation go on; one that fails ends it. -/
theorem check_bind {α : Type} (b : Bool) (e : Error) (g : Unit → Calc α) :
    (check b e >>= g) = if b then g () else raise e := by
  cases b <;> rfl

/-- The same for a check before the last line. -/
theorem check_map {α : Type} (b : Bool) (e : Error) (g : Unit → α) :
    g <$> check b e = if b then .ok (g ()) else raise e := by
  cases b <;> rfl

theorem bufRead_eq_ok {α : Type} {l : List α} {k : Nat} {x : α} : bufRead l k = .ok x ↔ l[k]? = some x := by
  unfold bufRead
  cases l[k]? <;> simp

/-- `collect` ends well exactly when each element does. -/
theorem collect_eq_ok {α : Type} (g : Nat → Calc α) (k n : Nat) (l : List α) :
    collect g k n = .ok l ↔ l.length = n ∧ ∀ j x, l[j]? = some x → g (k + j) = .ok x := by
  induction n generalizing k l with
  | zero =>
    simp only [collect, Except.ok.injEq, List.length_eq_zero_iff]
    constructor
    · rintro rfl; simp
    · rintro ⟨rfl, -⟩; rfl
  | succ n ih =>
    simp only [collect, bind_eq_ok, pure, Except.pure, Except.ok.injEq, ih]
    constructor
    · rintro ⟨x, hx, xs, ⟨hl, hxs⟩, rfl⟩
      refine ⟨by simp [hl], ?_⟩
      rintro (_ | j) y hy
      · simp_all
      · have := hxs j y (by simpa using hy)
        rwa [Nat.add_assoc, Nat.add_comm 1 j] at this
    · rintro ⟨hl, hall⟩
      obtain _ | ⟨x, xs⟩ := l
      · simp at hl
      · refine ⟨x, hall 0 x (by simp), xs, ⟨by simpa using hl, ?_⟩, rfl⟩
        intro j y hy
        have := hall (j + 1) y (by simpa using hy)
        rwa [Nat.add_assoc, Nat.add_comm 1 j]

/-- `collect` ends well when each element does. -/
theorem collect_ok {α : Type} {g : Nat → Calc α} {k n : Nat} (h : ∀ j, j < n → ∃ x, g (k + j) = .ok x) :
    ∃ l, collect g k n = .ok l := by
  induction n generalizing k with
  | zero => exact ⟨[], rfl⟩
  | succ n ih =>
    obtain ⟨x, hx⟩ := h 0 (by omega)
    obtain ⟨xs, hxs⟩ := ih (k := k + 1) fun j hj => by
      have := h (j + 1) (by omega)
      rwa [← Nat.add_assoc, Nat.add_right_comm] at this
    exact ⟨x :: xs, by simp [collect, hxs, show g k = .ok x from hx]⟩

/-! ### The ends of a command -/

@[simp] theorem statusOk_eq : statusOk = 0x00000FF0#32 := by decide

theorem SameInputs.refl (s : State dimBits) : SameInputs s s := ⟨rfl, rfl, rfl, rfl, rfl, rfl, rfl, rfl⟩

theorem sameInputs_succeed (s : State dimBits) (r : Results dimBits) : SameInputs s (s.clearResults.succeed r) :=
  ⟨rfl, rfl, rfl, rfl, rfl, rfl, rfl, rfl⟩

theorem sameInputs_takeError (s : State dimBits) (e : Error) : SameInputs s (s.clearResults.takeError e) :=
  ⟨rfl, rfl, rfl, rfl, rfl, rfl, rfl, rfl⟩

/-- A cleared port after a write holds exactly what was written. -/
theorem Port.holds_load {α : Type} (p : Port α) (v : Option α) : (p.clear.load v).Holds v := by
  cases v <;> rfl

/-- The successful end of a command, from the state it was issued in (R34). -/
theorem succeeded_succeed (s : State dimBits) (r : Results dimBits) : Succeeded s (s.clearResults.succeed r) r where
  status := by simp
  idle := rfl
  inputs := sameInputs_succeed s r
  script := rfl
  reads := rfl
  rw64 := Port.holds_load _ _
  rb := Port.holds_load _ _
  ri k := by simpa using Port.holds_load _ _
  rf k := by simpa using Port.holds_load _ _
  rdimW := Port.holds_load _ _
  rdimH := Port.holds_load _ _
  streamOut := Port.holds_load _ _
  rasterOut := Port.holds_load _ _

/-- The error end of a command, from the state it was issued in (R304). -/
theorem failed_takeError (s : State dimBits) (e : Error) : Failed s (s.clearResults.takeError e) (statusWord e) where
  status := rfl
  idle := rfl
  inputs := sameInputs_takeError s e
  script := rfl
  reads := rfl
  noResult p := by simp

/-! ### runCommand -/

theorem runCommand_eq {reads : List InPort} {body : State dimBits → Calc (Results dimBits)} {s : State dimBits} (h : reads.all s.inValid = true) :
    runCommand reads body s = s.clearResults.finish (body s.clearResults) := by
  have : reads.all s.clearResults.inValid = true := by simpa using h
  simp [runCommand, this]

/-- A command whose operands are written and whose calculation ends well succeeds. -/
theorem runCommand_succeeds {reads : List InPort} {body : State dimBits → Calc (Results dimBits)} {s : State dimBits} {r : Results dimBits}
    (h : reads.all s.inValid = true) (hb : body s.clearResults = .ok r) :
    ∃ t, runCommand reads body s = .next t ∧ Succeeded s t r :=
  ⟨_, by rw [runCommand_eq h, hb]; rfl, succeeded_succeed s r⟩

/-- A command whose operands are written and whose calculation raises an error fails with its STATUS. -/
theorem runCommand_fails {reads : List InPort} {body : State dimBits → Calc (Results dimBits)} {s : State dimBits} {e : Error}
    (h : reads.all s.inValid = true) (hb : body s.clearResults = raise e) :
    ∃ t, runCommand reads body s = .next t ∧ Failed s t (statusWord e) :=
  ⟨_, by rw [runCommand_eq h, hb]; rfl, failed_takeError s e⟩

/-- A command with an unwritten operand faults (R36). -/
theorem runCommand_unwritten {reads : List InPort} {body : State dimBits → Calc (Results dimBits)} {s : State dimBits}
    (h : reads.all s.inValid = false) : runCommand reads body s = .fault .unwrittenOperand := by
  have : reads.all s.clearResults.inValid = false := by simpa using h
  simp [runCommand, this]

/-- Everything a command that answers a next state can have done. -/
theorem runCommand_next {reads : List InPort} {body : State dimBits → Calc (Results dimBits)} {s t : State dimBits}
    (h : runCommand reads body s = .next t) :
    reads.all s.inValid = true ∧
      ((∃ r, body s.clearResults = .ok r ∧ t = s.clearResults.succeed r) ∨
       (∃ e, body s.clearResults = raise e ∧ t = s.clearResults.takeError e)) := by
  by_cases hv : reads.all s.inValid = true
  · refine ⟨hv, ?_⟩
    rw [runCommand_eq hv] at h
    rcases hb : body s.clearResults with (e | f | q) | r <;> simp [hb, State.finish] at h
    · exact .inr ⟨e, rfl, h.symm⟩
    · exact .inl ⟨r, rfl, h.symm⟩
  · rw [runCommand_unwritten (by simpa using hv)] at h
    simp at h

end Sys2Proof.Machine
end

