-- ==== Sys2Proof/Laws/Bitfield.lean ====
section
/-! SUPPORT. The bit-field operations bit by bit: the fit predicates as inequalities, the field mask, and a replaced
field. -/

namespace Sys2Proof.Machine

/-- `fits_unsigned` of a u64 as R130 writes it. -/
theorem fitsUnsigned_natCast (n width : Nat) : fitsUnsigned (n : Int) width = decide (n < 2 ^ width) := by
  rw [fitsUnsigned, Bool.eq_iff_iff, decide_eq_true_iff, decide_eq_true_iff]
  constructor
  · rintro ⟨-, h⟩; exact_mod_cast h
  · intro h; exact ⟨by omega, by exact_mod_cast h⟩

/-- `fits_signed` as R131 writes it. -/
theorem fitsSigned_iff (n : Int) (width : Nat) : fitsSigned n width = true ↔ FitsS n width := by
  unfold fitsSigned FitsS
  split <;> simp

theorem fieldMask_bit (width lsb j : Nat) (hj : j < 64) :
    (fieldMask width lsb).getLsbD j = decide (lsb ≤ j ∧ j < lsb + width) := by
  simp only [fieldMask, BitVec.getLsbD_ofNat, Nat.testBit_shiftLeft, Nat.testBit_two_pow_sub_one]
  rw [Bool.eq_iff_iff]
  simp
  omega

/-- A replaced field (R135): the value's low bits inside it, the word's bits outside. -/
theorem replaceField_bit (word : Word64) (width lsb : Nat) (v : Int) (j : Nat) (hj : j < 64) :
    (replaceField word width lsb v).getLsbD j =
      if lsb ≤ j ∧ j < lsb + width then (v % ((2 ^ width : Nat) : Int)).toNat.testBit (j - lsb)
      else word.getLsbD j := by
  have hlt : (v % ((2 ^ width : Nat) : Int)).toNat < 2 ^ width := by
    have h1 := Int.emod_lt_of_pos v (show (0 : Int) < ((2 ^ width : Nat) : Int) by positivity)
    have h2 := Int.emod_nonneg v (show ((2 ^ width : Nat) : Int) ≠ 0 by positivity)
    omega
  simp only [replaceField, BitVec.getLsbD_or, BitVec.getLsbD_and, BitVec.getLsbD_not, fieldMask_bit _ _ _ hj,
    BitVec.getLsbD_ofNat, Nat.testBit_shiftLeft, hj]
  split
  · simp_all
  · rename_i h
    by_cases hl : lsb ≤ j
    · have : (v % ((2 ^ width : Nat) : Int)).toNat.testBit (j - lsb) = false :=
        Nat.testBit_lt_two_pow (lt_of_lt_of_le hlt (Nat.pow_le_pow_right (by norm_num) (by omega)))
      simp_all
    · simp [hl]

/-- The low bits of a u64 are its word's bits. -/
theorem emod_testBit_toNat (x : Word64) (width j : Nat) (h : j < width) :
    (((x.toNat : Int) % ((2 ^ width : Nat) : Int)).toNat.testBit j) = x.getLsbD j := by
  rw [← Int.natCast_mod, Int.toNat_natCast, Nat.testBit_mod_two_pow]
  simp [h, BitVec.getLsbD]

/-- The low bits of an s64 are its word's bits. -/
theorem emod_testBit_toInt (x : Word64) (width j : Nat) (h : j < width) (hw : width ≤ 64) :
    ((x.toInt % ((2 ^ width : Nat) : Int)).toNat.testBit j) = x.getLsbD j := by
  rw [← emod_testBit_toNat x width j h]
  congr 2
  rw [BitVec.toInt_eq_toNat_cond]
  split
  · rfl
  · have : ((2 ^ 64 : Nat) : Int) = ((2 ^ width : Nat) : Int) * ((2 ^ (64 - width) : Nat) : Int) := by
      rw [← Nat.cast_mul, ← pow_add, show width + (64 - width) = 64 by omega]
    rw [this, Int.sub_mul_emod_self_left]

end Sys2Proof.Machine
end

