-- ==== Sys2Proof/Laws/Float.lean ====
section
/-! SUPPORT. The exact value of a binary64 pattern, comparisons of exact values as comparisons of whole numbers, and the
value of a rounded quotient. -/

namespace Sys2Proof

/-! ### Exact values -/

theorem F64.one_pos : 0 < F64.one := by unfold F64.one; positivity

theorem F64.one_cast_pos : (0 : ℚ) < (F64.one : ℚ) := by exact_mod_cast F64.one_pos

@[simp] theorem F64.val_natAbs (x : F64) : x.val.natAbs = x.mag := by
  unfold F64.val
  split <;> simp

theorem F64.abs_real (x : F64) : |x.real| = (x.mag : ℚ) / (F64.one : ℚ) := by
  rw [F64.real, abs_div, abs_of_pos F64.one_cast_pos, ← Int.cast_abs, Int.abs_eq_natAbs, F64.val_natAbs]
  simp

theorem F64.real_le_real {x y : F64} : x.real ≤ y.real ↔ x.val ≤ y.val := by
  rw [F64.real, F64.real, div_le_div_iff_of_pos_right F64.one_cast_pos]
  exact_mod_cast Iff.rfl

theorem F64.real_lt_real {x y : F64} : x.real < y.real ↔ x.val < y.val := by
  rw [← not_le, ← not_le, F64.real_le_real]

/-- The exact distance of two values, in units of 2^-1074. -/
theorem F64.abs_real_sub (x y : F64) : |x.real - y.real| = ((x.val - y.val).natAbs : ℚ) / (F64.one : ℚ) := by
  rw [F64.real, F64.real, ← sub_div, abs_div, abs_of_pos F64.one_cast_pos, ← Int.cast_sub, ← Int.cast_abs,
    Int.abs_eq_natAbs]
  simp

/-! ### Negation -/

/-- Negation flips the sign bit and keeps the magnitude pattern. -/
theorem F64.neg_bits_toNat (x : F64) :
    x.neg.bits.toNat / 2 ^ 63 = 1 - x.bits.toNat / 2 ^ 63 ∧ x.neg.bits.toNat % 2 ^ 63 = x.bits.toNat % 2 ^ 63 := by
  have h : x.neg.bits.toNat = x.bits.toNat ^^^ 2 ^ 63 := by rw [F64.neg, BitVec.toNat_xor]; rfl
  have hb := x.bits.isLt
  rw [h]
  constructor
  · rw [Nat.xor_div_two_pow]
    rcases (by omega : x.bits.toNat / 2 ^ 63 = 0 ∨ x.bits.toNat / 2 ^ 63 = 1) with e | e <;> rw [e] <;> decide
  · rw [Nat.xor_mod_two_pow, Nat.mod_self, Nat.xor_zero]

theorem F64.sign_eq (x : F64) : x.sign = decide (x.bits.toNat / 2 ^ 63 = 1) := by
  have hb := x.bits.isLt
  rw [F64.sign, BitVec.msb_eq_decide, decide_eq_decide]
  omega

@[simp] theorem F64.sign_neg (x : F64) : x.neg.sign = !x.sign := by
  have h := x.neg_bits_toNat.1
  have hb := x.bits.isLt
  rw [F64.sign_eq, F64.sign_eq, h, ← decide_not, decide_eq_decide]
  omega

theorem F64.expField_neg (x : F64) : x.neg.expField = x.expField := by
  obtain ⟨-, h⟩ := x.neg_bits_toNat
  rw [F64.expField, F64.expField]
  omega

theorem F64.fracField_neg (x : F64) : x.neg.fracField = x.fracField := by
  obtain ⟨-, h⟩ := x.neg_bits_toNat
  rw [F64.fracField, F64.fracField]
  omega

@[simp] theorem F64.isFinite_neg (x : F64) : x.neg.isFinite = x.isFinite := by
  rw [F64.isFinite, F64.isFinite, F64.expField_neg]

@[simp] theorem F64.mag_neg (x : F64) : x.neg.mag = x.mag := by
  rw [F64.mag, F64.mag, F64.expField_neg, F64.fracField_neg]

@[simp] theorem F64.val_neg (x : F64) : x.neg.val = -x.val := by
  rw [F64.val, F64.val, F64.sign_neg, F64.mag_neg]
  cases x.sign
  · simp only [Bool.not_false, if_true, Bool.false_eq_true, if_false]
  · simp only [Bool.not_true, if_true, Bool.false_eq_true, if_false, neg_neg]

@[simp] theorem F64.real_neg (x : F64) : x.neg.real = -x.real := by
  rw [F64.real, F64.real, F64.val_neg, Int.cast_neg, neg_div]
/-! ### The operations on finite values -/

theorem F64.isNaN_of_finite {x : F64} (h : x.isFinite = true) : x.isNaN = false := by
  simp_all [F64.isFinite, F64.isNaN]

theorem F64.isInf_of_finite {x : F64} (h : x.isFinite = true) : x.isInf = false := by
  simp_all [F64.isFinite, F64.isInf]

/-- Addition of finite values: one rounding of the exact sum, or the zero of R12. -/
theorem F64.add_of_finite {x y : F64} (hx : x.isFinite = true) (hy : y.isFinite = true) :
    F64.add x y = if x.val + y.val = 0 then F64.zero (x.sign && y.sign)
      else F64.rounded (decide (x.val + y.val < 0)) (x.val + y.val).natAbs 1 := by
  simp only [F64.add, F64.isNaN_of_finite hx, F64.isNaN_of_finite hy, F64.isInf_of_finite hx, F64.isInf_of_finite hy,
    Bool.or_false, Bool.false_eq_true, if_false]

/-- Multiplication of finite values: one rounding of the exact product. -/
theorem F64.mul_of_finite {x y : F64} (hx : x.isFinite = true) (hy : y.isFinite = true) :
    F64.mul x y = F64.rounded (x.sign != y.sign) (x.mag * y.mag) F64.one := by
  simp only [F64.mul, F64.isNaN_of_finite hx, F64.isNaN_of_finite hy, F64.isInf_of_finite hx, F64.isInf_of_finite hy,
    Bool.or_false, Bool.false_eq_true, if_false]

/-- Division of finite values by one other than zero: one rounding of the exact quotient. -/
theorem F64.div_of_finite {x y : F64} (hx : x.isFinite = true) (hy : y.isFinite = true) (h0 : y.mag ≠ 0) :
    F64.div x y = F64.rounded (x.sign != y.sign) (x.mag * F64.one) y.mag := by
  simp only [F64.div, F64.isNaN_of_finite hx, F64.isNaN_of_finite hy, F64.isInf_of_finite hx, F64.isInf_of_finite hy,
    Bool.or_false, Bool.false_eq_true, if_false, h0]

/-! ### Patterns -/

/-- The magnitude that a 63-bit pattern stands for. -/
def F64.patternMag (p : Nat) : Nat :=
  if p / 2 ^ 52 = 0 then p % 2 ^ 52 else (p % 2 ^ 52 + 2 ^ 52) * 2 ^ (p / 2 ^ 52 - 1)

theorem F64.ofPattern_toNat (neg : Bool) {p : Nat} (h : p < 2 ^ 63) :
    (F64.ofPattern neg p).bits.toNat = (if neg then 2 ^ 63 else 0) + p := by
  cases neg <;> (simp [F64.ofPattern]; omega)

theorem F64.expField_ofPattern (neg : Bool) {p : Nat} (h : p < 2 ^ 63) :
    (F64.ofPattern neg p).expField = p / 2 ^ 52 := by
  rw [F64.expField, F64.ofPattern_toNat neg h]
  split <;> omega

theorem F64.fracField_ofPattern (neg : Bool) {p : Nat} (h : p < 2 ^ 63) :
    (F64.ofPattern neg p).fracField = p % 2 ^ 52 := by
  rw [F64.fracField, F64.ofPattern_toNat neg h]
  split <;> omega

theorem F64.sign_ofPattern (neg : Bool) {p : Nat} (h : p < 2 ^ 63) : (F64.ofPattern neg p).sign = neg := by
  rw [F64.sign, BitVec.msb_eq_decide, F64.ofPattern_toNat neg h]
  cases neg
  · simpa using h
  · simp

theorem F64.mag_ofPattern (neg : Bool) {p : Nat} (h : p < 2 ^ 63) :
    (F64.ofPattern neg p).mag = F64.patternMag p := by
  rw [F64.mag, F64.expField_ofPattern neg h, F64.fracField_ofPattern neg h, F64.patternMag]

theorem F64.isFinite_ofPattern (neg : Bool) {p : Nat} (h : p < 2 ^ 63) :
    (F64.ofPattern neg p).isFinite = true ↔ p < F64.infPattern ∨ 2048 * 2 ^ 52 ≤ p := by
  simp only [F64.isFinite, F64.expField_ofPattern neg h, F64.infPattern, bne_iff_ne]
  omega

/-! ### Rounding -/

theorem F64.roundPattern_le (n d : Nat) : F64.roundPattern n d ≤ F64.infPattern := by
  unfold F64.roundPattern
  dsimp only
  split <;> omega

theorem F64.infPattern_lt : F64.infPattern < 2 ^ 63 := by decide

theorem F64.roundPattern_lt (n d : Nat) : F64.roundPattern n d < 2 ^ 63 :=
  lt_of_le_of_lt (F64.roundPattern_le n d) F64.infPattern_lt

/-- A rounded value is finite exactly when its pattern is below infinity's. -/
theorem F64.isFinite_rounded (neg : Bool) (n d : Nat) :
    (F64.rounded neg n d).isFinite = true ↔ F64.roundPattern n d < F64.infPattern := by
  rw [F64.rounded, F64.isFinite_ofPattern neg (F64.roundPattern_lt n d)]
  have := F64.roundPattern_lt n d
  omega

@[simp] theorem F64.sign_rounded (neg : Bool) (n d : Nat) : (F64.rounded neg n d).sign = neg :=
  F64.sign_ofPattern neg (F64.roundPattern_lt n d)

/-- A rounded value that is not finite is an infinity. -/
theorem F64.isInf_rounded (neg : Bool) (n d : Nat) (h : (F64.rounded neg n d).isFinite = false) :
    (F64.rounded neg n d).isInf = true := by
  have hp : F64.roundPattern n d = F64.infPattern := by
    have h1 := F64.roundPattern_le n d
    have h2 : ¬ F64.roundPattern n d < F64.infPattern := fun hlt => by
      rw [(F64.isFinite_rounded neg n d).2 hlt] at h
      exact absurd h (by decide)
    omega
  rw [F64.rounded, hp, F64.isInf, F64.expField_ofPattern neg F64.infPattern_lt,
    F64.fracField_ofPattern neg F64.infPattern_lt]
  decide

theorem F64.mag_rounded (neg : Bool) (n d : Nat) :
    (F64.rounded neg n d).mag = F64.patternMag (F64.roundPattern n d) :=
  F64.mag_ofPattern neg (F64.roundPattern_lt n d)

/-- A quotient rounded to an integer is off by at most one half. -/
theorem F64.roundQuotient_near (n d : Nat) (hd : 0 < d) :
    2 * n ≤ 2 * d * F64.roundQuotient n d + d ∧ 2 * d * F64.roundQuotient n d ≤ 2 * n + d := by
  have h1 := Nat.div_add_mod n d
  have h2 := Nat.mod_lt n hd
  unfold F64.roundQuotient
  dsimp only
  have e : 2 * d * (n / d) = 2 * (d * (n / d)) := by ring
  split
  · omega
  · split
    · have : 2 * d * (n / d + 1) = 2 * (d * (n / d)) + 2 * d := by ring
      omega
    · rcases Nat.mod_two_eq_zero_or_one (n / d) with hm | hm <;> rw [hm]
      · simp only [Nat.add_zero]; omega
      · have : 2 * d * (n / d + 1) = 2 * (d * (n / d)) + 2 * d := by ring
        omega

/-! ### NUMERIC -/

theorem Numeric.one_cast_pos (nu : Numeric) : (0 : ℚ) < (nu.one : ℚ) := by exact_mod_cast nu.one_pos

/-- Exact values compare as their whole numbers of units. -/
theorem Numeric.real_lt_real (nu : Numeric) {x y : F64} : nu.real x < nu.real y ↔ nu.lt x y = true := by
  rw [Numeric.real, Numeric.real, Numeric.lt, decide_eq_true_iff, div_lt_div_iff_of_pos_right nu.one_cast_pos]
  exact_mod_cast Iff.rfl

/-- `within` as R160 and R202 write it. -/
theorem Numeric.within_iff (nu : Numeric) {n : Nat} {x : F64} : nu.within n x = true ↔ |nu.real x| ≤ n := by
  rw [Numeric.within, decide_eq_true_iff, Numeric.real, abs_div, abs_of_pos nu.one_cast_pos, div_le_iff₀ nu.one_cast_pos,
    ← Int.cast_abs, Int.abs_eq_natAbs]
  exact_mod_cast Iff.rfl

theorem Numeric.real_binary64 (x : F64) : Numeric.binary64.real x = x.real := rfl

/-! ### Domain and configuration -/

namespace Machine

variable {dimBits : Nat}

theorem inDomain_iff (x : F64) : inDomain Config.build x = true ↔ InDomain x := by
  rw [inDomain, Bool.and_eq_true, Numeric.within_iff, InDomain]
  have h : ((Config.build.fDomainMax : Nat) : ℚ) = 2 ^ 20 := by norm_num [Config.build, fDomainMaxDefault]
  rw [h]
  exact Iff.rfl

/-- Under the build, `check_f` on a list of ports passes exactly when each of them is in the domain. -/
theorem checkFloats_build (s : State dimBits) (ks : List (Fin 12)) :
    checkFloats Config.build s ks = check (ks.all fun k => inDomain Config.build (s.flt k)) errNumeric := rfl

/-- `check_f` passes when each port is in the domain (R160). -/
theorem checkFloats_ok {s : State dimBits} {ks : List (Fin 12)} (h : ∀ k ∈ ks, InDomain (s.flt k)) :
    checkFloats Config.build s ks = .ok () := by
  rw [checkFloats_build, List.all_eq_true.2 fun k hk => (inDomain_iff _).2 (h k hk)]
  rfl

/-- `check_f` raises NUMERIC_DOMAIN when a port is not in the domain (R160). -/
theorem checkFloats_fails {s : State dimBits} {ks : List (Fin 12)} (h : ¬ ∀ k ∈ ks, InDomain (s.flt k)) :
    checkFloats Config.build s ks = raise errNumeric := by
  have : (ks.all fun k => inDomain Config.build (s.flt k)) = false := by
    rw [← Bool.not_eq_true, List.all_eq_true]
    exact fun hall => h fun k hk => (inDomain_iff _).1 (hall k hk)
  rw [checkFloats_build, this]
  rfl

/-- The build's configuration conforms (R342), whatever its codebook. -/
theorem build_conforms : Config.build.conforms = true := by
  simp only [Params.conforms, Bool.and_eq_true]
  exact ⟨⟨⟨⟨Config.chromaCodebook.conforming, by decide⟩, by decide⟩, by decide⟩, by decide⟩

end Machine

end Sys2Proof
end

