-- ==== Sys2Proof/Laws/Step.lean ====
section
/-! SUPPORT. What a step can do, and exec as the command set under the build's configuration. -/

namespace Sys2Proof.Machine

variable {dimBits : Nat}

/-- exec is the command set under the build's configuration (R9). -/
theorem execUnder_build : execUnder Config.build = exec := by
  funext i s
  cases i <;> rfl

/-- The build's steps are those of any conforming configuration's form (R342). -/
theorem stepUnder_build (s : State) : stepUnder Config.build s = step s := by
  rw [stepUnder, if_pos build_conforms, execUnder_build]
  rfl

/-- With no command in progress, a step performs the host's next action. -/
theorem step_of_action {s : State} {a : HostAction} {rest : List HostAction} (hc : s.cmd = none)
    (hs : s.script = a :: rest) : step s = performBy exec a { s with script := rest } := by
  unfold step stepBy
  split <;> simp_all

/-- With no command in progress and no action left, the core is idle (R314). -/
theorem step_idle {s : State} (hc : s.cmd = none) (hs : s.script = []) : step s = .next s := by
  unfold step stepBy
  split <;> simp_all

/-- A command in progress runs to completion. -/
theorem step_of_command {s : State} {w : Word32} (hc : s.cmd = some w) : step s = issueBy exec w s := by
  unfold step stepBy
  split <;> simp_all

/-- What issuing a command word can do (R93, R302). -/
theorem issueBy_next {run : Instr → State dimBits → Out dimBits} {w : Word32} {s t : State dimBits} (h : issueBy run w s = .next t) :
    (∃ i, decode w = .ok i ∧ run i s = .next t) ∨
    ((∃ e, decode w = .error e) ∧ t = s.clearResults.takeError errIllegal) := by
  unfold issueBy illegalCommand at h
  split at h
  · exact .inl ⟨_, ‹_›, h⟩
  · simp only [Host.Outcome.next.injEq] at h
    exact .inr ⟨⟨_, ‹_›⟩, h.symm⟩

/-- Everything a host action that answers a next state can have done. -/
theorem performBy_next {run : Instr → State dimBits → Out dimBits} {a : HostAction dimBits} {s t : State dimBits} (h : performBy run a s = .next t) :
    (∃ v, a = .write v ∧ t = s.writeInput v) ∨
    (∃ v, a = .writeIgnored v ∧ t = s) ∨
    (∃ w, a = .command w ∧ issueBy run w { s with cmd := some w } = .next t) ∨
    (a = .read .status ∧ t = { s with reads := s.reads ++ [.status s.status] }) ∨
    (∃ p, a = .read (.port p) ∧ s.outValid p = true ∧ t = { s with reads := s.reads ++ [s.outReading p] }) ∨
    (a = .reset ∧ t = s.resetCore) := by
  cases a with
  | write v => exact .inl ⟨v, rfl, by simpa [performBy] using h.symm⟩
  | writeIgnored v => exact .inr (.inl ⟨v, rfl, by simpa [performBy, State.writeReadOnly] using h.symm⟩)
  | command w => exact .inr (.inr (.inl ⟨w, rfl, h⟩))
  | read r =>
    cases r with
    | status => exact .inr (.inr (.inr (.inl ⟨rfl, by simpa [performBy, hostRead] using h.symm⟩)))
    | cmd => simp [performBy, hostRead] at h
    | port p =>
      simp only [performBy, hostRead] at h
      split at h
      · simp only [Host.Outcome.next.injEq] at h
        exact .inr (.inr (.inr (.inr (.inl ⟨p, rfl, ‹_›, h.symm⟩))))
      · simp at h
  | reset => exact .inr (.inr (.inr (.inr (.inr ⟨rfl, by simpa [performBy] using h.symm⟩))))

/-- Everything a step with no command in progress that answers a next state can have done: the core was idle, or the
host's next action was performed. -/
theorem step_next {s t : State} (hc : s.cmd = none) (h : step s = .next t) :
    (s.script = [] ∧ t = s) ∨
    ∃ a rest, s.script = a :: rest ∧ performBy exec a { s with script := rest } = .next t := by
  rcases hs : s.script with _ | ⟨a, rest⟩
  · rw [step_idle hc hs] at h
    exact .inl ⟨rfl, by simpa using h.symm⟩
  · rw [step_of_action hc hs] at h
    exact .inr ⟨a, rest, rfl, h⟩

/-! ### Valid bits and readings see only their ports -/

@[simp] theorem outValid_script (s : State dimBits) (l : List (HostAction dimBits)) (p : OutPort) :
    State.outValid { s with script := l } p = s.outValid p := by cases p <;> rfl

@[simp] theorem outReading_script (s : State dimBits) (l : List (HostAction dimBits)) (p : OutPort) :
    State.outReading { s with script := l } p = s.outReading p := by cases p <;> rfl

@[simp] theorem outValid_reads (s : State dimBits) (l : List (Reading dimBits)) (p : OutPort) :
    State.outValid { s with reads := l } p = s.outValid p := by cases p <;> rfl

@[simp] theorem outValid_writeInput (s : State dimBits) (v : PortWrite dimBits) (p : OutPort) :
    (s.writeInput v).outValid p = s.outValid p := by cases p <;> cases v <;> rfl

@[simp] theorem outValid_reset (p : OutPort) : (State.resetAt dimBits).outValid p = false := by
  cases p <;> simp [State.outValid, State.resetAt, Port.empty]

@[simp] theorem inValid_reset (p : InPort) : (State.resetAt dimBits).inValid p = false := by
  cases p <;> simp [State.inValid, State.resetAt, Port.empty]

@[simp] theorem outValid_resetCore (s : State dimBits) (p : OutPort) : s.resetCore.outValid p = false := by
  cases p <;> simp [State.outValid, State.resetCore, State.resetAt, Port.empty]

@[simp] theorem inValid_resetCore (s : State dimBits) (p : InPort) : s.resetCore.inValid p = false := by
  cases p <;> simp [State.inValid, State.resetCore, State.resetAt, Port.empty]

/-! ### Finite float results (R160) see only the result ports RF -/

@[simp] theorem floatResultsFinite_script (s : State dimBits) (l : List (HostAction dimBits)) :
    FloatResultsFinite { s with script := l } ↔ FloatResultsFinite s := Iff.rfl

@[simp] theorem floatResultsFinite_reads (s : State dimBits) (l : List (Reading dimBits)) :
    FloatResultsFinite { s with reads := l } ↔ FloatResultsFinite s := Iff.rfl

@[simp] theorem floatResultsFinite_writeInput (s : State dimBits) (v : PortWrite dimBits) :
    FloatResultsFinite (s.writeInput v) ↔ FloatResultsFinite s := by cases v <;> exact Iff.rfl

@[simp] theorem floatResultsFinite_takeError (s : State dimBits) (e : Error) :
    FloatResultsFinite (s.takeError e) ↔ FloatResultsFinite s := Iff.rfl

/-- A state with no valid result port shows no float result at all. -/
theorem floatResultsFinite_of_invalid {s : State dimBits} (h : ∀ p : OutPort, s.outValid p = false) :
    FloatResultsFinite s := fun k hk => (Bool.false_ne_true ((h (.rf k)).symm.trans hk)).elim

@[simp] theorem floatResultsFinite_clearResults (s : State dimBits) : FloatResultsFinite s.clearResults :=
  floatResultsFinite_of_invalid fun p => by simp

@[simp] theorem floatResultsFinite_resetCore (s : State dimBits) : FloatResultsFinite s.resetCore :=
  floatResultsFinite_of_invalid fun p => by simp

end Sys2Proof.Machine
end

