-- ==== Sys2Proof/Laws/Commands.lean ====
section
/-! SUPPORT. exec as one shape: the operand ports and the calculation of each command. Statements about a command come
down to statements about its calculation. -/

namespace Sys2Proof.Machine

variable {dimBits : Nat}

/-- Every command is its operand ports and its calculation (R302). -/
theorem exec_eq (i : Instr) (s : State) :
    exec i s = runCommand (operandPorts i) (commandCalc Config.build i) s := by
  rw [← execUnder_build]
  rfl

/-- Clearing the result ports changes no calculation: none reads a result port (R346). -/
@[simp] theorem commandCalc_clearResults (p : Params) (i : Instr) (s : State dimBits) :
    commandCalc p i s.clearResults = commandCalc p i s := by
  cases i <;> rfl

/-- A command with its operands written whose calculation ends well succeeds with those results. -/
theorem exec_succeeds {i : Instr} {s : State} {r : Results} (h : ∀ p ∈ operandPorts i, s.inValid p = true)
    (hc : commandCalc Config.build i s = .ok r) : ∃ t, exec i s = .next t ∧ Succeeded s t r := by
  rw [exec_eq]
  exact runCommand_succeeds (List.all_eq_true.2 h) (by simpa using hc)

/-- A command with its operands written whose calculation raises an error fails with its STATUS. -/
theorem exec_fails {i : Instr} {s : State} {e : Error} (h : ∀ p ∈ operandPorts i, s.inValid p = true)
    (hc : commandCalc Config.build i s = raise e) : ∃ t, exec i s = .next t ∧ Failed s t (statusWord e) := by
  rw [exec_eq]
  exact runCommand_fails (List.all_eq_true.2 h) (by simpa using hc)

/-- A command with an unwritten operand faults (R36). -/
theorem exec_unwritten {i : Instr} {s : State} (h : ∃ p ∈ operandPorts i, s.inValid p = false) :
    exec i s = .fault .unwrittenOperand := by
  rw [exec_eq]
  apply runCommand_unwritten
  rw [← Bool.not_eq_true, List.all_eq_true]
  obtain ⟨p, hp, hf⟩ := h
  exact fun hall => by simp [hall p hp] at hf

/-- Everything a command that answers a next state can have done. -/
theorem exec_next {i : Instr} {s t : State} (h : exec i s = .next t) :
    (∀ p ∈ operandPorts i, s.inValid p = true) ∧
      ((∃ r, commandCalc Config.build i s = .ok r ∧ t = s.clearResults.succeed r) ∨
       (∃ e, commandCalc Config.build i s = raise e ∧ t = s.clearResults.takeError e)) := by
  rw [exec_eq] at h
  obtain ⟨hv, hr⟩ := runCommand_next h
  exact ⟨List.all_eq_true.1 hv, by simpa using hr⟩

end Sys2Proof.Machine
end

