-- ==== Sys2Proof/Laws/Decode.lean ====
section
/-! SUPPORT. The fields of a composed command word, and what decoding each field tuple gives. -/

namespace Sys2Proof

theorem encodeFields_toNat {opc width lsb : Nat} (ho : opc < 256) (hw : width < 128) (hl : lsb < 128) :
    (encodeFields opc width lsb).toNat = opc + width * 2 ^ 8 + lsb * 2 ^ 15 := by
  have h1 : opc ||| width <<< 8 = opc + width * 2 ^ 8 := by
    rw [Nat.or_comm, ← Nat.shiftLeft_add_eq_or_of_lt (by omega : opc < 2 ^ 8), Nat.shiftLeft_eq]; omega
  have h2 : (opc + width * 2 ^ 8) ||| lsb <<< 15 = opc + width * 2 ^ 8 + lsb * 2 ^ 15 := by
    rw [Nat.or_comm, ← Nat.shiftLeft_add_eq_or_of_lt (by omega : opc + width * 2 ^ 8 < 2 ^ 15), Nat.shiftLeft_eq]; omega
  rw [encodeFields, h1, h2, BitVec.toNat_ofNat]
  omega

theorem cmdOpc_eq (w : Word32) : cmdOpc w = w.toNat % 2 ^ 8 := by simp [cmdOpc]
theorem cmdWidth_eq (w : Word32) : cmdWidth w = w.toNat / 2 ^ 8 % 2 ^ 7 := by
  simp [cmdWidth, Nat.shiftRight_eq_div_pow]
theorem cmdLsb_eq (w : Word32) : cmdLsb w = w.toNat / 2 ^ 15 % 2 ^ 7 := by
  simp [cmdLsb, Nat.shiftRight_eq_div_pow]
theorem cmdRsvd_eq (w : Word32) : cmdRsvd w = w.toNat / 2 ^ 22 := by
  have := w.isLt
  simp [cmdRsvd, Nat.shiftRight_eq_div_pow]
  omega

theorem opcode_lt (i : Instr) : opcode i < 256 := by cases i <;> simp [opcode]

theorem wellFormed_iff (i : Instr) : i.wellFormed = true ↔ i.width < 128 ∧ i.lsb < 128 := by
  simp [Instr.wellFormed]

end Sys2Proof
end

