-- ==== Sys2Proof/Laws/Rounding.lean ====
section
/-! SUPPORT. The one rounding of R12 is correct: `rounded` gives the nearest binary64 value, ties to the even significand,
and is finite exactly below the overflow threshold. -/
namespace Sys2Proof

/-- `roundQuotient` is the nearest integer: no integer is nearer, and of two equally near ones it is the even one. -/
theorem F64.roundQuotient_nearest (n d : Nat) (hd : 0 < d) (k : Int) :
    |((F64.roundQuotient n d : Nat) : Int) * d - n| ≤ |k * d - n| ∧
    (|k * d - n| = |((F64.roundQuotient n d : Nat) : Int) * d - n| →
      k = (F64.roundQuotient n d : Nat) ∨ F64.roundQuotient n d % 2 = 0) := by
  have h1 := Nat.div_add_mod n d
  have h2 := Nat.mod_lt n hd
  generalize hm : n / d = m at *
  generalize hr : n % d = r at *
  have hn : (n : Int) = d * m + r := by rw [← h1]; push_cast; ring
  have hQ : F64.roundQuotient n d = if 2 * r < d then m else if d < 2 * r then m + 1 else m + m % 2 := by
    simp only [F64.roundQuotient, hm, hr]
  have hD : (0 : Int) < d := by exact_mod_cast hd
  have hR : (0 : Int) ≤ r ∧ (r : Int) < d := ⟨by omega, by exact_mod_cast h2⟩
  -- distances from k
  have hk : ∀ j : Int, |(m + j) * d - (n : Int)| = |j * d - r| := by
    intro j; rw [hn]; congr 1; ring
  have lowk : ∀ j : Int, j ≤ 0 → (r : Int) ≤ |j * d - r| ∧ (j < 0 → (r : Int) + d ≤ |j * d - r|) := by
    intro j hj
    have : j * d ≤ 0 := mul_nonpos_of_nonpos_of_nonneg hj hD.le
    rw [abs_of_nonpos (by omega)]
    refine ⟨by omega, fun hlt => ?_⟩
    have : j * d ≤ -1 * d := mul_le_mul_of_nonneg_right (by omega) hD.le
    omega
  have highk : ∀ j : Int, 1 ≤ j → (d : Int) - r ≤ |j * d - r| ∧ (1 < j → (d : Int) - r + d ≤ |j * d - r|) := by
    intro j hj
    have : 1 * (d : Int) ≤ j * d := mul_le_mul_of_nonneg_right hj hD.le
    rw [abs_of_nonneg (by omega)]
    refine ⟨by omega, fun hlt => ?_⟩
    have : 2 * (d : Int) ≤ j * d := mul_le_mul_of_nonneg_right (by omega) hD.le
    omega
  obtain ⟨j, rfl⟩ : ∃ j : Int, k = m + j := ⟨k - m, by ring⟩
  have z0 : |(0 : Int) * d - r| = r := by rw [zero_mul, zero_sub, abs_neg, abs_of_nonneg hR.1]
  have z1 : |(1 : Int) * d - r| = d - r := by rw [one_mul, abs_of_nonneg (by omega)]
  have hj := hk j
  have h0 := hk 0
  have h1' := hk 1
  rw [z0, add_zero] at h0
  rw [z1] at h1'
  rw [hj, hQ]
  by_cases c1 : 2 * r < d
  · rw [if_pos c1, h0]
    rcases le_or_gt j 0 with hle | hgt
    · obtain ⟨a, b⟩ := lowk j hle
      refine ⟨a, fun he => ?_⟩
      rcases eq_or_lt_of_le hle with e | e
      · left; omega
      · have := b e; omega
    · have := (highk j hgt).1
      exact ⟨by omega, fun he => by omega⟩
  · rw [if_neg c1]
    by_cases c2 : d < 2 * r
    · rw [if_pos c2]; push_cast; rw [h1']
      rcases le_or_gt j 0 with hle | hgt
      · have := (lowk j hle).1
        exact ⟨by omega, fun he => by omega⟩
      · obtain ⟨a, b⟩ := highk j hgt
        refine ⟨a, fun he => ?_⟩
        rcases eq_or_lt_of_le (show (1 : Int) ≤ j from hgt) with e | e
        · left; omega
        · have := b e; omega
    · rw [if_neg c2]
      have heven : (m + m % 2) % 2 = 0 := by omega
      refine ⟨?_, fun _ => .inr heven⟩
      have hval : |(((m + m % 2 : Nat)) : Int) * d - n| = r := by
        rcases Nat.mod_two_eq_zero_or_one m with e | e <;> rw [e]
        · simpa using h0
        · push_cast; rw [h1']; omega
      rw [hval]
      rcases le_or_gt j 0 with hle | hgt
      · exact (lowk j hle).1
      · have := (highk j hgt).1; omega


/-- How far the quotient exceeds a 53-bit significand, in powers of two. -/
theorem F64.excess_bounds (n d : Nat) (hd : 0 < d) :
    n < 2 ^ 53 * (d * 2 ^ F64.excess (n / d)) ∧
    (F64.excess (n / d) = 0 ∨ 2 ^ 52 * (d * 2 ^ F64.excess (n / d)) ≤ n) := by
  have hlt : n < (n / d + 1) * d := by
    have h1 := Nat.div_add_mod n d
    have h2 := Nat.mod_lt n hd
    nlinarith
  have hle : n / d * d ≤ n := Nat.div_mul_le_self n d
  unfold F64.excess
  split
  · rename_i h
    refine ⟨?_, .inl rfl⟩
    have : (n / d + 1) * d ≤ 2 ^ 53 * d := Nat.mul_le_mul_right d h
    simpa using lt_of_lt_of_le hlt this
  · rename_i h
    have h0 : n / d ≠ 0 := by omega
    have hlow := Nat.log2_self_le h0
    have hup := @Nat.lt_log2_self (n / d)
    have hL : 53 ≤ Nat.log2 (n / d) := (Nat.le_log2 h0).2 (not_lt.1 h)
    generalize Nat.log2 (n / d) = L at *
    obtain ⟨t, rfl⟩ : ∃ t, L = 52 + t := ⟨L - 52, by omega⟩
    rw [Nat.add_sub_cancel_left]
    constructor
    · calc n < (n / d + 1) * d := hlt
        _ ≤ 2 ^ (52 + t + 1) * d := Nat.mul_le_mul_right d hup
        _ = 2 ^ 53 * (d * 2 ^ t) := by rw [show 52 + t + 1 = 53 + t by omega, Nat.pow_add]; ring
    · right
      calc 2 ^ 52 * (d * 2 ^ t) = 2 ^ (52 + t) * d := by rw [Nat.pow_add]; ring
        _ ≤ n / d * d := Nat.mul_le_mul_right d hlow
        _ ≤ n := hle

/-- The magnitude of a pattern composed of an exponent and a significand of 53 bits, the carry included. -/
theorem F64.patternMag_compose {sh q : Nat} (hq : q ≤ 2 ^ 53) (h : sh = 0 ∨ 2 ^ 52 ≤ q) :
    F64.patternMag (sh * 2 ^ 52 + q) = q * 2 ^ sh := by
  unfold F64.patternMag
  by_cases h1 : q < 2 ^ 52
  · obtain rfl : sh = 0 := by omega
    rw [if_pos (by omega)]
    omega
  · rw [if_neg (by omega)]
    rcases eq_or_lt_of_le hq with rfl | h2
    · rw [show (sh * 2 ^ 52 + 2 ^ 53) / 2 ^ 52 = sh + 2 by omega, show (sh * 2 ^ 52 + 2 ^ 53) % 2 ^ 52 = 0 by omega,
        show sh + 2 - 1 = sh + 1 by omega, Nat.pow_succ]
      ring
    · rw [show (sh * 2 ^ 52 + q) / 2 ^ 52 = sh + 1 by omega, show (sh * 2 ^ 52 + q) % 2 ^ 52 = q - 2 ^ 52 by omega,
        Nat.sub_add_cancel (by omega), Nat.add_sub_cancel]

/-- A magnitude is a multiple of 2^sh or lies below 2^(52 + sh). -/
theorem F64.mag_cases (w : F64) (sh : Nat) : (∃ k, w.mag = k * 2 ^ sh) ∨ (0 < sh ∧ w.mag < 2 ^ 52 * 2 ^ sh) := by
  have hf : w.fracField < 2 ^ 52 := Nat.mod_lt _ (by positivity)
  rcases Nat.eq_zero_or_pos sh with rfl | hsh
  · exact .inl ⟨w.mag, by simp⟩
  · unfold F64.mag
    split
    · refine .inr ⟨hsh, lt_of_lt_of_le hf ?_⟩
      exact Nat.le_mul_of_pos_right _ (by positivity)
    · rcases le_or_gt sh (w.expField - 1) with h | h
      · refine .inl ⟨(w.fracField + 2 ^ 52) * 2 ^ (w.expField - 1 - sh), ?_⟩
        rw [Nat.mul_assoc, ← Nat.pow_add, Nat.sub_add_cancel h]
      · refine .inr ⟨hsh, ?_⟩
        calc (w.fracField + 2 ^ 52) * 2 ^ (w.expField - 1) < 2 ^ 53 * 2 ^ (w.expField - 1) := by
              apply Nat.mul_lt_mul_of_pos_right (by omega) (by positivity)
          _ ≤ 2 ^ 53 * 2 ^ (sh - 1) := Nat.mul_le_mul_left _ (Nat.pow_le_pow_right (by norm_num) (by omega))
          _ = 2 ^ 52 * 2 ^ sh := by
              obtain ⟨t, rfl⟩ : ∃ t, sh = t + 1 := ⟨sh - 1, by omega⟩
              rw [Nat.add_sub_cancel, Nat.pow_succ 2 t]; ring

/-- The significand and the exponent of the rounded quotient `n / d`. -/
theorem F64.roundQuotient_bounds (n d : Nat) (hd : 0 < d) :
    F64.roundQuotient n (d * 2 ^ F64.excess (n / d)) ≤ 2 ^ 53 ∧
    (F64.excess (n / d) = 0 ∨ 2 ^ 52 ≤ F64.roundQuotient n (d * 2 ^ F64.excess (n / d))) := by
  obtain ⟨h1, h2⟩ := F64.excess_bounds n d hd
  have hD : 0 < d * 2 ^ F64.excess (n / d) := by positivity
  obtain ⟨h3, h4⟩ := F64.roundQuotient_near n _ hD
  generalize d * 2 ^ F64.excess (n / d) = D at *
  generalize F64.roundQuotient n D = Q at *
  constructor
  · by_contra hc
    have : D * (2 ^ 53 + 1) ≤ D * Q := Nat.mul_le_mul_left D (by omega)
    nlinarith
  · refine h2.imp_right fun h => ?_
    by_contra hc
    have : D * (Q + 1) ≤ D * 2 ^ 52 := Nat.mul_le_mul_left D (by omega)
    nlinarith

/-- The magnitude of the rounded quotient is nearest to `n / d` among all magnitudes, and of two equally near ones it has
the even significand. -/
theorem F64.rounded_nearest (n d : Nat) (hd : 0 < d) (w : F64) :
    let sh := F64.excess (n / d)
    let q := F64.roundQuotient n (d * 2 ^ sh)
    |((q * 2 ^ sh : Nat) : Int) * d - n| ≤ |(w.mag : Int) * d - n| ∧
    (|(w.mag : Int) * d - n| = |((q * 2 ^ sh : Nat) : Int) * d - n| → w.mag = q * 2 ^ sh ∨ q % 2 = 0) := by
  intro sh q
  have hD : 0 < d * 2 ^ sh := by positivity
  have near := F64.roundQuotient_nearest n (d * 2 ^ sh) hD
  change ∀ k : Int, |(q : Int) * ((d * 2 ^ sh : Nat) : Int) - n| ≤ |k * ((d * 2 ^ sh : Nat) : Int) - n| ∧
    (|k * ((d * 2 ^ sh : Nat) : Int) - n| = |(q : Int) * ((d * 2 ^ sh : Nat) : Int) - n| → k = q ∨ q % 2 = 0) at near
  have e : ∀ k : Nat, ((k * 2 ^ sh : Nat) : Int) * d = (k : Int) * ((d * 2 ^ sh : Nat) : Int) := by
    intro k; push_cast; ring
  rw [e q]
  rcases F64.mag_cases w sh with ⟨k, hk⟩ | ⟨hsh, hlt⟩
  · obtain ⟨a, b⟩ := near k
    rw [hk, e k]
    refine ⟨a, fun h => (b h).imp_left fun h' => ?_⟩
    rw [show k = q by exact_mod_cast h']
  · have hn : 2 ^ 52 * (d * 2 ^ sh) ≤ n := by
      rcases (F64.excess_bounds n d hd).2 with h | h
      · exact absurd h (by omega)
      · exact h
    have h52 := (near ((2 ^ 52 : Nat) : Int)).1
    have h1 : |((2 ^ 52 : Nat) : Int) * ((d * 2 ^ sh : Nat) : Int) - n| =
        n - ((2 ^ 52 * (d * 2 ^ sh) : Nat) : Int) := by
      rw [← Nat.cast_mul, abs_of_nonpos (by omega)]; omega
    have h2 : w.mag * d < 2 ^ 52 * (d * 2 ^ sh) := by
      calc w.mag * d < 2 ^ 52 * 2 ^ sh * d := Nat.mul_lt_mul_of_pos_right hlt hd
        _ = 2 ^ 52 * (d * 2 ^ sh) := by ring
    have h3 : |(w.mag : Int) * d - n| = n - ((w.mag * d : Nat) : Int) := by
      rw [← Nat.cast_mul, abs_of_nonpos (by omega)]; omega
    rw [h1] at h52
    rw [h3]
    exact ⟨by omega, fun h => by omega⟩

/-- A rounded quotient is finite exactly below the overflow threshold (2^1024 - 2^970, in units of 2^-1074). -/
theorem F64.roundPattern_lt_inf (n d : Nat) (hd : 0 < d) :
    F64.roundPattern n d < F64.infPattern ↔ n < (2 ^ 54 - 1) * (d * 2 ^ 2044) := by
  obtain ⟨h1, h2⟩ := F64.excess_bounds n d hd
  obtain ⟨h3, h4⟩ := F64.roundQuotient_bounds n d hd
  have hD : 0 < d * 2 ^ F64.excess (n / d) := by positivity
  have near := F64.roundQuotient_nearest n _ hD
  obtain ⟨h5, h6⟩ := F64.roundQuotient_near n _ hD
  have hmin : F64.roundPattern n d < F64.infPattern ↔
      F64.excess (n / d) * 2 ^ 52 + F64.roundQuotient n (d * 2 ^ F64.excess (n / d)) < F64.infPattern := by
    unfold F64.roundPattern
    dsimp only
    split <;> omega
  rw [hmin, F64.infPattern]
  generalize F64.excess (n / d) = sh at *
  generalize F64.roundQuotient n (d * 2 ^ sh) = q at *
  rcases lt_trichotomy sh 2045 with h | rfl | h
  · have hle : d * 2 ^ sh ≤ d * 2 ^ 2044 := Nat.mul_le_mul_left d (Nat.pow_le_pow_right (by norm_num) (by omega))
    generalize d * 2 ^ 2044 = E at *
    exact ⟨fun _ => by omega, fun _ => by omega⟩
  · have hE : d * 2 ^ 2045 = 2 * (d * 2 ^ 2044) := by rw [Nat.pow_succ 2 2044]; ring
    rw [hE] at h1 h2 near h5 h6
    clear hE hmin h4
    have hE0 : 0 < d * 2 ^ 2044 := by positivity
    generalize d * 2 ^ 2044 = E at *
    constructor
    · intro hq
      have hq' : q + 1 ≤ 2 ^ 53 := by omega
      have h7 : 2 * E * (q + 1) ≤ 2 * E * 2 ^ 53 := Nat.mul_le_mul_left _ hq'
      by_contra hc
      have h8 : 2 * E * q = 2 * E * (2 ^ 53 - 1) ∧ n = (2 ^ 54 - 1) * E := by
        have : 2 * E * (q + 1) = 2 * E * q + 2 * E := by ring
        have h5' : 2 * n ≤ 2 * (2 * E * q) + 2 * E := by
          have : 2 * (2 * E) * q = 2 * (2 * E * q) := by ring
          omega
        omega
      have hq53 : q = 2 ^ 53 - 1 := Nat.eq_of_mul_eq_mul_left (by omega) h8.1
      have h9 := (near ((2 ^ 53 : Nat) : Int)).2 (by
        rw [hq53, h8.2, ← Nat.cast_mul, ← Nat.cast_mul, abs_of_nonneg (by omega), abs_of_nonpos (by omega)]
        omega)
      rcases h9 with h9 | h9 <;> omega
    · intro hn
      by_contra hc
      have hq53 : q = 2 ^ 53 := by omega
      have : 2 * (2 * E) * q = 2 ^ 55 * E := by rw [hq53]; ring
      omega
  · have hle : d * 2 ^ 2046 ≤ d * 2 ^ sh := Nat.mul_le_mul_left d (Nat.pow_le_pow_right (by norm_num) (by omega))
    have hE : d * 2 ^ 2046 = 4 * (d * 2 ^ 2044) := by rw [Nat.pow_add 2 2044 2]; ring
    rw [hE] at hle
    generalize d * 2 ^ 2044 = E at *
    exact ⟨fun _ => by omega, fun _ => by omega⟩

/-- The magnitude of a finite rounded quotient. -/
theorem F64.mag_rounded_of_finite (neg : Bool) (n d : Nat) (hd : 0 < d)
    (h : F64.roundPattern n d < F64.infPattern) :
    (F64.rounded neg n d).mag =
        F64.roundQuotient n (d * 2 ^ F64.excess (n / d)) * 2 ^ F64.excess (n / d) ∧
      (F64.rounded neg n d).fracField % 2 = F64.roundQuotient n (d * 2 ^ F64.excess (n / d)) % 2 := by
  obtain ⟨h3, h4⟩ := F64.roundQuotient_bounds n d hd
  have hp : F64.roundPattern n d =
      F64.excess (n / d) * 2 ^ 52 + F64.roundQuotient n (d * 2 ^ F64.excess (n / d)) := by
    unfold F64.roundPattern at h ⊢
    dsimp only at h ⊢
    split
    · rfl
    · rw [if_neg ‹_›] at h
      exact absurd h (lt_irrefl _)
  constructor
  · rw [F64.mag_rounded, hp, F64.patternMag_compose h3 h4]
  · rw [F64.rounded, F64.fracField_ofPattern neg (F64.roundPattern_lt n d), hp]
    omega

/-- The one rounding of R12: `rounded neg n d` is the binary64 value of ±(n/d) units of 2^-1074, rounded to nearest, ties
to even. -/
theorem F64.roundedTo_rounded (neg : Bool) (n d : Nat) (hd : 0 < d) :
    Machine.RoundedTo (F64.rounded neg n d) ((if neg then -1 else 1) * ((n : ℚ) / d) / F64.one) := by
  have hone := F64.one_cast_pos
  have hdq : (0 : ℚ) < d := by exact_mod_cast hd
  set σ : Int := if neg then -1 else 1 with hσ
  have hσ2 : σ * σ = 1 := by rw [hσ]; split <;> rfl
  have hσa : |σ| = 1 := by rw [hσ]; split <;> rfl
  have hq : (if neg then -1 else 1 : ℚ) * ((n : ℚ) / d) / F64.one = ((σ * n : Int) : ℚ) / (d * F64.one) := by
    have : (if neg then -1 else 1 : ℚ) = (σ : ℚ) := by rw [hσ]; split <;> simp
    rw [this]; push_cast; field_simp
  rw [hq]
  -- the distance of a finite value from the exact one
  have dist : ∀ w : F64, |w.real - ((σ * n : Int) : ℚ) / (d * F64.one)| =
      ((|(σ * w.val) * d - n| : Int) : ℚ) / (d * F64.one) := by
    intro w
    have h1 : w.real - ((σ * n : Int) : ℚ) / (d * F64.one) = ((w.val * d - σ * n : Int) : ℚ) / (d * F64.one) := by
      rw [F64.real]; push_cast; field_simp
    have h2 : |w.val * d - σ * n| = |(σ * w.val) * d - n| := by
      rw [show (σ * w.val) * d - n = σ * (w.val * d - σ * n) - (1 - σ * σ) * n by ring, hσ2, sub_self, zero_mul,
        sub_zero, abs_mul, hσa, one_mul]
    rw [h1, abs_div, abs_of_pos (mul_pos hdq hone), ← Int.cast_abs, h2]
  have hpos : (0 : ℚ) < d * F64.one := mul_pos hdq hone
  refine ⟨?_, F64.isInf_rounded neg n d, fun h0 => ?_, ?_⟩
  · rw [F64.isFinite_rounded, F64.roundPattern_lt_inf n d hd, abs_div, abs_of_pos hpos, div_lt_iff₀ hpos,
      ← Int.cast_abs, abs_mul, hσa, one_mul]
    have hT : ((2 : ℚ) ^ 1024 - 2 ^ 970) * (d * F64.one) = (((2 ^ 54 - 1) * (d * 2 ^ 2044) : Nat) : ℚ) := by
      have h1 : (F64.one : ℚ) = 2 ^ 1074 := by unfold F64.one; push_cast; rfl
      have h2 : (2 : ℚ) ^ 1024 = 2 ^ 54 * 2 ^ 970 := by rw [← pow_add]
      have h3 : (2 : ℚ) ^ 2044 = 2 ^ 970 * 2 ^ 1074 := by rw [← pow_add]
      rw [h1, h2, Nat.cast_mul, Nat.cast_mul, Nat.cast_pow, Nat.cast_ofNat, h3]
      push_cast
      ring
    rw [hT]
    generalize (2 ^ 54 - 1) * (d * 2 ^ 2044) = T
    rw [Nat.abs_cast]
    exact_mod_cast Iff.rfl
  · have hn : (0 : ℚ) < n := by
      rcases Nat.eq_zero_or_pos n with rfl | h
      · simp at h0
      · exact_mod_cast h
    rw [F64.sign_rounded, div_lt_iff₀ hpos, zero_mul]
    have hσn : ((σ * n : Int) : ℚ) = (σ : ℚ) * n := by push_cast; ring
    rw [hσn, hσ]
    cases neg
    · simp
    · simpa using hn
  · intro hfin w hw
    rw [F64.isFinite_rounded] at hfin
    obtain ⟨hmag, hfrac⟩ := F64.mag_rounded_of_finite neg n d hd hfin
    have hnear := F64.rounded_nearest n d hd
    dsimp only at hnear
    rw [← hmag] at hnear
    have hzval : σ * (F64.rounded neg n d).val = (F64.rounded neg n d).mag := by
      rw [F64.val, F64.sign_rounded, hσ]
      cases neg <;> simp
    rw [dist, dist, hzval, div_le_div_iff_of_pos_right hpos, div_left_inj' hpos.ne', hfrac]
    have hwabs : σ * w.val = w.mag ∨ (σ * w.val = -(w.mag : Int) ∧ 0 < w.mag) := by
      have : (σ * w.val).natAbs = w.mag := by
        rw [Int.natAbs_mul, F64.val_natAbs, show σ.natAbs = 1 by rw [hσ]; split <;> rfl, one_mul]
      omega
    rcases hwabs with h | ⟨h, hm⟩
    · rw [h]
      obtain ⟨a, b⟩ := hnear w
      refine ⟨by exact_mod_cast a, fun he => (b (by exact_mod_cast he)).imp_left fun e => ?_⟩
      have : w.val = (F64.rounded neg n d).val := by
        have h1 : σ * w.val = σ * (F64.rounded neg n d).val := by rw [h, hzval, e]
        have h2 := congrArg (σ * ·) h1
        simpa only [← mul_assoc, hσ2, one_mul] using h2
      rw [F64.real, F64.real, this]
    · -- a value of the other sign is farther than zero
      have h0 := (hnear ⟨0⟩).1
      have hz : F64.mag ⟨0⟩ = 0 := by decide
      rw [hz] at h0
      have hmd : (0 : Int) < (w.mag : Int) * d := by exact_mod_cast Nat.mul_pos hm hd
      have h1 : |-(w.mag : Int) * d - n| = (w.mag : Int) * d + n := by
        rw [abs_of_nonpos (by rw [neg_mul]; omega)]; rw [neg_mul]; omega
      have h2 : |((0 : Nat) : Int) * d - n| = n := by
        rw [Nat.cast_zero, zero_mul, zero_sub, abs_neg, Nat.abs_cast]
      rw [h2] at h0
      rw [h, h1]
      refine ⟨by exact_mod_cast (by omega : |((F64.rounded neg n d).mag : Int) * d - n| ≤ (w.mag : Int) * d + n),
        fun he => ?_⟩
      have he' : (w.mag : Int) * d + n = |((F64.rounded neg n d).mag : Int) * d - n| := by exact_mod_cast he
      omega

end Sys2Proof
end

