-- ==== Sys2Proof/Laws/Numeric.lean ====
section
/-! SUPPORT. The default NUMERIC and ROUND under the build: the operations by name, the literals as the patterns of
93_implementation_defined.md, and each of the rules' formulas in binary64. These lemmas rewrite; none is to be used by
unfolding the arithmetic. -/

namespace Sys2Proof

/-! ### The operations of binary64 -/

@[simp] theorem Numeric.binary64_isFinite : Numeric.binary64.isFinite = F64.isFinite := by rw [Numeric.binary64]
@[simp] theorem Numeric.binary64_val : Numeric.binary64.val = F64.val := by rw [Numeric.binary64]
@[simp] theorem Numeric.binary64_one : Numeric.binary64.one = F64.one := by rw [Numeric.binary64]
@[simp] theorem Numeric.binary64_add : Numeric.binary64.add = F64.add := by rw [Numeric.binary64]
@[simp] theorem Numeric.binary64_sub : Numeric.binary64.sub = F64.sub := by rw [Numeric.binary64]
@[simp] theorem Numeric.binary64_mul : Numeric.binary64.mul = F64.mul := by rw [Numeric.binary64]
@[simp] theorem Numeric.binary64_div : Numeric.binary64.div = F64.div := by rw [Numeric.binary64]
@[simp] theorem Numeric.binary64_ofInt : Numeric.binary64.ofInt = F64.ofInt := by rw [Numeric.binary64]
@[simp] theorem Numeric.binary64_literal : Numeric.binary64.literal = F64.ofRatio := by rw [Numeric.binary64]
@[simp] theorem Config.build_numeric : Config.build.numeric = .binary64 := by rw [Config.build]
@[simp] theorem Config.build_rounding : Config.build.rounding = roundHalfAway := by rw [Config.build]
theorem Config.build_codebook : Config.build.codebook = Config.chromaCodebook.levels := by rw [Config.build]
@[simp] theorem Config.build_denomMax : Config.build.denomMax = 65535 := by rw [Config.build]
@[simp] theorem Config.build_decDenom : Config.build.decDenom = 255 := by rw [Config.build]
@[simp] theorem Config.build_bufCap : Config.build.bufCap = none := by rw [Config.build]

/-- ROUND of a binary64 value under the build (R13). -/
@[simp] theorem Config.build_round (x : F64) : Config.build.round x = F64.round x := by
  rw [Params.round, F64.round, Config.build_rounding, Config.build_numeric, Numeric.binary64_val, Numeric.binary64_one]

@[simp] theorem Numeric.binary64_clamp (v lo hi : F64) : Numeric.binary64.clamp v lo hi = F64.clamp v lo hi := by
  rw [F64.clamp]

/-- `round(x)` with its sign and magnitude. -/
theorem F64.round_eq (x : F64) :
    F64.round x = if x.val < 0 then -(((2 * x.mag + F64.one) / (2 * F64.one) : Nat) : Int)
      else (((2 * x.mag + F64.one) / (2 * F64.one) : Nat) : Int) := by
  rw [F64.round, roundHalfAway, F64.val_natAbs]

/-! ### The literals (93_implementation_defined.md) -/

@[simp] theorem F64.literal_299_1000 : F64.ofRatio 299 1000 = ⟨0x3FD322D0E5604189#64⟩ := by decide +kernel
@[simp] theorem F64.literal_587_1000 : F64.ofRatio 587 1000 = ⟨0x3FE2C8B439581062#64⟩ := by decide +kernel
@[simp] theorem F64.literal_114_1000 : F64.ofRatio 114 1000 = ⟨0x3FBD2F1A9FBE76C9#64⟩ := by decide +kernel
@[simp] theorem F64.literal_m168736_1000000 : F64.ofRatio (-168736) 1000000 = ⟨0xBFC5992428D434A0#64⟩ := by decide +kernel
@[simp] theorem F64.literal_331264_1000000 : F64.ofRatio 331264 1000000 = ⟨0x3FD5336DEB95E5B0#64⟩ := by decide +kernel
@[simp] theorem F64.literal_5_10 : F64.ofRatio 5 10 = ⟨0x3FE0000000000000#64⟩ := by decide +kernel
@[simp] theorem F64.literal_418688_1000000 : F64.ofRatio 418688 1000000 = ⟨0x3FDACBC8C0CE91C9#64⟩ := by decide +kernel
@[simp] theorem F64.literal_81312_1000000 : F64.ofRatio 81312 1000000 = ⟨0x3FB4D0DCFCC5B8DC#64⟩ := by decide +kernel
@[simp] theorem F64.literal_1402_1000 : F64.ofRatio 1402 1000 = ⟨0x3FF66E978D4FDF3B#64⟩ := by decide +kernel
@[simp] theorem F64.literal_344136_1000000 : F64.ofRatio 344136 1000000 = ⟨0x3FD6065300581494#64⟩ := by decide +kernel
@[simp] theorem F64.literal_714136_1000000 : F64.ofRatio 714136 1000000 = ⟨0x3FE6DA33BD9CAE21#64⟩ := by decide +kernel
@[simp] theorem F64.literal_1772_1000 : F64.ofRatio 1772 1000 = ⟨0x3FFC5A1CAC083127#64⟩ := by decide +kernel
@[simp] theorem F64.literal_3_10 : F64.ofRatio 3 10 = ⟨0x3FD3333333333333#64⟩ := by decide +kernel
@[simp] theorem F64.literal_m3_10 : F64.ofRatio (-3) 10 = ⟨0xBFD3333333333333#64⟩ := by decide +kernel
@[simp] theorem F64.literal_511_1 : F64.ofRatio 511 1 = ⟨0x407FF00000000000#64⟩ := by decide +kernel
@[simp] theorem F64.literal_50_1 : F64.ofRatio 50 1 = ⟨0x4049000000000000#64⟩ := by decide +kernel
@[simp] theorem F64.literal_4_1 : F64.ofRatio 4 1 = ⟨0x4010000000000000#64⟩ := by decide +kernel

/-! ### Conformance -/

/-- The conditions of R202 on a codebook. -/
theorem codebookConforms_iff (nu : Numeric) (fMax : Nat) (cb : Vector F64 16) :
    codebookConforms nu fMax cb = true ↔
      (∀ k : Fin 16, nu.isFinite cb[k] = true) ∧ (∀ k : Fin 16, |nu.real cb[k]| ≤ fMax) ∧
      ∀ j k : Fin 16, j < k → nu.real cb[j] < nu.real cb[k] := by
  have hget : ∀ i (h : i < 16), cb.toList.getD i default = cb[i] := fun i h => by
    simp [List.getD, h]
  have hall : (cb.toList.all fun x => nu.isFinite x && nu.within fMax x) = true ↔
      ∀ k : Fin 16, nu.isFinite cb[k] = true ∧ |nu.real cb[k]| ≤ fMax := by
    rw [List.all_eq_true]
    constructor
    · intro h k
      have := h cb[k] (by simp)
      rwa [Bool.and_eq_true, Numeric.within_iff] at this
    · intro h x hx
      obtain ⟨i, hi, rfl⟩ := List.getElem_of_mem hx
      have := h ⟨i, by simpa using hi⟩
      rw [Bool.and_eq_true, Numeric.within_iff]
      simpa using this
  have hlt : ((List.range 15).all fun i => nu.lt (cb.toList.getD i default) (cb.toList.getD (i + 1) default)) = true ↔
      ∀ i (h : i < 15), nu.real cb[i] < nu.real cb[i + 1] := by
    rw [List.all_eq_true]
    constructor
    · intro h i hi
      have := h i (List.mem_range.2 hi)
      rwa [hget i (by omega), hget (i + 1) (by omega), ← Numeric.real_lt_real] at this
    · intro h i hi
      rw [List.mem_range] at hi
      rw [hget i (by omega), hget (i + 1) (by omega), ← Numeric.real_lt_real]
      exact h i hi
  rw [codebookConforms, Bool.and_eq_true, hall, hlt, forall_and, and_assoc]
  refine and_congr_right fun _ => and_congr_right fun _ => ⟨fun h j k hjk => ?_, fun h i hi =>
    h ⟨i, by omega⟩ ⟨i + 1, by omega⟩ (by simp)⟩
  obtain ⟨k, hk⟩ := k
  induction k with
  | zero => exact absurd hjk (by simp)
  | succ k ih =>
    have hs := h k (by omega)
    rcases Nat.lt_or_ge j.val k with hlt | hge
    · exact lt_trans (ih (by omega) (by simpa [Fin.lt_def] using hlt)) hs
    · have hj : j.val < k + 1 := hjk
      have : j = ⟨k, by omega⟩ := Fin.ext (show j.val = k by omega)
      rw [this]
      exact hs

namespace Machine

/-! ### The formulas under binary64 -/

/-- R163 in binary64. -/
theorem normalizedToLumaChroma_binary64 (c : Rgb) :
    normalizedToLumaChroma .binary64 c =
      ⟨F64.add (F64.add (F64.mul ⟨0x3FD322D0E5604189#64⟩ c.r) (F64.mul ⟨0x3FE2C8B439581062#64⟩ c.g))
         (F64.mul ⟨0x3FBD2F1A9FBE76C9#64⟩ c.b),
       F64.add (F64.sub (F64.mul ⟨0xBFC5992428D434A0#64⟩ c.r) (F64.mul ⟨0x3FD5336DEB95E5B0#64⟩ c.g))
         (F64.mul ⟨0x3FE0000000000000#64⟩ c.b),
       F64.sub (F64.sub (F64.mul ⟨0x3FE0000000000000#64⟩ c.r) (F64.mul ⟨0x3FDACBC8C0CE91C9#64⟩ c.g))
         (F64.mul ⟨0x3FB4D0DCFCC5B8DC#64⟩ c.b)⟩ := by
  simp only [normalizedToLumaChroma, Numeric.binary64_add, Numeric.binary64_sub, Numeric.binary64_mul,
    Numeric.binary64_literal, F64.literal_299_1000, F64.literal_587_1000, F64.literal_114_1000,
    F64.literal_m168736_1000000, F64.literal_331264_1000000, F64.literal_5_10, F64.literal_418688_1000000,
    F64.literal_81312_1000000]

/-- R164 in binary64. -/
theorem lumaChromaToNormalized_binary64 (q : Ypp) :
    lumaChromaToNormalized .binary64 q =
      ⟨F64.add q.y (F64.mul ⟨0x3FF66E978D4FDF3B#64⟩ q.pr),
       F64.sub (F64.sub q.y (F64.mul ⟨0x3FD6065300581494#64⟩ q.pb)) (F64.mul ⟨0x3FE6DA33BD9CAE21#64⟩ q.pr),
       F64.add q.y (F64.mul ⟨0x3FFC5A1CAC083127#64⟩ q.pb)⟩ := by
  simp only [lumaChromaToNormalized, Numeric.binary64_add, Numeric.binary64_sub, Numeric.binary64_mul,
    Numeric.binary64_literal, F64.literal_1402_1000, F64.literal_344136_1000000, F64.literal_714136_1000000,
    F64.literal_1772_1000]

/-- R162 in binary64. -/
theorem rgbToNormalized_binary64 (r g b d : Int) :
    rgbToNormalized .binary64 r g b d =
      ⟨F64.div (F64.ofInt r) (F64.ofInt d), F64.div (F64.ofInt g) (F64.ofInt d), F64.div (F64.ofInt b) (F64.ofInt d)⟩ := by
  simp only [rgbToNormalized, Numeric.binary64_div, Numeric.binary64_ofInt]

/-- R165 under the build. -/
theorem channelOf_build (x : F64) (d : Int) :
    channelOf Config.build x d = min (max (F64.round (F64.mul x (F64.ofInt d))) 0) d := by
  simp only [channelOf, clampInt, Config.build_round, Config.build_numeric, Numeric.binary64_mul, Numeric.binary64_ofInt]

/-- R180 and R181 in binary64. -/
theorem blockForward_binary64 (q0 q1 q2 q3 : Ypp) :
    blockForward .binary64 q0 q1 q2 q3 =
      ⟨F64.div (F64.add (F64.add (F64.add q0.y q1.y) q2.y) q3.y) ⟨0x4010000000000000#64⟩,
       F64.div (F64.sub (F64.sub (F64.add q3.y q2.y) q1.y) q0.y) ⟨0x4010000000000000#64⟩,
       F64.div (F64.sub (F64.add (F64.sub q3.y q2.y) q1.y) q0.y) ⟨0x4010000000000000#64⟩,
       F64.div (F64.add (F64.sub (F64.sub q3.y q2.y) q1.y) q0.y) ⟨0x4010000000000000#64⟩,
       F64.div (F64.add (F64.add (F64.add q0.pb q1.pb) q2.pb) q3.pb) ⟨0x4010000000000000#64⟩,
       F64.div (F64.add (F64.add (F64.add q0.pr q1.pr) q2.pr) q3.pr) ⟨0x4010000000000000#64⟩⟩ := by
  simp only [blockForward, forwardA, forwardB, forwardC, forwardD, chromaAverage, Numeric.binary64_add,
    Numeric.binary64_sub, Numeric.binary64_div, Numeric.binary64_literal, F64.literal_4_1]

/-- R182 in binary64. -/
theorem blockInverse_binary64 (k : Coeffs) :
    blockInverse .binary64 k =
      [⟨F64.add (F64.sub (F64.sub k.a k.b) k.c) k.d, k.pb, k.pr⟩, ⟨F64.sub (F64.add (F64.sub k.a k.b) k.c) k.d, k.pb, k.pr⟩,
       ⟨F64.sub (F64.sub (F64.add k.a k.b) k.c) k.d, k.pb, k.pr⟩,
       ⟨F64.add (F64.add (F64.add k.a k.b) k.c) k.d, k.pb, k.pr⟩] := by
  simp only [blockInverse, inverseY0, inverseY1, inverseY2, inverseY3, Numeric.binary64_add, Numeric.binary64_sub]

/-- R200 under the build. -/
theorem quantA_build (a : F64) :
    quantA Config.build a = min (max (F64.round (F64.mul a ⟨0x407FF00000000000#64⟩)) 0) 511 := by
  simp only [quantA, clampInt, Config.build_round, Config.build_numeric, Numeric.binary64_mul, Numeric.binary64_literal,
    F64.literal_511_1]

/-- R201 under the build. -/
theorem quantBcd_build (v : F64) :
    quantBcd Config.build v = F64.round (F64.mul (F64.clamp v ⟨0xBFD3333333333333#64⟩ ⟨0x3FD3333333333333#64⟩)
      ⟨0x4049000000000000#64⟩) := by
  simp only [quantBcd, Config.build_round, Config.build_numeric, Numeric.binary64_mul, Numeric.binary64_clamp,
    Numeric.binary64_literal, F64.literal_3_10, F64.literal_m3_10, F64.literal_50_1]

/-- R204 in binary64. -/
theorem dequantA_binary64 (a : Int) : dequantA .binary64 a = F64.div (F64.ofInt a) ⟨0x407FF00000000000#64⟩ := by
  rw [dequantA, Numeric.binary64_div, Numeric.binary64_ofInt, Numeric.binary64_literal, F64.literal_511_1]

/-- R205 in binary64. -/
theorem dequantBcd_binary64 (v : Int) : dequantBcd .binary64 v = F64.div (F64.ofInt v) ⟨0x4049000000000000#64⟩ := by
  rw [dequantBcd, Numeric.binary64_div, Numeric.binary64_ofInt, Numeric.binary64_literal, F64.literal_50_1]

end Machine

end Sys2Proof
end

