-- ==== Sys2Proof/Laws/PerInstr.lean ====
section
/-! SUPPORT. Per-instruction statements. OpcodeLookup: R92's table and the immediate checks of R93 give each command back
from its operation code and immediates. -/

namespace Sys2Proof.Laws.OpcodeLookup

/-- Looking up the command's own fields gives the command (R92, R93). -/
def Statement (i : Instr) : Prop := decodeFields (opcode i) i.width i.lsb = .ok i

theorem fitsU (width : Nat) : Statement (.fitsU width) := rfl
theorem fitsS (width : Nat) : Statement (.fitsS width) := rfl
theorem extractU (width lsb : Nat) : Statement (.extractU width lsb) := rfl
theorem extractS (width lsb : Nat) : Statement (.extractS width lsb) := rfl
theorem insertU (width lsb : Nat) : Statement (.insertU width lsb) := rfl
theorem insertS (width lsb : Nat) : Statement (.insertS width lsb) := rfl
theorem rgbToNorm : Statement .rgbToNorm := rfl
theorem normToYpbpr : Statement .normToYpbpr := rfl
theorem ypbprToNorm : Statement .ypbprToNorm := rfl
theorem normToRgb : Statement .normToRgb := rfl
theorem blkFwd : Statement .blkFwd := rfl
theorem blkInv : Statement .blkInv := rfl
theorem quantA : Statement .quantA := rfl
theorem quantBcd : Statement .quantBcd := rfl
theorem chromaQ : Statement .chromaQ := rfl
theorem chromaDq : Statement .chromaDq := rfl
theorem dequantA : Statement .dequantA := rfl
theorem dequantBcd : Statement .dequantBcd := rfl
theorem blkQuant : Statement .blkQuant := rfl
theorem blkDequant : Statement .blkDequant := rfl
theorem pack : Statement .pack := rfl
theorem unpack : Statement .unpack := rfl
theorem trim : Statement .trim := rfl
theorem blockCount : Statement .blockCount := rfl
theorem blockMap : Statement .blockMap := rfl
theorem compress : Statement .compress := rfl
theorem decompress : Statement .decompress := rfl

end Sys2Proof.Laws.OpcodeLookup
end

