-- ==== Sys2Proof/Laws/Pipeline.lean ====
section
/-! SUPPORT. The quantizer's index search, the packer, raster indices, the trim and the scatter of decompression, each in one
statement. -/

namespace Sys2Proof.Machine

variable {dimBits : Nat}

/-- The search over the levels ends at the best index so far or at one of the levels' indices. -/
theorem nearestLevel_lt (nu : Numeric) (v : F64) (ls : List F64) {k best dist m : Nat} (hb : best < m) (hk : k + ls.length ≤ m) :
    nearestLevel nu v ls k best dist < m := by
  induction ls generalizing k best dist with
  | nil => exact hb
  | cons l ls ih =>
    simp only [List.length_cons] at hk
    simp only [nearestLevel]
    split
    · exact ih (by omega) (by omega)
    · exact ih hb (by omega)

/-- A chroma index has four bits (R203). -/
theorem chromaQuantize_lt (nu : Numeric) (cb : Vector F64 16) (v : F64) : chromaQuantize nu cb v < 16 :=
  nearestLevel_lt nu v _ (by omega) (by simp)

/-- `pack` as its six fit checks in order and the word they lead to (R230). -/
theorem packRecord_eq (r : Record) :
    packRecord r =
      if fitsUnsigned r.a 9 = false then .error 0#4
      else if fitsSigned r.b 5 = false then .error 1#4
      else if fitsSigned r.c 5 = false then .error 2#4
      else if fitsSigned r.d 5 = false then .error 3#4
      else if fitsUnsigned r.pb 4 = false then .error 4#4
      else if fitsUnsigned r.pr 4 = false then .error 5#4
      else .ok (replaceField (replaceField (replaceField (replaceField (replaceField (replaceField 0#64 9 23 r.a)
        5 18 r.b) 5 13 r.c) 5 8 r.d) 4 4 r.pb) 4 0 r.pr) := by
  unfold packRecord insertUnsigned insertSigned
  cases fitsUnsigned r.a 9
  · rfl
  cases fitsSigned r.b 5
  · rfl
  cases fitsSigned r.c 5
  · rfl
  cases fitsSigned r.d 5
  · rfl
  cases fitsUnsigned r.pb 4
  · rfl
  cases fitsUnsigned r.pr 4
  · rfl
  · rfl

@[simp] theorem length_scatterPixels (W k : Nat) (xs : List Pixel) (pos : Nat) (out : List Pixel) :
    (scatterPixels W k pos xs out).length = out.length := by
  induction xs generalizing pos out with
  | nil => rfl
  | cons x xs ih => simp [scatterPixels, ih, bufWrite]

@[simp] theorem length_scatterWords (p : Params) (W : Nat) (ws : WordBuffer) (k : Nat) (out : List Pixel) :
    (scatterWords p W k ws out).length = out.length := by
  induction ws generalizing k out with
  | nil => rfl
  | cons w ws ih => simp [scatterWords, ih]

/-- The scatter of one block leaves every index alone that the block does not write (R70). -/
theorem scatterPixels_other {W k n : Nat} {xs : List Pixel} {pos : Nat} {out : List Pixel}
    (h : ∀ j, j < xs.length → blockMapOf W k (pos + j) ≠ n) : (scatterPixels W k pos xs out)[n]? = out[n]? := by
  induction xs generalizing pos out with
  | nil => rfl
  | cons x xs ih =>
    rw [scatterPixels, ih fun j hj => by
      have := h (j + 1) (by simpa using hj)
      rwa [← Nat.add_assoc, Nat.add_right_comm] at this]
    exact List.getElem?_set_ne (h 0 (by simp))

/-- The scatter of one block writes its pixels where block_map puts them (R258). -/
theorem scatterPixels_at {W k : Nat} {xs : List Pixel} {pos : Nat} {out : List Pixel} (hl : pos + xs.length ≤ 4)
    (hin : ∀ p, p < 4 → blockMapOf W k p < out.length)
    (hinj : ∀ p p', p < 4 → p' < 4 → blockMapOf W k p = blockMapOf W k p' → p = p')
    {j : Nat} {x : Pixel} (hx : xs[j]? = some x) :
    (scatterPixels W k pos xs out)[blockMapOf W k (pos + j)]? = some x := by
  induction xs generalizing pos out j with
  | nil => simp at hx
  | cons y ys ih =>
    simp only [List.length_cons] at hl
    rcases j with _ | j
    · obtain rfl : y = x := by simpa using hx
      rw [scatterPixels, scatterPixels_other]
      · simp [bufWrite, hin pos (by omega)]
      · intro j hj h
        have := hinj _ _ (by omega) (by omega) h
        omega
    · rw [scatterPixels, show pos + (j + 1) = pos + 1 + j by omega]
      exact ih (by omega) (fun p hp => by simpa [bufWrite] using hin p hp) (by simpa using hx)

/-! ### Row-major indices -/

theorem rowMajor_lt {W H row col : Nat} (hr : row < H) (hc : col < W) : row * W + col < W * H := by nlinarith

theorem rowMajor_div {W row col : Nat} (hc : col < W) : (row * W + col) / W = row := by
  rw [Nat.add_comm, Nat.add_mul_div_right _ _ (by omega), Nat.div_eq_of_lt hc, Nat.zero_add]

theorem rowMajor_mod {W row col : Nat} (hc : col < W) : (row * W + col) % W = col := by
  rw [Nat.add_comm, Nat.add_mul_mod_self_right, Nat.mod_eq_of_lt hc]

/-- `block_map` of the block in a block row and block column (R252, R253, R256). -/
theorem blockMapOf_at {W br bc : Nat} (hbc : bc < W / 2) (p : Nat) :
    blockMapOf W (br * (W / 2) + bc) p = (2 * br + p / 2) * W + (2 * bc + p % 2) := by
  rw [blockMapOf, rowMajor_div hbc, rowMajor_mod hbc]

/-! ### Results in the width of their port -/

@[simp] theorem toNat_trimPort (n : BitVec dimBits) : (trimPort n).toNat = n.toNat - n.toNat % 2 := by
  rw [trimPort, trimDim, BitVec.toNat_ofNat, Nat.mod_eq_of_lt (lt_of_le_of_lt (Nat.sub_le _ _) n.isLt)]

/-- At the default DIM_BITS a block count is a u64 (R260). -/
theorem toNat_blockCountResult (W H : Word32) :
    (blockCountResult W.toNat H.toNat).toNat = blockCountOf W.toNat H.toNat := by
  have h : blockCountOf W.toNat H.toNat < 2 ^ 64 := by
    have := Nat.mul_le_mul (show W.toNat / 2 ≤ 2 ^ 31 by omega) (show H.toNat / 2 ≤ 2 ^ 31 by omega)
    rw [blockCountOf]
    omega
  rw [blockCountResult, if_pos h, BitVec.toNat_ofNat, Nat.mod_eq_of_lt h]

/-! ### Rasters -/

/-- A well-formed raster passes `valid_raster` (R255). -/
theorem checkRaster_ok {R : Raster dimBits} (h : WellFormedRaster R) : checkRaster Config.build R = .ok () := by
  have h1 : decide (R.n = R.width.toNat * R.height.toNat) = true := by simpa using h.count
  have h2 : checkDenom Config.build R.denom.toNat = .ok () := by
    have hb : (Config.build.denomMax : Int) = 65535 := rfl
    have := h.denom
    rw [checkDenom, hb, check_eq_ok, decide_eq_true_iff]
    omega
  have h3 : R.px.all (pixelWithin R.denom) = true := by
    rw [List.all_eq_true]
    intro x hx
    simp [pixelWithin, h.channels x hx]
  simp only [checkRaster, h1, h2, h3, check_true, ok_bind]

/-- The trimmed raster of a well-formed raster: its pixel at a row and column is the raster's (R254). -/
theorem trimmedPixels_ok {R : Raster dimBits} (h : WellFormedRaster R) {W' H' : Nat} (hW : W' ≤ R.width.toNat)
    (hH : H' ≤ R.height.toNat) :
    ∃ T, trimmedPixels R W' H' = .ok T ∧ T.length = W' * H' ∧
      ∀ row col, row < H' → col < W' → T[row * W' + col]? = R.px[row * R.width.toNat + col]? := by
  have hlt : ∀ row col, row < H' → col < W' → row * R.width.toNat + col < R.px.length := fun row col hr hc => by
    have := rowMajor_lt (W := R.width.toNat) (H := R.height.toNat) (lt_of_lt_of_le hr hH) (lt_of_lt_of_le hc hW)
    rwa [← h.count] at this
  obtain ⟨T, hT⟩ : ∃ T, trimmedPixels R W' H' = .ok T := collect_ok fun i hi => by
    have hpos : 0 < W' := Nat.pos_of_ne_zero fun h0 => by simp [h0] at hi
    have := hlt (i / W') (i % W') (Nat.div_lt_of_lt_mul hi) (Nat.mod_lt _ hpos)
    rw [Nat.zero_add]
    exact ⟨_, bufRead_eq_ok.2 (List.getElem?_eq_getElem this)⟩
  obtain ⟨hl, he⟩ := (collect_eq_ok _ _ _ _).1 hT
  refine ⟨T, hT, hl, fun row col hr hc => ?_⟩
  have hi : row * W' + col < T.length := by rw [hl]; exact rowMajor_lt hr hc
  have := he _ _ (List.getElem?_eq_getElem hi)
  rw [Nat.zero_add, bufRead_eq_ok, rowMajor_div hc, rowMajor_mod hc] at this
  rw [List.getElem?_eq_getElem hi, this]

end Sys2Proof.Machine
end

