-- ==== Sys2Proof/Tests/Slice0.lean ====
section
/-! SUPPORT. The model's own tests. Expected values are those of spec/95_test_vectors.md (the vector's name is in each
docstring) or of a rule's own example; each test runs one command or one step. Tests that involve the chroma codebook run
under Config.reference, the spec's CB_REF. The last part shows, for every statement with hypotheses, a state that meets
them. -/

namespace Sys2Proof.Tests

-- Each `decide +kernel` waits for the kernel on everything before it; one after another, they hold one thread.
set_option Elab.async false

open Sys2Proof.Machine

/-- The state after reset with some input ports written. -/
def written (l : List PortWrite) : State := l.foldl State.writeInput State.reset

/-- I[0], I[1], … written. -/
def ints (l : List Int) : List PortWrite :=
  (l.zip (List.finRange 6)).map fun p => .i p.2 (BitVec.ofInt 64 p.1)

/-- F[0], F[1], … written. -/
def floats (l : List F64) : List PortWrite :=
  (l.zip (List.finRange 12)).map fun p => .f p.2 p.1

/-- A pixel of three channels. -/
def px (r g b : Nat) : Pixel := ⟨BitVec.ofNat 32 r, BitVec.ofNat 32 g, BitVec.ofNat 32 b⟩

/-- The command ended in a next state with this STATUS, and `check` holds there. -/
def endsWith (o : Out) (status : Word32) (check : State → Bool) : Bool :=
  match o with
  | .next t => t.status == status && check t
  | .fault _ => false
  | .refused _ => false

/-- The valid values of the first `n` integer results, read as s64. -/
def riOf (n : Nat) (t : State) : List (Option Int) :=
  (t.ri.toList.take n).map fun p => if p.valid then some p.val.toInt else none

/-- The valid values of the first `n` float results. -/
def rfOf (n : Nat) (t : State) : List (Option F64) :=
  (t.rf.toList.take n).map fun p => if p.valid then some p.val else none

/-- The fault a step ended in. -/
def faultOf : Out → Option Fault
  | .fault f => some f
  | .next _ => none
  | .refused _ => none

/-- No result port is valid. -/
def noResult (t : State) : Bool :=
  !(t.rw64.valid || t.rb.valid || t.ri.toList.any (·.valid) || t.rf.toList.any (·.valid) || t.rdimW.valid ||
    t.rdimH.valid || t.streamOut.valid || t.rasterOut.valid)

/-! ### Well-formedness: each check refuses an ill-formed term -/

theorem test_width_out_of_field : (Instr.fitsU 128).wellFormed = false := by decide
theorem test_lsb_out_of_field : (Instr.insertS 5 128).wellFormed = false := by decide
theorem test_wellFormed_boundary : (Instr.extractU 127 127).wellFormed = true := by decide

/-! ### Decoding: words written out bit by bit from R90 and R92 -/

/-- T-CE1, T-CE2, T-CE3, T-CE4, T-CE5, T-CE6. -/
theorem test_decode_bitfield :
    decode 0b0000000000_0000000_0001001_00000001#32 = .ok (.fitsU 9) ∧
    decode 0b0000000000_0000000_0000101_00000010#32 = .ok (.fitsS 5) ∧
    decode 0b0000000000_0010111_0001001_00000011#32 = .ok (.extractU 9 23) ∧
    decode 0b0000000000_0010010_0000101_00000100#32 = .ok (.extractS 5 18) ∧
    decode 0b0000000000_0010111_0001001_00000101#32 = .ok (.insertU 9 23) ∧
    decode 0b0000000000_0010010_0000101_00000110#32 = .ok (.insertS 5 18) := by decide

/-- T-CE11. -/
theorem test_decode_colour :
    decode 0b0000000000_0000000_0000000_00010000#32 = .ok .rgbToNorm ∧
    decode 0b0000000000_0000000_0000000_00010001#32 = .ok .normToYpbpr ∧
    decode 0b0000000000_0000000_0000000_00010010#32 = .ok .ypbprToNorm ∧
    decode 0b0000000000_0000000_0000000_00010011#32 = .ok .normToRgb := by decide

/-- T-CE12. -/
theorem test_decode_block :
    decode 0b0000000000_0000000_0000000_00100000#32 = .ok .blkFwd ∧
    decode 0b0000000000_0000000_0000000_00100001#32 = .ok .blkInv := by decide

/-- T-CE13. -/
theorem test_decode_quantizer :
    decode 0b0000000000_0000000_0000000_00110000#32 = .ok .quantA ∧
    decode 0b0000000000_0000000_0000000_00110001#32 = .ok .quantBcd ∧
    decode 0b0000000000_0000000_0000000_00110010#32 = .ok .chromaQ ∧
    decode 0b0000000000_0000000_0000000_00110011#32 = .ok .chromaDq ∧
    decode 0b0000000000_0000000_0000000_00110100#32 = .ok .dequantA ∧
    decode 0b0000000000_0000000_0000000_00110101#32 = .ok .dequantBcd ∧
    decode 0b0000000000_0000000_0000000_00110110#32 = .ok .blkQuant ∧
    decode 0b0000000000_0000000_0000000_00110111#32 = .ok .blkDequant := by decide

/-- T-CE14, T-CE15. -/
theorem test_decode_packer_pipeline :
    decode 0b0000000000_0000000_0000000_01000000#32 = .ok .pack ∧
    decode 0b0000000000_0000000_0000000_01000001#32 = .ok .unpack ∧
    decode 0b0000000000_0000000_0000000_01010000#32 = .ok .trim ∧
    decode 0b0000000000_0000000_0000000_01010001#32 = .ok .blockCount ∧
    decode 0b0000000000_0000000_0000000_01010010#32 = .ok .blockMap ∧
    decode 0b0000000000_0000000_0000000_01010011#32 = .ok .compress ∧
    decode 0b0000000000_0000000_0000000_01010100#32 = .ok .decompress := by decide

/-- T-CE16, T-CE17: immediates above 64 decode (R95). -/
theorem test_decode_wide : decode 0x00004103#32 = .ok (.extractU 65 0) ∧ decode 0x00200103#32 = .ok (.extractU 1 64) := by
  decide

/-- T-CE20 to T-CE24. -/
theorem test_decode_illegal :
    [0x00#32, 0x07#32, 0x14#32, 0x22#32, 0x38#32, 0x42#32, 0x55#32, 0xFF#32].map decode =
      List.replicate 8 (.error .unknownOpcode) ∧
    decode 0x00000140#32 = .error .immediateNotZero ∧ decode 0x00008901#32 = .error .lsbNotZero ∧
    decode 0x00400040#32 = .error .reservedBits := by decide +kernel

/-- T-CE3, T-CE8 and T-CE14 from the other side. -/
theorem test_encode :
    encode (.extractU 9 23) = 0x000B8903#32 ∧ encode (.insertS 5 8) = 0x00040506#32 ∧ encode .pack = 0x00000040#32 := by
  decide

/-- The host's numbering: one 32-bit word a command. -/
theorem test_decodeTableWord : decodeTableWord 32 0x000B8905 = some (.insertU 9 23) ∧ decodeTableWord 32 0 = none := by
  decide

/-! ### Binary64 -/

/-- 0.1 + 0.2 is 0.30000000000000004, and 1 / 255 is 0.00392156862745098 (T-CO2). -/
theorem test_binary64 :
    F64.add ⟨0x3FB999999999999A#64⟩ ⟨0x3FC999999999999A#64⟩ = ⟨0x3FD3333333333334#64⟩ ∧ F64.div (F64.ofInt 1) (F64.ofInt 255) = ⟨0x3F70101010101010#64⟩ := by decide +kernel

/-- D3: a tie rounds away from zero (2.5 to 3, -0.5 to -1). -/
theorem test_round_ties : F64.round ⟨0x4004000000000000#64⟩ = 3 ∧ F64.round ⟨0xBFE0000000000000#64⟩ = -1 := by decide +kernel

/-- R218's codebook conforms (R202), and a codebook of equal levels does not. -/
theorem test_codebook_conformance :
    codebookConforms .binary64 fDomainMaxDefault cbRef = true ∧
    codebookConforms .binary64 fDomainMaxDefault (Vector.replicate 16 ⟨0⟩) = false := by decide +kernel

/-! ### The parameters of R9 -/

/-- A quotient rounded to the nearest integer, ties to even: the other ROUND of D3. -/
def roundHalfEven (n : Int) (d : Nat) : Int :=
  if n < 0 then -(F64.roundQuotient n.natAbs d : Int) else F64.roundQuotient n.natAbs d

/-- D3: 0.01 * 50.0 = 0.5 exactly, which gives 1 under the default ROUND and 0 under ties to even. -/
theorem test_round_parameter :
    endsWith (exec .quantBcd (written (floats [⟨0x3F847AE147AE147B#64⟩]))) 0x00000FF0#32 (fun t => riOf 1 t == [some 1]) ∧
    endsWith (execUnder { Config.reference with rounding := roundHalfEven } .quantBcd
      (written (floats [⟨0x3F847AE147AE147B#64⟩]))) 0x00000FF0#32 (fun t => riOf 1 t == [some 0]) := by decide +kernel

/-- A NUMERIC that is not binary64: 64-bit two's complement with 16 fraction bits. -/
def fixed16 : Numeric where
  isFinite _ := true
  val x := x.bits.toInt
  one := 2 ^ 16
  one_pos := by decide
  add x y := ⟨x.bits + y.bits⟩
  sub x y := ⟨x.bits - y.bits⟩
  mul x y := ⟨BitVec.ofInt 64 (x.bits.toInt * y.bits.toInt / 2 ^ 16)⟩
  div x y := ⟨BitVec.ofInt 64 (x.bits.toInt * 2 ^ 16 / y.bits.toInt)⟩
  ofInt n := ⟨BitVec.ofInt 64 (n * 2 ^ 16)⟩
  literal n d := ⟨BitVec.ofInt 64 (n * 2 ^ 16 / d)⟩

/-- S13: R200's formula in that format, on 0.5 and by hand: 0.5 * 511 = 255.5 exactly, a tie, to 256. -/
theorem test_numeric_parameter :
    endsWith (execUnder { Config.reference with numeric := fixed16 } .quantA (written (floats [⟨0x8000#64⟩]))) 0x00000FF0#32
      (fun t => riOf 1 t == [some 256]) = true := by decide +kernel

/-- R250 at DIM_BITS = 8, the largest width and an odd height by hand. -/
theorem test_dim_bits_parameter :
    (match execUnder Config.build .trim ((State.resetAt 8).writeInput (.dimW 255#8) |>.writeInput (.dimH 3#8)) with
      | .next t => t.rdimW == ⟨254#8, true⟩ && t.rdimH == ⟨2#8, true⟩
      | .fault _ => false
      | .refused _ => false) = true := by decide +kernel

/-! ### Commands -/

/-- T-BF: 512 does not fit 9 bits (R137). -/
theorem test_fitsU :
    endsWith (exec (.fitsU 9) (written ([.v64 512#64]))) 0x00000FF0#32
      (fun t => t.rb == ⟨false, true⟩) = true := by decide +kernel

/-- T-BF22. -/
theorem test_fitsU_bounds :
    endsWith (exec (.fitsU 65) (written ([.v64 0#64]))) 0x00000FF3#32
      (fun t => noResult t) = true := by decide +kernel

/-- T-BF21: -2^63 fits 64 bits signed. -/
theorem test_fitsS :
    endsWith (exec (.fitsS 64) (written ([.v64 0x8000000000000000#64]))) 0x00000FF0#32
      (fun t => t.rb == ⟨true, true⟩) = true := by decide +kernel

/-- L1-3: 16 does not fit 5 bits signed. -/
theorem test_fitsS_above :
    endsWith (exec (.fitsS 5) (written ([.v64 16#64]))) 0x00000FF0#32
      (fun t => t.rb == ⟨false, true⟩) = true := by decide +kernel

/-- T-BF1. -/
theorem test_extractU :
    endsWith (exec (.extractU 9 23) (written ([.w64 0x9658AC39#64]))) 0x00000FF0#32
      (fun t => t.rw64 == ⟨0x12C#64, true⟩) = true := by decide +kernel

/-- T-BF18. -/
theorem test_extractU_empty :
    endsWith (exec (.extractU 0 64) (written ([.w64 0x123#64]))) 0x00000FF0#32
      (fun t => t.rw64 == ⟨0#64, true⟩) = true := by decide +kernel

/-- T-BF3. -/
theorem test_extractS :
    endsWith (exec (.extractS 5 18) (written ([.w64 0x9658AC39#64]))) 0x00000FF0#32
      (fun t => t.rw64 == ⟨0xFFFFFFFFFFFFFFF6#64, true⟩) = true := by decide +kernel

/-- T-BF7. -/
theorem test_extractS_top :
    endsWith (exec (.extractS 1 63) (written ([.w64 0x8000000000000000#64]))) 0x00000FF0#32
      (fun t => t.rw64 == ⟨0xFFFFFFFFFFFFFFFF#64, true⟩) = true := by decide +kernel

/-- T-BF9. -/
theorem test_insertU :
    endsWith (exec (.insertU 9 23) (written ([.w64 0xFFFFFFFFFFFFFFFF#64, .v64 0#64]))) 0x00000FF0#32
      (fun t => t.rw64 == ⟨0xFFFFFFFF007FFFFF#64, true⟩) = true := by decide +kernel

/-- T-BF15. -/
theorem test_insertU_range :
    endsWith (exec (.insertU 9 23) (written ([.w64 0#64, .v64 512#64]))) 0x00000FF1#32
      (fun t => noResult t) = true := by decide +kernel

/-- L1-4. -/
theorem test_insertS :
    endsWith (exec (.insertS 5 18) (written ([.w64 0xFFFFFFFFFFFFFFFF#64, .v64 0xFFFFFFFFFFFFFFF0#64]))) 0x00000FF0#32
      (fun t => t.rw64 == ⟨0xFFFFFFFFFFC3FFFF#64, true⟩) = true := by decide +kernel

/-- T-BF17: the bounds come before the range. -/
theorem test_insertS_bounds_first :
    endsWith (exec (.insertS 5 60) (written ([.w64 0#64, .v64 16#64]))) 0x00000FF3#32
      (fun t => noResult t) = true := by decide +kernel

/-- T-CO1. -/
theorem test_rgbToNorm :
    endsWith (exec .rgbToNorm (written (ints [255, 128, 0, 255]))) 0x00000FF0#32
      (fun t => rfOf 3 t == [some ⟨0x3FF0000000000000#64⟩, some ⟨0x3FE0101010101010#64⟩, some ⟨0x0000000000000000#64⟩]) = true := by decide +kernel

/-- T-CO6. -/
theorem test_rgbToNorm_channel :
    endsWith (exec .rgbToNorm (written (ints [0, 256, 0, 255]))) 0x000004F2#32
      (fun t => noResult t) = true := by decide +kernel

/-- T-CO12. -/
theorem test_normToYpbpr :
    endsWith (exec .normToYpbpr (written (floats [⟨0x3FF0000000000000#64⟩, ⟨0x3FE0101010101010#64⟩, ⟨0x0000000000000000#64⟩]))) 0x00000FF0#32
      (fun t => rfOf 3 t == [some ⟨0x3FE2FF305740B98E#64⟩, some ⟨0xBFD570ED65862937#64⟩, some ⟨0x3FD28CA847E097B4#64⟩]) = true := by decide +kernel

/-- T-CO24: 2^20 + 1 is out of the domain. -/
theorem test_normToYpbpr_domain :
    endsWith (exec .normToYpbpr (written (floats [⟨0x4130000100000000#64⟩, ⟨0x0000000000000000#64⟩, ⟨0x0000000000000000#64⟩]))) 0x00000FF5#32
      (fun t => noResult t) = true := by decide +kernel

/-- T-CO13. -/
theorem test_ypbprToNorm :
    endsWith (exec .ypbprToNorm (written (floats [⟨0x3FD322D0E5604189#64⟩, ⟨0xBFC5992428D434A0#64⟩, ⟨0x3FE0000000000000#64⟩]))) 0x00000FF0#32
      (fun t => rfOf 3 t == [some ⟨0x3FF0000000000000#64⟩, some ⟨0x3E81BAC8B4200000#64⟩, some ⟨0xBE89C511DC400000#64⟩]) = true := by decide +kernel

/-- T-CO20. -/
theorem test_normToRgb :
    endsWith (exec .normToRgb (written (floats [⟨0x3FF8000000000000#64⟩, ⟨0xBFC999999999999A#64⟩, ⟨0x3FE0000000000000#64⟩] ++ [.i 3 255#64]))) 0x00000FF0#32
      (fun t => riOf 3 t == [some (255), some (0), some (128)]) = true := by decide +kernel

/-- T-CO22: NUMERIC_DOMAIN comes before the denominator. -/
theorem test_normToRgb_order :
    endsWith (exec .normToRgb (written (floats [⟨0x7FF8000000000000#64⟩, ⟨0#64⟩, ⟨0#64⟩] ++ [.i 3 0#64]))) 0x00000FF5#32
      noResult = true := by decide +kernel

/-- T-BT1. -/
theorem test_blkFwd :
    endsWith (exec .blkFwd (written (floats [⟨0x3FD0000000000000#64⟩, ⟨0x3FB999999999999A#64⟩, ⟨0x0000000000000000#64⟩, ⟨0x3FE0000000000000#64⟩, ⟨0xBFC999999999999A#64⟩, ⟨0x0000000000000000#64⟩, ⟨0x3FE8000000000000#64⟩, ⟨0x3FD3333333333333#64⟩, ⟨0x0000000000000000#64⟩, ⟨0x3FF0000000000000#64⟩, ⟨0x3FA999999999999A#64⟩, ⟨0x3FD999999999999A#64⟩]))) 0x00000FF0#32
      (fun t => rfOf 6 t == [some ⟨0x3FE4000000000000#64⟩, some ⟨0x3FD0000000000000#64⟩, some ⟨0x3FC0000000000000#64⟩, some ⟨0x0000000000000000#64⟩, some ⟨0x3FB0000000000000#64⟩, some ⟨0x3FB999999999999A#64⟩]) = true := by decide +kernel

/-- T-BT7. -/
theorem test_blkInv :
    endsWith (exec .blkInv (written (floats [⟨0x3FE0000000000000#64⟩, ⟨0xBFD3333333333333#64⟩, ⟨0x3FD3333333333333#64⟩, ⟨0x0000000000000000#64⟩, ⟨0x3FB999999999999A#64⟩, ⟨0xBFC999999999999A#64⟩]))) 0x00000FF0#32
      (fun t => rfOf 12 t == [some ⟨0x3FE0000000000000#64⟩, some ⟨0x3FB999999999999A#64⟩, some ⟨0xBFC999999999999A#64⟩, some ⟨0x3FF199999999999A#64⟩, some ⟨0x3FB999999999999A#64⟩, some ⟨0xBFC999999999999A#64⟩, some ⟨0xBFB9999999999998#64⟩, some ⟨0x3FB999999999999A#64⟩, some ⟨0xBFC999999999999A#64⟩, some ⟨0x3FE0000000000000#64⟩, some ⟨0x3FB999999999999A#64⟩, some ⟨0xBFC999999999999A#64⟩]) = true := by decide +kernel

/-- T-Q4. -/
theorem test_quantA :
    endsWith (exec .quantA (written (floats [⟨0x3FDFFFFFFFFFFFFF#64⟩]))) 0x00000FF0#32
      (fun t => riOf 1 t == [some (255)]) = true := by decide +kernel

/-- T-Q10: minus infinity. -/
theorem test_quantA_infinite :
    endsWith (exec .quantA (written (floats [⟨0xFFF0000000000000#64⟩]))) 0x00000FF5#32
      (fun t => noResult t) = true := by decide +kernel

/-- T-Q7: a tie away from zero. -/
theorem test_quantBcd :
    endsWith (exec .quantBcd (written (floats [⟨0xBFA999999999999A#64⟩]))) 0x00000FF0#32
      (fun t => riOf 1 t == [some (-3)]) = true := by decide +kernel

/-- T-Q8. -/
theorem test_quantBcd_saturates :
    endsWith (exec .quantBcd (written (floats [⟨0x3FE0000000000000#64⟩]))) 0x00000FF0#32
      (fun t => riOf 1 t == [some (15)]) = true := by decide +kernel

/-- T-Q12: a tie takes the lower index. -/
theorem test_chromaQ_tie :
    endsWith (execUnder Config.reference .chromaQ (written (floats [⟨0x3FA0000000000000#64⟩]))) 0x00000FF0#32
      (fun t => riOf 1 t == [some (8)]) = true := by decide +kernel

/-- T-Q13: above the last level. -/
theorem test_chromaQ_above :
    endsWith (execUnder Config.reference .chromaQ (written (floats [⟨0x3FF0000000000000#64⟩]))) 0x00000FF0#32
      (fun t => riOf 1 t == [some (15)]) = true := by decide +kernel

/-- T-Q14. -/
theorem test_chromaDq :
    endsWith (execUnder Config.reference .chromaDq (written (ints [15]))) 0x00000FF0#32
      (fun t => rfOf 1 t == [some ⟨0x3FDC000000000000#64⟩]) = true := by decide +kernel

/-- T-Q15. -/
theorem test_chromaDq_range :
    endsWith (exec .chromaDq (written (ints [-1]))) 0x000005F2#32
      (fun t => noResult t) = true := by decide +kernel

/-- T-Q16. -/
theorem test_dequantA :
    endsWith (exec .dequantA (written (ints [300]))) 0x00000FF0#32
      (fun t => rfOf 1 t == [some ⟨0x3FE2C964B2592C96#64⟩]) = true := by decide +kernel

/-- T-Q17. -/
theorem test_dequantA_range :
    endsWith (exec .dequantA (written (ints [512]))) 0x000005F2#32
      (fun t => noResult t) = true := by decide +kernel

/-- T-Q18: -16 is a field value. -/
theorem test_dequantBcd :
    endsWith (exec .dequantBcd (written (ints [-16]))) 0x00000FF0#32
      (fun t => rfOf 1 t == [some ⟨0xBFD47AE147AE147B#64⟩]) = true := by decide +kernel

/-- T-Q22. -/
theorem test_blkQuant :
    endsWith (execUnder Config.reference .blkQuant (written (floats [⟨0x3FDFFFFFFFFFFFFF#64⟩, ⟨0x3FAD2F1A9FBE76C6#64⟩, ⟨0x3FD2C8B439581062#64⟩, ⟨0x3FC322D0E5604188#64⟩, ⟨0x0000000000000000#64⟩, ⟨0x0000000000000000#64⟩]))) 0x00000FF0#32
      (fun t => riOf 6 t == [some (255), some (3), some (15), some (7), some (8), some (8)]) = true := by decide +kernel

/-- T-Q23. -/
theorem test_blkDequant :
    endsWith (execUnder Config.reference .blkDequant (written (ints [300, -10, 5, 12, 3, 9]))) 0x00000FF0#32
      (fun t => rfOf 6 t == [some ⟨0x3FE2C964B2592C96#64⟩, some ⟨0xBFC999999999999A#64⟩, some ⟨0x3FB999999999999A#64⟩, some ⟨0x3FCEB851EB851EB8#64⟩, some ⟨0xBFD4000000000000#64⟩, some ⟨0x3FB0000000000000#64⟩]) = true := by decide +kernel

/-- T-Q25. -/
theorem test_blkDequant_range :
    endsWith (exec .blkDequant (written (ints [0, -17, 0, 0, 0, 0]))) 0x000005F2#32
      (fun t => noResult t) = true := by decide +kernel

/-- T-PK1. -/
theorem test_pack :
    endsWith (exec .pack (written (ints [300, -10, 5, 12, 3, 9]))) 0x00000FF0#32
      (fun t => t.rw64 == ⟨0x000000009658AC39#64, true⟩) = true := by decide +kernel

/-- T-PK14: the first failing field is reported. -/
theorem test_pack_first_field :
    endsWith (exec .pack (written (ints [512, 16, 0, 0, 0, 0]))) 0x00000F01#32
      (fun t => noResult t) = true := by decide +kernel

/-- T-PK16. -/
theorem test_unpack :
    endsWith (exec .unpack (written ([.w64 0x7FFFFFFF#64]))) 0x00000FF0#32
      (fun t => riOf 6 t == [some (255), some (-1), some (-1), some (-1), some (15), some (15)]) = true := by decide +kernel

/-- T-PK19. -/
theorem test_unpack_upper :
    endsWith (exec .unpack (written ([.w64 0x0000000100000000#64]))) 0x000006F2#32
      (fun t => noResult t) = true := by decide +kernel

/-- T-PL1. -/
theorem test_trim :
    endsWith (exec .trim (written ([.dimW 4294967295#32, .dimH 7#32]))) 0x00000FF0#32
      (fun t => t.rdimW == ⟨4294967294#32, true⟩ && t.rdimH == ⟨6#32, true⟩) = true := by decide +kernel

/-- R260: (2^31 - 1)^2 blocks. -/
theorem test_blockCount :
    endsWith (exec .blockCount (written ([.dimW 4294967294#32, .dimH 4294967294#32]))) 0x00000FF0#32
      (fun t => t.rw64 == ⟨4611686014132420609#64, true⟩) = true := by decide +kernel

/-- T-PL3. -/
theorem test_blockCount_odd :
    endsWith (exec .blockCount (written ([.dimW 5#32, .dimH 4#32]))) 0x000001F2#32
      (fun t => noResult t) = true := by decide +kernel

/-- T-PL4. -/
theorem test_blockMap :
    endsWith (exec .blockMap (written ([.dimW 6#32, .dimH 4#32, .i 0 5#64]))) 0x00000FF0#32
      (fun t => riOf 4 t == [some (16), some (17), some (22), some (23)]) = true := by decide +kernel

/-- T-PL7. -/
theorem test_blockMap_index :
    endsWith (exec .blockMap (written ([.dimW 4#32, .dimH 4#32, .i 0 4#64]))) 0x000007F2#32
      (fun t => noResult t) = true := by decide +kernel

/-- T-PL9. -/
theorem test_compress :
    endsWith (execUnder Config.reference .compress (written ([.rasterIn ⟨2#32, 2#32, 255#32, [px 255 0 0, px 0 255 0, px 0 0 255, px 255 255 255]⟩]))) 0x00000FF0#32
      (fun t => t.streamOut == ⟨[0x7F8DE788#32], true⟩ && t.rdimW == ⟨2#32, true⟩) = true := by decide +kernel

/-- T-PL15. -/
theorem test_compress_channel :
    endsWith (exec .compress (written ([.rasterIn ⟨2#32, 2#32, 255#32, [px 0 0 0, px 0 0 0, px 0 0 256, px 0 0 0]⟩]))) 0x000004F2#32
      (fun t => noResult t) = true := by decide +kernel

/-- T-PL20. -/
theorem test_decompress :
    endsWith (execUnder Config.reference .decompress (written ([.streamIn [0x9658AC39#32], .dimW 2#32, .dimH 2#32]))) 0x00000FF0#32
      (fun t => t.rasterOut == ⟨⟨2#32, 2#32, 255#32, [px 255 252 95, px 187 181 24, px 34 28 0, px 208 201 44]⟩, true⟩) = true := by decide +kernel

/-- T-PL24. -/
theorem test_decompress_count :
    endsWith (exec .decompress (written ([.streamIn [0#32, 0#32, 0#32], .dimW 4#32, .dimH 4#32]))) 0x000000F2#32
      (fun t => noResult t) = true := by decide +kernel

/-! ### Steps and faults -/

/-- T-ST1: RD STATUS after reset. -/
theorem test_status_after_reset :
    endsWith (step { State.reset with script := [.read .status] }) 0x00000FF7#32
      (fun t => t.reads == [.status 0x00000FF7#32] && t.script == []) = true := by decide +kernel

/-- T-ST2, T-ST5: reads that fault. -/
theorem test_faulting_reads :
    faultOf (step { State.reset with script := [.read (.port .rw64)] }) = some .invalidResultRead ∧
    faultOf (step { State.reset with script := [.read .cmd] }) = some .cmdRead := by decide +kernel

/-- T-ST3: BLK_FWD with no F port written. -/
theorem test_unwritten_operand : faultOf (step (State.reset.withFetchWord 32 0x20)) = some .unwrittenOperand := by
  decide +kernel

/-- A word placed where the step takes its next command from runs at once (T-PL1). -/
theorem test_withFetchWord :
    endsWith (step ((written [.dimW 5#32, .dimH 3#32]).withFetchWord 32 0x50)) 0x00000FF0#32
      (fun t => t.rdimW == ⟨4#32, true⟩ && t.rdimH == ⟨2#32, true⟩) = true := by decide +kernel

/-- T-ST4: a word that does not decode clears the results of the command before it. -/
theorem test_illegal_clears_results :
    endsWith (step { State.reset with rw64 := ⟨5#64, true⟩, script := [.command 0#32] }) 0x00000FF4#32 noResult = true := by
  decide +kernel

/-- T-ST7: reset clears the valid bits of the input ports. -/
theorem test_reset_clears_inputs :
    endsWith (step { written [.i 0 7#64] with script := [.reset] }) 0x00000FF7#32 (fun t => !t.i[0].valid) = true := by
  decide +kernel

/-- The wire image of P3's stream: 46 1C 20 D6 61 1C 20 C6 (R66). -/
theorem test_wire_image :
    wireImage [0x461C20D6#32, 0x611C20C6#32] =
      [0x46#8, 0x1C#8, 0x20#8, 0xD6#8, 0x61#8, 0x1C#8, 0x20#8, 0xC6#8] := by decide
/-! ### Each statement's hypotheses can be met -/

/-- A command that ends with a next state, as an existential. -/
theorem next_of_endsWith {o : Out} {w : Word32} {c : State → Bool} (h : endsWith o w c = true) :
    ∃ t, o = .next t ∧ t.status = w ∧ c t = true := by
  cases o with
  | next t => exact ⟨t, rfl, by simpa [endsWith] using h⟩
  | fault f => simp [endsWith] at h
  | refused r => simp [endsWith] at h

/-- Float ports that are written and in the domain. -/
theorem floatsReady {n : Nat} {s : State}
    (h : ((List.finRange 12).all fun k =>
      decide (n ≤ k.val) || (s.f[k].valid && inDomain Config.build (s.flt k))) = true) :
    FloatPortsWritten n s ∧ FloatPortsInDomain n s := by
  rw [List.all_eq_true] at h
  have h' : ∀ k : Fin 12, k.val < n → s.f[k].valid = true ∧ inDomain Config.build (s.flt k) = true := by
    intro k hk
    have := h k (List.mem_finRange k)
    simpa [show ¬ n ≤ k.val by omega] using this
  exact ⟨fun k hk => (h' k hk).1, fun k hk => (inDomain_iff _).1 (h' k hk).2⟩

/-- A float port out of the domain. -/
theorem floatsNotReady {n : Nat} {s : State} {k : Fin 12} (hk : k.val < n)
    (h : inDomain Config.build (s.flt k) = false) : ¬ FloatPortsInDomain n s := by
  intro hd
  rw [(inDomain_iff _).2 (hd k hk)] at h
  exact absurd h (by decide)

/-- Twelve float ports written with 1.0. -/
def ones : State := written (floats (List.replicate 12 ⟨0x3FF0000000000000#64⟩))

/-- Twelve float ports written, the first with a NaN, and a denominator of 0. -/
def nan : State :=
  written (floats (⟨0x7FF8000000000000#64⟩ :: List.replicate 11 ⟨0x3FF0000000000000#64⟩) ++ [.i 3 0#64])

theorem ones_ready (n : Nat) : FloatPortsWritten n ones ∧ FloatPortsInDomain n ones :=
  ⟨fun k _ => (floatsReady (n := 12) (by decide +kernel)).1 k k.isLt,
   fun k _ => (floatsReady (n := 12) (by decide +kernel)).2 k k.isLt⟩

theorem nan_ready (n : Nat) : FloatPortsWritten n nan := by
  have h : ∀ k : Fin 12, nan.f[k].valid = true := by decide +kernel
  exact fun k _ => h k

theorem nan_notReady {n : Nat} (hn : 0 < n) : ¬ FloatPortsInDomain n nan :=
  floatsNotReady (k := 0) hn (by decide +kernel)

theorem witness_DecodeOfEncode :
    (Instr.insertS 127 127).wellFormed = true ∧ (Instr.fitsU 0).wellFormed = true ∧ Instr.pack.wellFormed = true := by
  decide

theorem witness_EncodeOfDecode : decode 0x000B8905#32 = .ok (.insertU 9 23) ∧ encode (.insertU 9 23) = 0x000B8905#32 := by
  decide

/-- Both clauses of StepRunsDecodedCommand: a command word next in the host's program, and one in CMD. -/
theorem witness_StepRunsDecodedCommand :
    ({ State.reset with script := [.command 0x00000050#32] } : State).cmd = none ∧
    ({ State.reset with script := [.command 0x00000050#32] } : State).script = .command 0x00000050#32 :: [] ∧
    (State.reset.withFetchWord 32 0x50).cmd = some 0x00000050#32 ∧
    decode 0x00000050#32 = .ok .trim := ⟨rfl, rfl, by decide, by decide⟩

theorem witness_StepRejectsIllegalWord :
    ({ State.reset with script := [.command 0#32] } : State).cmd = none ∧
    ({ State.reset with script := [.command 0#32] } : State).script = .command 0#32 :: [] ∧
    decode 0#32 = .error .unknownOpcode := ⟨rfl, rfl, by decide⟩

/-- One state for each clause of StepHostWrites. -/
theorem witness_StepHostWrites :
    ∀ a ∈ [HostAction.write (.w64 0#64), .write (.v64 0#64), .write (.i 5 0#64), .write (.f 11 ⟨0#64⟩), .write (.dimW 0#32),
        .write (.dimH 0#32), .write (.rasterIn ⟨0#32, 0#32, 0#32, []⟩), .write (.streamIn []),
        .writeIgnored (.status 0#32)],
      ({ State.reset with script := [a] } : State).cmd = none ∧
      ({ State.reset with script := [a] } : State).script = a :: [] := fun _ _ => ⟨rfl, rfl⟩

/-- A state with every result port valid. -/
def allValid : State :=
  { State.reset with
    rw64 := ⟨1#64, true⟩
    rb := ⟨true, true⟩
    ri := Vector.replicate 6 ⟨2#64, true⟩
    rf := Vector.replicate 12 ⟨⟨3#64⟩, true⟩
    rdimW := ⟨4#32, true⟩
    rdimH := ⟨6#32, true⟩
    streamOut := ⟨[7#32], true⟩
    rasterOut := ⟨⟨0#32, 0#32, 255#32, []⟩, true⟩ }

/-- StepHostReads, clause by clause: every port valid, every port invalid, and each read next in the host's program. -/
theorem witness_StepHostReads :
    (∀ (s : State) (r : ReadTarget), ({ s with script := [.read r] } : State).script = .read r :: []) ∧
    allValid.cmd = none ∧ State.reset.cmd = none ∧
    (∀ p, State.outValid { allValid with script := [.read (.port p)] } p = true) ∧
    (∀ p, State.outValid { State.reset with script := [.read (.port p)] } p = false) :=
  ⟨fun _ _ => rfl, rfl, rfl, fun p => by cases p <;> simp [State.outValid, allValid],
   fun p => by cases p <;> simp [State.outValid, State.reset, State.resetAt, Port.empty]⟩

theorem witness_StepReset :
    ({ State.reset with script := [.reset] } : State).cmd = none ∧
    ({ State.reset with script := [.reset] } : State).script = .reset :: [] := ⟨rfl, rfl⟩

/-- A state after a successful command, about to run another. -/
def beforeTrim : State :=
  { written [.dimW 5#32, .dimH 3#32] with status := 0x00000FF0#32, rw64 := ⟨7#64, true⟩, script := [.command 0x50#32] }

theorem witness_InvKeptByStep : Inv beforeTrim ∧ ∃ t, step beforeTrim = .next t := by
  refine ⟨⟨rfl, ⟨by decide, by decide, by decide, by decide⟩, fun h => absurd rfl h⟩, ?_⟩
  obtain ⟨t, ht, -⟩ := next_of_endsWith (o := step beforeTrim) (w := 0x00000FF0#32)
    (c := fun t => t.rdimW == ⟨4#32, true⟩) (by decide +kernel)
  exact ⟨t, ht⟩

/-- A command that completes and one that ends with an error: both cases of CommandResultsExactly, and the hypothesis of
CommandsKeepInputs. -/
theorem witness_command_ends :
    (∃ t, exec .trim (written [.dimW 5#32, .dimH 3#32]) = .next t ∧ t.status = 0x00000FF0#32) ∧
    (∃ t, exec .blockCount (written [.dimW 5#32, .dimH 3#32]) = .next t ∧ t.status = 0x000001F2#32) := by
  constructor
  · obtain ⟨t, h1, h2, -⟩ := next_of_endsWith (o := exec .trim (written [.dimW 5#32, .dimH 3#32])) (w := 0x00000FF0#32)
      (c := fun _ => true) (by decide +kernel)
    exact ⟨t, h1, h2⟩
  · obtain ⟨t, h1, h2, -⟩ := next_of_endsWith (o := exec .blockCount (written [.dimW 5#32, .dimH 3#32]))
      (w := 0x000001F2#32) (c := fun _ => true) (by decide +kernel)
    exact ⟨t, h1, h2⟩

theorem witness_CommandsStopOnlyOnUnwrittenOperands :
    (∃ p ∈ operandPorts .blockMap, (written [.dimW 6#32, .dimH 4#32]).inValid p = false) ∧
    (∀ p ∈ operandPorts .blockMap, (written [.dimW 6#32, .dimH 4#32, .i 0 5#64]).inValid p = true) := by
  refine ⟨⟨.i 0, by decide, by decide +kernel⟩, fun p hp => ?_⟩
  simp only [operandPorts, List.mem_cons, List.not_mem_nil, or_false] at hp
  rcases hp with rfl | rfl | rfl <;> decide +kernel

/-- Two different states that agree on TRIM's operands. -/
theorem witness_CommandsReadOnlyTheirOperands :
    (∀ p ∈ operandPorts .trim, p.Agree (written [.dimW 5#32, .dimH 3#32]) (written [.dimW 5#32, .dimH 3#32, .w64 9#64])) ∧
    (written [.dimW 5#32, .dimH 3#32]).w64 ≠ (written [.dimW 5#32, .dimH 3#32, .w64 9#64]).w64 := by
  refine ⟨fun p hp => ?_, by decide +kernel⟩
  simp only [operandPorts, List.mem_cons, List.not_mem_nil, or_false] at hp
  rcases hp with rfl | rfl <;> rfl

/-- A state that shows a finite RF[0] (1.0), about to run DEQUANT_A (opcode 0x34). -/
def beforeDequantA : State :=
  { written (ints [300]) with
    rf := (written (ints [300])).rf.set 0 ⟨⟨0x3FF0000000000000#64⟩, true⟩, script := [.command 0x34#32] }

/-- Both clauses of FloatResultsAreFinite, with a valid RF[0] before and after. -/
theorem witness_FloatResultsAreFinite :
    FloatResultsFinite beforeDequantA ∧ beforeDequantA.rf[0].valid = true ∧
    (∃ t, step beforeDequantA = .next t ∧ t.rf[0].valid = true) ∧
    (∃ t, exec .dequantA (written (ints [300])) = .next t ∧ t.rf[0].valid = true) := by
  refine ⟨by unfold FloatResultsFinite; decide +kernel, rfl, ?_, ?_⟩
  · obtain ⟨t, h1, -, h2⟩ := next_of_endsWith (o := step beforeDequantA) (w := 0x00000FF0#32)
      (c := fun t => t.rf[0].valid) (by decide +kernel)
    exact ⟨t, h1, h2⟩
  · obtain ⟨t, h1, -, h2⟩ := next_of_endsWith (o := exec .dequantA (written (ints [300]))) (w := 0x00000FF0#32)
      (c := fun t => t.rf[0].valid) (by decide +kernel)
    exact ⟨t, h1, h2⟩

/-- Both cases of NonconformingConfigurationRefused: the reference configuration meets every condition; DENOM_MAX = 0 and a
DEC_DENOM above DENOM_MAX fail one. -/
theorem witness_NonconformingConfigurationRefused :
    ((∀ k : Fin 16, Config.reference.numeric.isFinite Config.reference.codebook[k] = true) ∧
      (∀ k : Fin 16, |Config.reference.numeric.real Config.reference.codebook[k]| ≤ Config.reference.fDomainMax) ∧
      (∀ j k : Fin 16, j < k → Config.reference.numeric.real Config.reference.codebook[j] <
        Config.reference.numeric.real Config.reference.codebook[k])) ∧
    (1 ≤ Config.reference.denomMax ∧ Config.reference.denomMax ≤ 2 ^ 32 - 1) ∧
    (1 ≤ Config.reference.decDenom ∧ Config.reference.decDenom ≤ Config.reference.denomMax) ∧
    ¬ 1 ≤ ({ Config.reference with denomMax := 0 } : Params).denomMax ∧
    ¬ 65536 ≤ ({ Config.reference with decDenom := 65536 } : Params).denomMax :=
  ⟨(codebookConforms_iff _ _ _).1 (by decide +kernel), by decide, by decide, by decide, by decide⟩

theorem real_nonneg {x : F64} (h : 0 ≤ x.val) : 0 ≤ x.real := div_nonneg (Int.cast_nonneg h) F64.one_cast_pos.le

theorem real_neg {x : F64} (h : x.val < 0) : x.real < 0 := div_neg_of_neg_of_pos (Int.cast_lt_zero.2 h) F64.one_cast_pos

/-- Operands of AddSubCorrectlyRounded, MulCorrectlyRounded and DivCorrectlyRounded: the largest finite value and the
smallest subnormal, and two pairs with an exact sum and an exact difference of zero. -/
theorem witness_arithmetic :
    F64.isFinite ⟨0x7FEFFFFFFFFFFFFF#64⟩ = true ∧ F64.isFinite ⟨0x8000000000000001#64⟩ = true ∧
    (⟨0x8000000000000001#64⟩ : F64).real ≠ 0 ∧
    (⟨0x3FF0000000000000#64⟩ : F64).real + (⟨0xBFF0000000000000#64⟩ : F64).real = 0 ∧
    (⟨0x3FF0000000000000#64⟩ : F64).real - (⟨0x3FF0000000000000#64⟩ : F64).real = 0 := by
  refine ⟨by decide, by decide, (real_neg (by decide +kernel)).ne, ?_, sub_self _⟩
  have h : F64.val ⟨0xBFF0000000000000#64⟩ = -F64.val ⟨0x3FF0000000000000#64⟩ := by decide +kernel
  rw [F64.real, F64.real, h]
  push_cast
  ring

theorem witness_OfIntExact : |(2 ^ 53 - 1 : Int)| < 2 ^ 53 ∧ |(-(2 ^ 53 - 1) : Int)| < 2 ^ 53 := by
  constructor <;> decide

/-- Both signs of RoundAndClamp, and both zeros. -/
theorem witness_RoundAndClamp :
    F64.isFinite ⟨0x4004000000000000#64⟩ = true ∧ 0 ≤ (⟨0x4004000000000000#64⟩ : F64).real ∧
    F64.isFinite ⟨0xBFE0000000000000#64⟩ = true ∧ (⟨0xBFE0000000000000#64⟩ : F64).real < 0 ∧
    0 ≤ (⟨0#64⟩ : F64).real ∧ 0 ≤ (⟨0x8000000000000000#64⟩ : F64).real :=
  ⟨by decide, real_nonneg (by decide +kernel), by decide, real_neg (by decide +kernel), real_nonneg (by decide +kernel),
    real_nonneg (by decide +kernel)⟩

/-- FitsUnsigned and FitsSigned: a written V64, and a width on each side of each bound. -/
theorem witness_Fits :
    (written [.v64 512#64]).v64.valid = true ∧ (64 : Nat) ≤ 64 ∧ (64 : Nat) < 65 ∧ (1 : Nat) ≤ 1 := by decide +kernel

/-- ExtractUnsigned and ExtractSigned: a written W64, a field that ends at bit 63, an empty one at 64, one beyond. -/
theorem witness_Extract :
    (written [.w64 0x123#64]).w64.valid = true ∧ 1 + 63 ≤ 64 ∧ 0 + 64 ≤ 64 ∧ 64 < 1 + 64 := by decide +kernel

/-- InsertUnsigned and ExtractOfInsert: a value that fits exactly, and one that does not by one. -/
theorem witness_InsertUnsigned :
    (written [.w64 0#64, .v64 511#64]).w64.valid = true ∧ (written [.w64 0#64, .v64 511#64]).v64.valid = true ∧
    9 + 55 ≤ 64 ∧ (written [.w64 0#64, .v64 511#64]).v64.val.toNat < 2 ^ 9 ∧
    (written [.w64 0#64, .v64 512#64]).v64.valid = true ∧ 2 ^ 9 ≤ (written [.w64 0#64, .v64 512#64]).v64.val.toNat ∧
    64 < 9 + 56 := by decide +kernel

/-- InsertSigned and ExtractOfInsert: -16 fits five bits, 16 does not, and only 0 fits no bits. -/
theorem witness_InsertSigned :
    (written [.w64 0#64, .v64 (BitVec.ofInt 64 (-16))]).w64.valid = true ∧
    (written [.w64 0#64, .v64 (BitVec.ofInt 64 (-16))]).v64.valid = true ∧ 5 + 59 ≤ 64 ∧
    FitsS (written [.w64 0#64, .v64 (BitVec.ofInt 64 (-16))]).v64.val.toInt 5 ∧
    ¬ FitsS (written [.w64 0#64, .v64 16#64]).v64.val.toInt 5 ∧ FitsS 0 0 ∧ ¬ FitsS 1 0 := by
  unfold FitsS
  decide +kernel

/-- An input port can hold what a result port holds: the premises that chain two commands. -/
theorem witness_chained (t : State) :
    ({ t with w64 := t.rw64, i := t.ri, streamIn := t.streamOut, dimW := t.rdimW, dimH := t.rdimH } : State).w64 = t.rw64 ∧
    ({ t with w64 := t.rw64, i := t.ri, streamIn := t.streamOut, dimW := t.rdimW, dimH := t.rdimH } : State).i = t.ri ∧
    ({ t with w64 := t.rw64, i := t.ri, streamIn := t.streamOut, dimW := t.rdimW, dimH := t.rdimH } : State).streamIn =
      t.streamOut := ⟨rfl, rfl, rfl⟩

/-- PackLayout, PackUnpackInverse and BlockDequantizeIsItsParts: a record at the ends of its ranges. -/
theorem witness_PackLayout :
    IntPortsWritten (written (ints [511, -16, 15, 0, 15, 0])) ∧
    RecordInRange (written (ints [511, -16, 15, 0, 15, 0])).record := by
  unfold IntPortsWritten RecordInRange
  decide +kernel

/-- PackReportsFirstFailingField, clause by clause; the first record also meets BlockDequantizeIsItsParts' error clause. -/
theorem witness_PackReportsFirstFailingField :
    (∀ l ∈ [[512, 16, 0, 0, 0, 0], [511, 16, 0, 0, 0, 0], [0, -16, -17, 0, 0, 0], [0, 0, 15, 16, 0, 0], [0, 0, 0, -16, 16, 0],
        [0, 0, 0, 0, 15, -1]], ((List.finRange 6).all fun k => (written (ints l)).i[k].valid) = true) ∧
    ¬ (0 ≤ (written (ints [512, 16, 0, 0, 0, 0])).int 0 ∧ (written (ints [512, 16, 0, 0, 0, 0])).int 0 ≤ 511) ∧
    ((written (ints [511, 16, 0, 0, 0, 0])).int 0 ≤ 511 ∧ ¬ (written (ints [511, 16, 0, 0, 0, 0])).int 1 ≤ 15) ∧
    (-16 ≤ (written (ints [0, -16, -17, 0, 0, 0])).int 1 ∧ ¬ -16 ≤ (written (ints [0, -16, -17, 0, 0, 0])).int 2) ∧
    ((written (ints [0, 0, 15, 16, 0, 0])).int 2 ≤ 15 ∧ ¬ (written (ints [0, 0, 15, 16, 0, 0])).int 3 ≤ 15) ∧
    (-16 ≤ (written (ints [0, 0, 0, -16, 16, 0])).int 3 ∧ ¬ (written (ints [0, 0, 0, -16, 16, 0])).int 4 ≤ 15) ∧
    ((written (ints [0, 0, 0, 0, 15, -1])).int 4 ≤ 15 ∧ ¬ 0 ≤ (written (ints [0, 0, 0, 0, 15, -1])).int 5) := by
  decide +kernel

/-- UnpackFields and PackUnpackInverse: the largest packed word, and the smallest word that is none. -/
theorem witness_UnpackFields :
    (written [.w64 0xFFFFFFFF#64]).w64.valid = true ∧ (written [.w64 0xFFFFFFFF#64]).w64.val.toNat < 2 ^ 32 ∧
    2 ^ 32 ≤ (written [.w64 0x100000000#64]).w64.val.toNat := by decide +kernel

/-- RgbToNorm: channels at both ends of their range, a denominator above its range, and a channel above its own. -/
theorem witness_RgbToNorm :
    (∀ k : Fin 4, (written (ints [65535, 0, 1, 65535])).i[k.val].valid = true) ∧
    (written (ints [65535, 0, 1, 65535])).int 3 = 65535 ∧ (written (ints [65535, 0, 1, 65535])).int 0 = 65535 ∧
    (written (ints [0, 0, 0, 65536])).int 3 = 65536 ∧
    (written (ints [0, 0, 2, 1])).int 3 = 1 ∧ (written (ints [0, 0, 2, 1])).int 2 = 2 := by decide +kernel

/-- NormToYpbpr, YpbprToNorm, BlockForward, BlockInverse, QuantizeA, QuantizeBcd, ChromaQuantizeNearest and
BlockQuantizeIsItsParts: the float ports written and in the domain. -/
theorem witness_floats :
    (∀ n, FloatPortsWritten n ones ∧ FloatPortsInDomain n ones) ∧ ones.f[0].valid = true ∧ InDomain (ones.flt 0) :=
  ⟨ones_ready, by decide +kernel, (ones_ready 1).2 0 (by decide)⟩

/-- FloatCommandsCheckTheDomain: the float ports written, the first one not in the domain. -/
theorem witness_FloatCommandsCheckTheDomain :
    ∀ n ∈ [3, 12, 6, 1], FloatPortsWritten n nan ∧ ¬ FloatPortsInDomain n nan := by
  intro n hn
  refine ⟨nan_ready n, nan_notReady ?_⟩
  simp only [List.mem_cons, List.not_mem_nil, or_false] at hn
  omega

/-- NormToRgb, clause by clause: a denominator at its upper bound, a float out of the domain, a denominator of 0. -/
theorem witness_NormToRgb :
    (FloatPortsWritten 3 (written (floats [⟨0#64⟩, ⟨0#64⟩, ⟨0#64⟩] ++ [.i 3 65535#64])) ∧
      FloatPortsInDomain 3 (written (floats [⟨0#64⟩, ⟨0#64⟩, ⟨0#64⟩] ++ [.i 3 65535#64])) ∧
      (written (floats [⟨0#64⟩, ⟨0#64⟩, ⟨0#64⟩] ++ [.i 3 65535#64])).i[3] = ⟨65535#64, true⟩) ∧
    (FloatPortsWritten 3 nan ∧ ¬ FloatPortsInDomain 3 nan ∧ nan.i[3].valid = true) ∧
    (FloatPortsInDomain 3 (written (floats [⟨0#64⟩, ⟨0#64⟩, ⟨0#64⟩] ++ [.i 3 0#64])) ∧
      (written (floats [⟨0#64⟩, ⟨0#64⟩, ⟨0#64⟩] ++ [.i 3 0#64])).i[3] = ⟨0#64, true⟩) := by
  refine ⟨⟨?_, ?_, by decide +kernel⟩, ⟨nan_ready 3, nan_notReady (by decide), by decide +kernel⟩, ?_, by decide +kernel⟩
  · exact (floatsReady (by decide +kernel)).1
  · exact (floatsReady (by decide +kernel)).2
  · exact (floatsReady (by decide +kernel)).2

theorem witness_ChromaLevelsAreFixed :
    ({ State.reset with f := State.reset.f.set 0 ⟨Config.build.codebook[15], true⟩ } : State).f[0] =
      ⟨Config.build.codebook[15], true⟩ := by simp

/-- Dequantizers, clause by clause: each field's range at an end, and one beyond. -/
theorem witness_Dequantizers :
    (written (ints [15])).i[0].valid = true ∧ (written (ints [15])).int 0 = 15 ∧ (written (ints [16])).int 0 = 16 ∧
    (written (ints [511])).int 0 = 511 ∧ (written (ints [-1])).int 0 = -1 ∧ (written (ints [-16])).int 0 = -16 ∧
    (written (ints [-17])).int 0 = -17 := by decide +kernel

theorem witness_QuantizedRecordsPack : ∃ t, exec .blkQuant ones = .next t ∧ t.status = 0x00000FF0#32 := by
  obtain ⟨t, h1, h2⟩ := exec_succeeds (i := .blkQuant) (s := ones)
    (r := { ri := recordPorts (blockQuantize Config.build ones.coeffs) })
    (by decide +kernel) (by
      simp only [commandCalc, blkQuantCalc]
      rw [checkFloats_ok fun k _ => (ones_ready 12).2 k k.isLt]
      rfl)
  exact ⟨t, h1, h2.status⟩

/-- TrimDimensions, BlockCount and BlockMap, clause by clause: written dimensions, even and odd ones, the last block and
the index after it. -/
theorem witness_dimensions :
    (written [.dimW 6#32, .dimH 4#32, .i 0 5#64]).dimW.valid = true ∧
    (written [.dimW 6#32, .dimH 4#32, .i 0 5#64]).dimH.valid = true ∧
    (written [.dimW 6#32, .dimH 4#32, .i 0 5#64]).i[0].valid = true ∧
    (written [.dimW 6#32, .dimH 4#32, .i 0 5#64]).int 0 = ((5 : Nat) : Int) ∧ 5 < (6 / 2) * (4 / 2) ∧
    (written [.dimW 6#32, .dimH 4#32, .i 0 6#64]).int 0 = 6 ∧ ¬ ((6 : Int) < ((6 / 2) * (4 / 2) : Nat)) ∧
    ¬ ((written [.dimW 5#32, .dimH 4#32]).dimW.val.toNat % 2 = 0) := by decide +kernel

theorem witness_BlockMapBijection :
    2 % 2 = 0 ∧ 4 % 2 = 0 ∧ 1 < blockCountOf 2 4 ∧ 3 < 4 ∧ 7 < 2 * 4 ∧ blockMapOf 2 1 3 = blockMapOf 2 1 3 := by decide

/-- A 2×3 raster with a channel at the denominator: one block after the trim. -/
def smallRaster : Raster :=
  ⟨2#32, 3#32, 255#32, [px 0 0 0, px 0 0 0, px 0 0 0, px 0 0 0, px 255 0 0, px 0 255 255]⟩

theorem smallRaster_wellFormed : WellFormedRaster smallRaster where
  count := by decide
  denom := by decide
  channels := by decide

/-- CompressBlocks and DecompressOfCompress, with a block for the statement's inner clauses. -/
theorem witness_CompressBlocks :
    (written [.rasterIn smallRaster]).rasterIn.valid = true ∧
    WellFormedRaster (written [.rasterIn smallRaster]).rasterIn.val ∧
    0 < (smallRaster.height.toNat - smallRaster.height.toNat % 2) / 2 ∧
    0 < (smallRaster.width.toNat - smallRaster.width.toNat % 2) / 2 :=
  ⟨rfl, smallRaster_wellFormed, by decide, by decide⟩

/-- CompressErrors, clause by clause: a pixel too few, a denominator of 0 and of 65536, a channel above the denominator. -/
theorem witness_CompressErrors :
    (written [.rasterIn ⟨2#32, 2#32, 255#32, [px 0 0 0, px 0 0 0, px 0 0 0]⟩]).rasterIn.valid = true ∧
    ¬ (3 = 2 * 2) ∧
    (written [.rasterIn ⟨1#32, 1#32, 0#32, [px 0 0 0]⟩]).rasterIn.val.n = 1 ∧ ¬ (1 ≤ (0#32).toNat) ∧
    ¬ ((65536#32).toNat ≤ 65535) ∧
    (∃ x ∈ (written [.rasterIn ⟨1#32, 1#32, 255#32, [px 0 0 256]⟩]).rasterIn.val.px, 255#32 < x.b) := by decide +kernel

/-- COMPRESS of the small raster completes under the build's unknown codebook. -/
theorem smallRaster_compresses :
    ∃ t, exec .compress (written [.rasterIn smallRaster]) = .next t ∧ t.status = 0x00000FF0#32 := by
  have ha : fitsUnsigned (quantA Config.build (forwardA .binary64 ⟨0⟩ ⟨0⟩ ⟨0⟩ ⟨0⟩)) 9 = true := by decide +kernel
  have hb : fitsSigned (quantBcd Config.build (forwardB .binary64 ⟨0⟩ ⟨0⟩ ⟨0⟩ ⟨0⟩)) 5 = true := by decide +kernel
  have hc : fitsSigned (quantBcd Config.build (forwardC .binary64 ⟨0⟩ ⟨0⟩ ⟨0⟩ ⟨0⟩)) 5 = true := by decide +kernel
  have hd : fitsSigned (quantBcd Config.build (forwardD .binary64 ⟨0⟩ ⟨0⟩ ⟨0⟩ ⟨0⟩)) 5 = true := by decide +kernel
  have hi : ∀ v, fitsUnsigned (chromaQuantize .binary64 Config.build.codebook v : Int) 4 = true := fun v => by
    rw [fitsUnsigned_natCast]
    simpa using chromaQuantize_lt .binary64 Config.build.codebook v
  have hq : (pixelToYpp .binary64 255#32 (px 0 0 0)).y = ⟨0⟩ := by decide +kernel
  have hw : ∃ w, blockWord Config.build (pixelToYpp .binary64 255#32 (px 0 0 0)) (pixelToYpp .binary64 255#32 (px 0 0 0))
      (pixelToYpp .binary64 255#32 (px 0 0 0)) (pixelToYpp .binary64 255#32 (px 0 0 0)) = .ok w := by
    rw [blockWord, packRecord_eq]
    simp only [blockQuantize, blockForward, Config.build_numeric, hq, ha, hb, hc, hd, hi]
    exact ⟨_, rfl⟩
  obtain ⟨w, hw⟩ := hw
  have hB : ∀ z : Ypp, collect (compressBlock Config.build [z, z, z, z] 2) 0 1 =
      (blockWord Config.build z z z z >>= fun x => .ok [x]) := fun _ => rfl
  have hT : trimmedPixels smallRaster 2 2 = .ok [px 0 0 0, px 0 0 0, px 0 0 0, px 0 0 0] := rfl
  have hC : compressRaster Config.build smallRaster = .ok [w] := by
    have : compressRaster Config.build smallRaster = trimmedPixels smallRaster 2 2 >>= fun T =>
      collect (compressBlock Config.build (T.map (pixelToYpp .binary64 255#32)) 2) 0 1 := rfl
    rw [this, hT, ok_bind, List.map_cons, List.map_cons, List.map_cons, List.map_cons, List.map_nil, hB, hw, ok_bind]
  have hR : checkRaster Config.build smallRaster = .ok () := rfl
  obtain ⟨t, h1, h2⟩ := exec_succeeds (i := .compress) (s := written [.rasterIn smallRaster])
    (r := { streamOut := some [w], rdimW := some 2#32, rdimH := some 2#32 }) (by decide +kernel) (by
      have hs : (written [.rasterIn smallRaster]).rasterIn.val = smallRaster := rfl
      simp only [commandCalc, compressCalc, hs, hR, hC]
      rfl)
  exact ⟨t, h1, h2.status⟩

theorem witness_CompressWordsAreLocal :
    (∃ t, exec .compress (written [.rasterIn smallRaster]) = .next t ∧ t.status = 0x00000FF0#32) ∧
    0 < (written [.rasterIn smallRaster]).rasterIn.val.height.toNat / 2 ∧
    0 < (written [.rasterIn smallRaster]).rasterIn.val.width.toNat / 2 :=
  ⟨smallRaster_compresses, by decide +kernel, by decide +kernel⟩

/-- DecompressPixels: a one-word stream, and position 3 of its only block. -/
theorem witness_DecompressPixels :
    (written [.streamIn [0xFFFFFFFF#32], .dimW 2#32, .dimH 2#32]).streamIn = ⟨[0xFFFFFFFF#32], true⟩ ∧
    (written [.streamIn [0xFFFFFFFF#32], .dimW 2#32, .dimH 2#32]).dimW = ⟨2#32, true⟩ ∧
    (written [.streamIn [0xFFFFFFFF#32], .dimW 2#32, .dimH 2#32]).dimH = ⟨2#32, true⟩ ∧
    ∃ q, (blockInverse .binary64 (blockDequantize Config.build (unpackWord 0xFFFFFFFF#64)))[3]? = some q :=
  ⟨rfl, rfl, rfl, _, rfl⟩

/-- DecompressErrors, clause by clause: an odd height, and one word too many. -/
theorem witness_DecompressErrors :
    (written [.streamIn [0#32, 0#32], .dimW 4#32, .dimH 3#32]).streamIn.valid = true ∧
    ¬ ((written [.streamIn [0#32, 0#32], .dimW 4#32, .dimH 3#32]).dimH.val.toNat % 2 = 0) ∧
    (written [.streamIn [0#32, 0#32], .dimW 2#32, .dimH 2#32]).streamIn.val.length ≠ (2 / 2) * (2 / 2) := by
  decide +kernel

theorem witness_WireImageBigEndian : [0x461C20D6#32][0]? = some 0x461C20D6#32 := rfl

end Sys2Proof.Tests
end

section
/-! SUPPORT. `round` and `clamp` are exact on finite values (00_scope.md R13). -/

namespace Sys2Proof

/-! ### round -/

/-- Half a unit added and the floor taken, in whole numbers. -/
theorem floor_div_add_half (n : Nat) {d : Nat} (hd : 0 < d) :
    ⌊(n : ℚ) / d + 1 / 2⌋ = ((2 * n + d) / (2 * d) : Nat) := by
  have hd' : (d : ℚ) ≠ 0 := by exact_mod_cast hd.ne'
  have h : (n : ℚ) / d + 1 / 2 = ((2 * n + d : Nat) : ℚ) / ((2 * d : Nat) : ℚ) := by
    push_cast
    field_simp
  rw [h, Rat.floor_natCast_div_natCast]
  rfl

theorem roundHalfAway_of_nonneg {n : Int} {d : Nat} (hd : 0 < d) (hn : 0 ≤ n) :
    roundHalfAway n d = ⌊(n : ℚ) / d + 1 / 2⌋ := by
  obtain ⟨m, rfl⟩ := Int.eq_ofNat_of_zero_le hn
  simp only [roundHalfAway, Int.natAbs_natCast, if_neg hn.not_gt, Int.cast_natCast, floor_div_add_half m hd]

/-- The rounding is odd: this is what sends a negative tie away from zero. -/
theorem roundHalfAway_neg {n : Int} (d : Nat) (hn : 0 < n) : roundHalfAway (-n) d = -roundHalfAway n d := by
  simp only [roundHalfAway, Int.natAbs_neg, if_pos (neg_neg_of_pos hn), if_neg hn.not_gt]

theorem F64.real_nonneg_iff {x : F64} : 0 ≤ x.real ↔ 0 ≤ x.val := by
  rw [F64.real, le_div_iff₀ F64.one_cast_pos, zero_mul, Int.cast_nonneg_iff]

theorem F64.round_of_nonneg {x : F64} (h : 0 ≤ x.real) : F64.round x = ⌊x.real + 1 / 2⌋ :=
  roundHalfAway_of_nonneg F64.one_pos (F64.real_nonneg_iff.1 h)

theorem F64.round_of_neg {x : F64} (h : x.real < 0) : F64.round x = -⌊-x.real + 1 / 2⌋ := by
  have hv : x.val < 0 := by rwa [← not_le, ← F64.real_nonneg_iff, not_le]
  have hpos : 0 < -x.val := by omega
  calc F64.round x = roundHalfAway (- -x.val) F64.one := by rw [neg_neg, F64.round]
    _ = -roundHalfAway (-x.val) F64.one := roundHalfAway_neg _ hpos
    _ = -⌊-x.real + 1 / 2⌋ := by
      rw [roundHalfAway_of_nonneg F64.one_pos hpos.le, Int.cast_neg, neg_div, F64.real]

/-! ### clamp -/

/-- The larger of two values, chosen by the exact comparison. -/
theorem Numeric.real_ite_lt_max (nu : Numeric) (x y : F64) :
    nu.real (if nu.lt x y then y else x) = max (nu.real x) (nu.real y) := by
  simp only [apply_ite nu.real, max_def_lt, nu.real_lt_real]

/-- The smaller of two values, chosen by the exact comparison. -/
theorem Numeric.real_ite_lt_min (nu : Numeric) (x y : F64) :
    nu.real (if nu.lt y x then y else x) = min (nu.real x) (nu.real y) := by
  simp only [apply_ite nu.real, min_comm (nu.real x), min_def_lt, nu.real_lt_real]

/-- `clamp` under any NUMERIC is exact: both of its comparisons compare the real values. -/
theorem Numeric.real_clamp (nu : Numeric) (v lo hi : F64) :
    nu.real (nu.clamp v lo hi) = min (max (nu.real v) (nu.real lo)) (nu.real hi) := by
  rw [Numeric.clamp, nu.real_ite_lt_min, nu.real_ite_lt_max]

theorem F64.real_clamp (v lo hi : F64) : (F64.clamp v lo hi).real = min (max v.real lo.real) hi.real :=
  Numeric.binary64.real_clamp v lo hi

/-- Settles O23: `round` by the sign of the value, `clamp` by its two comparisons. -/
theorem roundAndClamp : Obligations.RoundAndClamp :=
  ⟨fun _ _ => ⟨F64.round_of_nonneg, F64.round_of_neg⟩, fun v lo hi _ _ _ => F64.real_clamp v lo hi, fun _ _ _ => rfl⟩

end Sys2Proof
end

section
/-! SUPPORT. What a command can observe and what it leaves to be observed: the state after reset (10_state.md R39), and a
command's outcome as a function of its operand ports (R20). -/

namespace Sys2Proof.Machine

/-- Settles O10: every valid bit of the reset state is 0 (R39). -/
theorem resetState : Obligations.ResetState := ⟨rfl, rfl, inValid_reset, outValid_reset⟩

section

variable {dimBits : Nat} {s t : State dimBits}

/-! ### States that agree on a command's operand ports -/

theorem inValid_eq_of_agree {p : InPort} (h : p.Agree s t) : s.inValid p = t.inValid p := by
  cases p <;> exact congrArg Port.valid h

theorem int_eq_of_agree {k : Fin 6} (h : (InPort.i k).Agree s t) : s.int k = t.int k :=
  congrArg (fun q : Port Word64 => q.val.toInt) h

theorem flt_eq_of_agree {k : Fin 12} (h : (InPort.f k).Agree s t) : s.flt k = t.flt k := congrArg Port.val h

/-- `check_f` sees the values of its ports and nothing else (R160). -/
theorem checkFloats_eq_of_flt_eq (p : Params) {ks : List (Fin 12)} (h : ∀ k ∈ ks, s.flt k = t.flt k) :
    checkFloats p s ks = checkFloats p t ks := by
  have hall : (ks.all fun k => inDomain p (s.flt k)) = ks.all fun k => inDomain p (t.flt k) := by
    rw [Bool.eq_iff_iff, List.all_eq_true, List.all_eq_true]
    exact forall₂_congr fun k hk => by rw [h k hk]
  rw [checkFloats, hall, checkFloats]

/-- A calculation reads the input ports of R92's reads column and nothing else: every port it names is in the column. -/
theorem commandCalc_eq_of_agree (p : Params) {i : Instr} (h : ∀ q ∈ operandPorts i, q.Agree s t) :
    commandCalc p i s = commandCalc p i t := by
  have w64 : .w64 ∈ operandPorts i → s.w64 = t.w64 := h .w64
  have v64 : .v64 ∈ operandPorts i → s.v64 = t.v64 := h .v64
  have dimW : .dimW ∈ operandPorts i → s.dimW = t.dimW := h .dimW
  have dimH : .dimH ∈ operandPorts i → s.dimH = t.dimH := h .dimH
  have dimWNat (hq : .dimW ∈ operandPorts i) : s.dimWNat = t.dimWNat := congrArg (fun q => q.val.toNat) (dimW hq)
  have dimHNat (hq : .dimH ∈ operandPorts i) : s.dimHNat = t.dimHNat := congrArg (fun q => q.val.toNat) (dimH hq)
  have raster : .rasterIn ∈ operandPorts i → s.rasterIn = t.rasterIn := h .rasterIn
  have stream : .streamIn ∈ operandPorts i → s.streamIn = t.streamIn := h .streamIn
  have int (k : Fin 6) (hk : .i k ∈ operandPorts i) : s.int k = t.int k := int_eq_of_agree (h _ hk)
  have flt (k : Fin 12) (hk : .f k ∈ operandPorts i) : s.flt k = t.flt k := flt_eq_of_agree (h _ hk)
  have floats (ks : List (Fin 12)) (hk : ∀ k ∈ ks, .f k ∈ operandPorts i) : checkFloats p s ks = checkFloats p t ks :=
    checkFloats_eq_of_flt_eq p fun k hks => flt k (hk k hks)
  cases i with
  | fitsU width => simp only [commandCalc, fitsUCalc, State.vU64, v64 (.head _)]
  | fitsS width => simp only [commandCalc, fitsSCalc, State.vS64, v64 (.head _)]
  | extractU width lsb => simp only [commandCalc, extractUCalc, w64 (.head _)]
  | extractS width lsb => simp only [commandCalc, extractSCalc, w64 (.head _)]
  | insertU width lsb => simp only [commandCalc, insertUCalc, State.vU64, w64 (.head _), v64 (.tail _ (.head _))]
  | insertS width lsb => simp only [commandCalc, insertSCalc, State.vS64, w64 (.head _), v64 (.tail _ (.head _))]
  | rgbToNorm => simp (disch := decide) only [commandCalc, rgbToNormCalc, int]
  | normToYpbpr => simp (disch := decide) only [commandCalc, normToYpbprCalc, floats, flt]
  | ypbprToNorm => simp (disch := decide) only [commandCalc, ypbprToNormCalc, floats, flt]
  | normToRgb =>
    simp (disch := decide) only [commandCalc, normToRgbCalc, floats, flt, int]
  | blkFwd => simp (disch := decide) only [commandCalc, blkFwdCalc, floats, flt]
  | blkInv =>
    simp (disch := decide) only [commandCalc, blkInvCalc, floats, State.coeffs, flt]
  | quantA => simp (disch := decide) only [commandCalc, quantACalc, floats, flt]
  | quantBcd => simp (disch := decide) only [commandCalc, quantBcdCalc, floats, flt]
  | chromaQ => simp (disch := decide) only [commandCalc, chromaQCalc, floats, flt]
  | chromaDq => simp (disch := decide) only [commandCalc, chromaDqCalc, int]
  | dequantA => simp (disch := decide) only [commandCalc, dequantACalc, int]
  | dequantBcd => simp (disch := decide) only [commandCalc, dequantBcdCalc, int]
  | blkQuant =>
    simp (disch := decide) only [commandCalc, blkQuantCalc, floats, State.coeffs, flt]
  | blkDequant => simp (disch := decide) only [commandCalc, blkDequantCalc, State.record, int]
  | pack => simp (disch := decide) only [commandCalc, packCalc, State.record, int]
  | unpack => simp (disch := decide) only [commandCalc, unpackCalc, w64]
  | trim => simp (disch := decide) only [commandCalc, trimCalc, dimW, dimH]
  | blockCount => simp (disch := decide) only [commandCalc, blockCountCalc, dimWNat, dimHNat]
  | blockMap =>
    have i0 : s.i[0] = t.i[0] := h (.i 0) (by decide)
    simp only [commandCalc, blockMapCalc]
    rw [dimWNat (by decide), dimHNat (by decide), int 0 (by decide), i0]
  | compress => simp (disch := decide) only [commandCalc, compressCalc, raster]
  | decompress =>
    simp only [commandCalc, decompressCalc]
    rw [stream (by decide), dimWNat (by decide), dimHNat (by decide), dimW (by decide), dimH (by decide)]

/-! ### What one calculation leaves to be observed does not depend on the state before it -/

/-- A result port, cleared and then written or not: its valid bit, and its value where it is valid, are what was written. -/
theorem Port.load_clear_observed {α : Type} (p q : Port α) (v : Option α) :
    (p.clear.load v).valid = (q.clear.load v).valid ∧
      ((p.clear.load v).valid = true → (p.clear.load v).val = (q.clear.load v).val) := by
  cases v with
  | none => exact ⟨rfl, fun h => nomatch h⟩
  | some v => exact ⟨rfl, fun _ => rfl⟩

theorem sameToHost_succeed (s t : State dimBits) (r : Results dimBits) :
    SameToHost (.next (s.clearResults.succeed r)) (.next (t.clearResults.succeed r)) := by
  refine ⟨rfl, fun p => ?_⟩
  cases p with
  | ri k => simpa [State.outValid, OutPort.SameValue] using Port.load_clear_observed s.ri[k] t.ri[k] r.ri[k.val]?
  | rf k => simpa [State.outValid, OutPort.SameValue] using Port.load_clear_observed s.rf[k] t.rf[k] r.rf[k.val]?
  | _ => exact Port.load_clear_observed _ _ _

theorem sameToHost_takeError (s t : State dimBits) (e : Error) :
    SameToHost (.next (s.clearResults.takeError e)) (.next (t.clearResults.takeError e)) :=
  ⟨rfl, fun p => by simp⟩

/-- The end of a command is its calculation's (R302 steps 4 and 5), a fault or a refusal included. -/
theorem sameToHost_finish (s t : State dimBits) (c : Calc (Results dimBits)) :
    SameToHost (s.clearResults.finish c) (t.clearResults.finish c) :=
  match c with
  | .ok r => sameToHost_succeed s t r
  | .error (.raised e) => sameToHost_takeError s t e
  | .error (.fault _) => rfl
  | .error (.refused _) => rfl

end

/-- Settles O16: agreeing operand ports are written in both states or unwritten in both, and then both commands end as the
one calculation ends. -/
theorem commandsReadOnlyTheirOperands : Obligations.CommandsReadOnlyTheirOperands := by
  intro i s t h
  by_cases hs : ∀ p ∈ operandPorts i, s.inValid p = true
  · have ht : ∀ p ∈ operandPorts i, t.inValid p = true := fun p hp => inValid_eq_of_agree (h p hp) ▸ hs p hp
    rw [exec_eq, exec_eq, runCommand_eq (List.all_eq_true.2 hs), runCommand_eq (List.all_eq_true.2 ht),
      commandCalc_clearResults, commandCalc_clearResults, commandCalc_eq_of_agree _ h]
    exact sameToHost_finish s t _
  · obtain ⟨p, hp, hf⟩ : ∃ p ∈ operandPorts i, s.inValid p = false := by simpa using hs
    rw [exec_unwritten ⟨p, hp, hf⟩, exec_unwritten ⟨p, hp, inValid_eq_of_agree (h p hp) ▸ hf⟩]
    exact rfl

end Sys2Proof.Machine
end

section
/-! SUPPORT. Every record of `block_quantize` fits its packed word (43_quantizer.md R216), whatever the coefficients: the
one error of `pack` that COMPRESS could meet cannot occur (45_pipeline.md R257). -/

namespace Sys2Proof

open Machine (RoundedTo)

/-! ### Multiplication and rounding keep bounds -/

theorem F64.isFinite_of_abs_real_lt_one {x : F64} (h : |x.real| < 1) : x.isFinite = true := by
  rw [F64.abs_real, div_lt_one F64.one_cast_pos, Nat.cast_lt] at h
  rw [F64.isFinite, bne_iff_ne]
  intro he
  have hone : F64.one ≤ 2 ^ (x.expField - 1) := by
    unfold F64.one
    gcongr
    · decide
    · omega
  rw [F64.mag, if_neg (by omega)] at h
  exact absurd h (not_lt.2 (hone.trans (Nat.le_mul_of_pos_left _ (by omega))))

theorem F64.real_eq_of_val {x : F64} {n : Int} (h : x.val = n * F64.one) : x.real = n := by
  rw [F64.real, h, Int.cast_mul, Int.cast_natCast, mul_div_assoc, div_self F64.one_cast_pos.ne', mul_one]

/-- A product of finite values is its exact product rounded (R12). -/
theorem F64.roundedTo_mul {x y : F64} (hx : x.isFinite = true) (hy : y.isFinite = true) :
    RoundedTo (F64.mul x y) (x.real * y.real) := by
  have hsign (z : F64) : (z.val : ℚ) = (if z.sign then -1 else 1) * z.mag := by
    rw [F64.val]
    split <;> simp
  have hq : x.real * y.real =
      (if (x.sign != y.sign) = true then -1 else 1) * (((x.mag * y.mag : Nat) : ℚ) / F64.one) / F64.one := by
    rw [F64.real, F64.real, hsign, hsign]
    cases x.sign <;> cases y.sign <;> simp <;> ring
  rw [F64.mul_of_finite hx hy, hq]
  exact F64.roundedTo_rounded _ _ _ F64.one_pos

theorem F64.lt_overflow_threshold {q : ℚ} (h : q < 2 ^ 53) : q < 2 ^ 1024 - 2 ^ 970 := by
  have hpow : (2 : ℚ) ^ 1024 = 2 ^ 54 * 2 ^ 970 := by rw [← pow_add]
  have hone : (1 : ℚ) ≤ 2 ^ 970 := one_le_pow₀ (by norm_num)
  rw [hpow]
  generalize (2 : ℚ) ^ 970 = y at hone ⊢
  linarith

/-- Rounding an exact result within a binary64 bound stays within the bound: the bound itself is a nearer candidate. -/
theorem Machine.RoundedTo.abs_real_le {z b : F64} {q : ℚ} (h : RoundedTo z q) (hb : b.isFinite = true)
    (hlt : b.real < 2 ^ 53) (hq : |q| ≤ b.real) : |z.real| ≤ b.real := by
  obtain ⟨hfinite, -, -, hnear⟩ := h
  obtain ⟨hlo, hhi⟩ := abs_le.1 hq
  have hz : z.isFinite = true := hfinite.2 (F64.lt_overflow_threshold (hq.trans_lt hlt))
  have hup : |z.real - q| ≤ b.real - q := by
    simpa only [abs_of_nonneg (sub_nonneg.2 hhi)] using (hnear hz b hb).1
  have hdown : |z.real - q| ≤ b.real + q := by
    have hd := (hnear hz b.neg (by rwa [F64.isFinite_neg])).1
    have hdist : |-b.real - q| = b.real + q := by
      rw [abs_of_nonpos (by linarith)]
      ring
    rwa [F64.real_neg, hdist] at hd
  exact abs_le.2 ⟨by linarith [(abs_le.1 hdown).1], by linarith [(abs_le.1 hup).2]⟩

theorem F64.abs_round_le {x : F64} {n : Nat} (h : |x.real| ≤ n) : |F64.round x| ≤ n := by
  have hfloor {y : ℚ} (h0 : 0 ≤ y) (hy : y ≤ n) : |⌊y + 1 / 2⌋| ≤ (n : Int) := by
    rw [abs_of_nonneg (Int.floor_nonneg.2 (by linarith)), ← Int.lt_add_one_iff, Int.floor_lt]
    push_cast
    linarith
  obtain ⟨hlo, hhi⟩ := abs_le.1 h
  rcases le_or_gt 0 x.real with hx | hx
  · rw [F64.round_of_nonneg hx]
    exact hfloor hx hhi
  · rw [F64.round_of_neg hx, abs_neg]
    exact hfloor (neg_nonneg.2 hx.le) (neg_le.1 hlo)

namespace Machine

/-! ### The quantizers' ranges -/

/-- The clamp of R201 leaves a value of magnitude at most 0.3. -/
theorem abs_real_clampBcd_le (v : F64) :
    |(F64.clamp v ⟨0xBFD3333333333333#64⟩ ⟨0x3FD3333333333333#64⟩).real| ≤ 3 / 10 := by
  have hlo : (⟨0xBFD3333333333333#64⟩ : F64).real = -(⟨0x3FD3333333333333#64⟩ : F64).real :=
    F64.real_neg ⟨0x3FD3333333333333#64⟩
  have hnonneg : 0 ≤ (⟨0x3FD3333333333333#64⟩ : F64).real := F64.real_nonneg_iff.2 (by decide +kernel)
  have hle : (⟨0x3FD3333333333333#64⟩ : F64).real ≤ 3 / 10 := by
    rw [F64.real, div_le_div_iff₀ F64.one_cast_pos (by norm_num)]
    exact_mod_cast (by decide +kernel : F64.val ⟨0x3FD3333333333333#64⟩ * 10 ≤ 3 * F64.one)
  rw [F64.real_clamp, hlo]
  exact (abs_le.2 ⟨le_min (le_max_right _ _) (by linarith), min_le_right _ _⟩).trans hle

/-- R201's range: the clamped value is at most 0.3, its product with 50.0 at most 15 exactly, and rounding keeps that. -/
theorem abs_quantBcd_le (v : F64) : |quantBcd Config.build v| ≤ 15 := by
  have hclamp := abs_real_clampBcd_le v
  rw [quantBcd_build]
  generalize F64.clamp v _ _ = c at hclamp ⊢
  have h50 : (⟨0x4049000000000000#64⟩ : F64).real = 50 := F64.real_eq_of_val (n := 50) (by decide +kernel)
  have h15 : (⟨0x402E000000000000#64⟩ : F64).real = 15 := F64.real_eq_of_val (n := 15) (by decide +kernel)
  have hprod : |c.real * (⟨0x4049000000000000#64⟩ : F64).real| ≤ (⟨0x402E000000000000#64⟩ : F64).real := by
    rw [abs_mul, h50, h15, abs_of_pos (by norm_num : (0 : ℚ) < 50)]
    linarith
  have hr := F64.roundedTo_mul (F64.isFinite_of_abs_real_lt_one (hclamp.trans_lt (by norm_num)))
    (by decide : F64.isFinite ⟨0x4049000000000000#64⟩ = true)
  exact F64.abs_round_le (n := 15) ((hr.abs_real_le (by decide) (by rw [h15]; norm_num) hprod).trans_eq h15)

theorem fitsUnsigned_quantA (a : F64) : fitsUnsigned (quantA Config.build a) 9 = true := by
  rw [quantA, clampInt, fitsUnsigned, decide_eq_true_iff]
  omega

theorem fitsSigned_quantBcd (v : F64) : fitsSigned (quantBcd Config.build v) 5 = true := by
  have h := abs_le.1 (abs_quantBcd_le v)
  rw [fitsSigned_iff, FitsS, if_neg (by decide)]
  norm_num
  omega

theorem fitsUnsigned_chromaQuantize (nu : Numeric) (cb : Vector F64 16) (v : F64) :
    fitsUnsigned (chromaQuantize nu cb v) 4 = true := by
  rw [fitsUnsigned_natCast, decide_eq_true_iff]
  exact chromaQuantize_lt nu cb v

/-- A quantized record packs, whatever the coefficients it was quantized from (R216). -/
theorem packRecord_blockQuantize (k : Coeffs) : ∃ w, packRecord (blockQuantize Config.build k) = .ok w := by
  rw [packRecord_eq]
  simp only [blockQuantize, fitsUnsigned_quantA, fitsSigned_quantBcd, fitsUnsigned_chromaQuantize, Bool.true_eq_false,
    if_false]
  exact ⟨_, rfl⟩

end Machine
end Sys2Proof
end

section
/-! SUPPORT. Which result ports a command's calculation names when it ends well, and which errors it raises (30_encoding.md
R92, 60_exceptions.md R300). -/

namespace Sys2Proof.Machine

section

variable {dimBits : Nat}

/-! ### The result ports that a command's results name -/

/-- The result ports that `r` has a value for, in the order of R92's writes column. -/
def Results.ports (r : Results dimBits) : List OutPort :=
  [(r.rw64.map fun _ => OutPort.rw64).toList, (r.rb.map fun _ => OutPort.rb).toList,
   ((List.finRange 6).filter fun k => k.val < r.ri.length).map OutPort.ri,
   ((List.finRange 12).filter fun k => k.val < r.rf.length).map OutPort.rf,
   (r.streamOut.map fun _ => OutPort.streamOut).toList, (r.rdimW.map fun _ => OutPort.rdimW).toList,
   (r.rdimH.map fun _ => OutPort.rdimH).toList, (r.rasterOut.map fun _ => OutPort.rasterOut).toList].flatten

theorem Port.valid_load_clear {α : Type} (p : Port α) (v : Option α) : (p.clear.load v).valid = v.isSome := by
  cases v <;> rfl

/-- After the successful end of a command the valid result ports are those its results name (R34). -/
theorem outValid_succeed (s : State dimBits) (r : Results dimBits) (p : OutPort) :
    (s.clearResults.succeed r).outValid p = true ↔ p ∈ r.ports := by
  cases p with
  | ri k => simp [State.outValid, Results.ports, Port.valid_load_clear]
  | rf k => simp [State.outValid, Results.ports, Port.valid_load_clear]
  | _ => simp [State.outValid, Results.ports, Port.valid_load_clear, Option.isSome_iff_exists]

/-! ### How a calculation can end -/

/-- The calculation ends with a value that has the property `Q`, or raises an error whose STATUS word is in `errs`; a fault or
a refusal is left open. -/
def EndsIn {α : Type} (errs : List Word32) (Q : α → Prop) : Calc α → Prop
  | .ok a => Q a
  | .error (.raised e) => statusWord e ∈ errs
  | .error (.fault _) => True
  | .error (.refused _) => True

theorem endsIn_raise {α : Type} {errs : List Word32} {Q : α → Prop} {e : Error} :
    EndsIn errs Q (raise e) ↔ statusWord e ∈ errs := Iff.rfl

variable {α β : Type} {errs : List Word32} {Q : α → Prop}

/-- A calculation in two parts: the second runs on what the first ended with. -/
theorem EndsIn.bind {P : β → Prop} {x : Calc β} {g : β → Calc α} (hx : EndsIn errs P x)
    (hg : ∀ b, P b → EndsIn errs Q (g b)) : EndsIn errs Q (x >>= g) :=
  match x, hx with
  | .ok b, hb => hg b hb
  | .error (.raised _), he => he
  | .error (.fault _), _ => trivial
  | .error (.refused _), _ => trivial

theorem endsIn_check (b : Bool) {e : Error} (he : statusWord e ∈ errs) :
    EndsIn errs (fun _ => True) (check b e) := by
  cases b
  · exact he
  · exact trivial

/-- A check whose error is one of `errs`, and the rest of the calculation after it. -/
theorem EndsIn.after_check {b : Bool} {e : Error} {g : Unit → Calc α} (hg : EndsIn errs Q (g ()))
    (he : statusWord e ∈ errs := by decide) : EndsIn errs Q (check b e >>= g) :=
  (endsIn_check b he).bind fun _ _ => hg

/-- A full buffer is refused, not reported in STATUS (R76). -/
theorem endsIn_withinCap (cap : Option Nat) (n : Nat) : EndsIn errs (fun _ => True) (withinCap cap n) := by
  unfold withinCap
  split
  · exact trivial
  · split <;> exact trivial

/-- A read out of range is a model fault, not an error in STATUS (R61). -/
theorem endsIn_bufRead (l : List α) (k : Nat) : EndsIn errs (fun _ => True) (bufRead l k) := by
  unfold bufRead
  split <;> exact trivial

theorem endsIn_collect {g : Nat → Calc α} (hg : ∀ k, EndsIn errs (fun _ => True) (g k)) (k n : Nat) :
    EndsIn errs (fun _ => True) (collect g k n) := by
  induction n generalizing k with
  | zero => exact trivial
  | succ n ih => exact (hg k).bind fun _ _ => (ih (k + 1)).bind fun _ _ => trivial

/-! ### Each command's end -/

theorem endsIn_insertResult (o : Option Word64) :
    EndsIn [0x00000FF3#32, 0x00000FF1#32] (fun r => r.ports = [.rw64]) (insertResult (dimBits := dimBits) o) := by
  cases o with
  | none => exact endsIn_raise.2 (by decide)
  | some w => exact rfl

theorem endsIn_packCalc (s : State dimBits) :
    EndsIn (errorWords .pack) (fun r => r.ports = resultPorts .pack) (packCalc s) := by
  rw [packCalc, packRecord_eq]
  split_ifs
  case neg => exact rfl
  all_goals exact endsIn_raise.2 (by decide)

/-- The three checks of `valid_raster` raise the REASONs 2, 3 and 4 (R255). -/
theorem endsIn_checkRaster (R : Raster dimBits) :
    EndsIn (errorWords .compress) (fun _ => True) (checkRaster Config.build R) :=
  .after_check (.after_check (endsIn_check _ (by decide)))

/-- The raster reads of COMPRESS raise nothing, and every block's record packs (R216). -/
theorem endsIn_compressRaster (R : Raster dimBits) :
    EndsIn errs (fun _ => True) (compressRaster Config.build R) := by
  have hword (q0 q1 q2 q3 : Ypp) : EndsIn errs (fun _ => True) (blockWord Config.build q0 q1 q2 q3) := by
    obtain ⟨w, hw⟩ := packRecord_blockQuantize (blockForward Config.build.numeric q0 q1 q2 q3)
    rw [blockWord, hw]
    exact trivial
  have hblock (Q : List Ypp) (W k : Nat) : EndsIn errs (fun _ => True) (compressBlock Config.build Q W k) :=
    (endsIn_bufRead Q _).bind fun q0 _ => (endsIn_bufRead Q _).bind fun q1 _ => (endsIn_bufRead Q _).bind fun q2 _ =>
      (endsIn_bufRead Q _).bind fun q3 _ => hword q0 q1 q2 q3
  exact (endsIn_collect (fun _ => endsIn_bufRead _ _) _ _).bind fun _ _ => endsIn_collect (hblock _ _) _ _

/-- Every command's checks raise its own errors only (R300), and the results it then returns name the ports of R92's writes
column. -/
theorem commandCalc_endsIn (i : Instr) (s : State dimBits) :
    EndsIn (errorWords i) (fun r => r.ports = resultPorts i) (commandCalc Config.build i s) := by
  cases i with
  | fitsU width => exact .after_check (errs := [0x00000FF3#32]) rfl
  | fitsS width => exact .after_check (errs := [0x00000FF3#32]) rfl
  | extractU width lsb => exact .after_check (errs := [0x00000FF3#32]) rfl
  | extractS width lsb => exact .after_check (errs := [0x00000FF3#32]) rfl
  | insertU width lsb => exact .after_check (errs := [0x00000FF3#32, 0x00000FF1#32]) (endsIn_insertResult _)
  | insertS width lsb => exact .after_check (errs := [0x00000FF3#32, 0x00000FF1#32]) (endsIn_insertResult _)
  | rgbToNorm => exact .after_check (.after_check (.after_check (.after_check rfl)))
  | normToYpbpr => exact .after_check rfl
  | ypbprToNorm => exact .after_check rfl
  | normToRgb => exact .after_check (.after_check rfl)
  | blkFwd => exact .after_check rfl
  | blkInv => exact .after_check rfl
  | quantA => exact .after_check rfl
  | quantBcd => exact .after_check rfl
  | chromaQ => exact .after_check rfl
  | chromaDq => exact .after_check rfl
  | dequantA => exact .after_check rfl
  | dequantBcd => exact .after_check rfl
  | blkQuant => exact .after_check rfl
  | blkDequant =>
    exact .after_check (.after_check (.after_check (.after_check (.after_check (.after_check rfl)))))
  | pack => exact endsIn_packCalc s
  | unpack => exact .after_check rfl
  | trim => exact rfl
  | blockCount => exact .after_check rfl
  | blockMap => exact .after_check (.after_check rfl)
  | compress =>
    exact (endsIn_withinCap _ _).bind fun _ _ => (endsIn_checkRaster _).bind fun _ _ =>
      (endsIn_compressRaster _).bind fun _ _ => (endsIn_withinCap _ _).bind fun _ _ => rfl
  | decompress =>
    exact (endsIn_withinCap _ _).bind fun _ _ => .after_check (.after_check ((endsIn_withinCap _ _).bind fun _ _ => rfl))

end

/-- Settles O14: the results of the calculation name exactly the ports of the writes column, and its errors are the
command's. -/
theorem commandResultsExactly : Obligations.CommandResultsExactly := by
  intro i s t h
  have hend := commandCalc_endsIn i s
  obtain ⟨-, ⟨r, hr, rfl⟩ | ⟨e, he, rfl⟩⟩ := exec_next h
  · have hports : r.ports = resultPorts i := by rwa [hr] at hend
    exact ⟨sameInputs_succeed s r, .inl ⟨statusOk_eq, fun p => hports ▸ outValid_succeed s r p⟩⟩
  · rw [he] at hend
    exact ⟨sameInputs_takeError s e, .inr ⟨hend, (failed_takeError s e).noResult⟩⟩

end Sys2Proof.Machine
end

section
/-! SUPPORT. The wire byte image of a word buffer (20_memory.md R66, R67): each word's four bytes, most significant first, join
to the word again, and word `k` starts at byte `4 * k`. -/

namespace Sys2Proof.Machine

/-- The four bytes of R66's image of a word, joined most significant first, are the word: the step of R67's inverse. -/
@[simp] theorem append_bytes_of_word (w : Word32) :
    w.extractLsb' 24 8 ++ w.extractLsb' 16 8 ++ w.extractLsb' 8 8 ++ w.extractLsb' 0 8 = w := by
  rw [BitVec.extractLsb'_append_extractLsb'_eq_extractLsb' (by rfl),
    BitVec.extractLsb'_append_extractLsb'_eq_extractLsb' (by rfl),
    BitVec.extractLsb'_append_extractLsb'_eq_extractLsb' (by rfl)]
  exact BitVec.extractLsb'_eq_self

@[simp] theorem length_wireImage (s : WordBuffer) : (wireImage s).length = 4 * s.length := by
  induction s with
  | nil => rfl
  | cons w ws ih => simp only [wireImage, List.length_cons, ih]; omega

@[simp] theorem wordsOfWire_wireImage (s : WordBuffer) : wordsOfWire (wireImage s) = s := by
  induction s with
  | nil => rfl
  | cons w ws ih => simp only [wireImage, wordsOfWire, append_bytes_of_word, ih]

/-- The words before word `k` take the first `4 * k` bytes of the image. -/
theorem drop_wireImage (s : WordBuffer) (k : Nat) : (wireImage s).drop (4 * k) = wireImage (s.drop k) := by
  induction k generalizing s with
  | zero => rfl
  | succ k ih =>
    cases s with
    | nil => simp [wireImage]
    | cons w ws => exact ih ws

/-- The bytes of the image from byte `4 * k` on are those of the buffer from word `k` on. -/
theorem getElem?_wireImage (s : WordBuffer) (k j : Nat) :
    (wireImage s)[4 * k + j]? = (wireImage (s.drop k))[j]? := by
  rw [← drop_wireImage, List.getElem?_drop]

/-- Settles O60: by induction on the buffer; the bytes of word `k` are the first four of the image from word `k` on. -/
theorem wireImageBigEndian : Obligations.WireImageBigEndian := by
  intro s
  refine ⟨length_wireImage s, wordsOfWire_wireImage s, fun k w hw => ?_⟩
  have hdrop : s.drop k = w :: s.drop (k + 1) := by
    obtain ⟨hk, rfl⟩ := List.getElem?_eq_some_iff.mp hw
    exact List.drop_eq_getElem_cons hk
  have hbyte (j : Nat) : (wireImage s)[4 * k + j]? = (wireImage (w :: s.drop (k + 1)))[j]? := by
    rw [getElem?_wireImage, hdrop]
  exact ⟨hbyte 0, hbyte 1, hbyte 2, hbyte 3⟩

end Sys2Proof.Machine
end

section
/-! SUPPORT. The record that UNPACK takes from a word, as arithmetic on the word (30_encoding.md R97, 44_packer.md R231): each
field is a quotient and a remainder of the word, and the signed fields are brought into their signed range. -/

namespace Sys2Proof.Machine

/-! ### An extracted field as an integer -/

/-- EXTRACT_U's value (R133): a field narrower than the word is non-negative as an s64 too. -/
theorem toInt_extractUnsigned (w : Word64) {width : Nat} (lsb : Nat) (h : width < 64) :
    (extractUnsigned w width lsb).toInt = (w.toNat / 2 ^ lsb % 2 ^ width : Nat) := by
  rw [extractUnsigned, BitVec.setWidth, dif_pos h.le, BitVec.toInt_setWidth'_of_lt h, BitVec.extractLsb'_toNat,
    Nat.shiftRight_eq_div_pow]

/-- EXTRACT_S's value (R134): the field, brought into the signed range of its width. -/
theorem toInt_extractSigned (w : Word64) {width : Nat} (lsb : Nat) (h : width ≤ 64) :
    (extractSigned w width lsb).toInt = ((w.toNat / 2 ^ lsb : Nat) : Int).bmod (2 ^ width) := by
  rw [extractSigned, BitVec.toInt_signExtend_of_le h, BitVec.toInt_eq_toNat_bmod, BitVec.extractLsb'_toNat,
    Nat.shiftRight_eq_div_pow, Int.natCast_emod, Int.emod_bmod]

/-- The signed value of a five-bit pattern, as `sext_64` reads it (R97). -/
theorem bmod_thirtyTwo (n : Nat) :
    (n : Int).bmod 32 = if n % 32 < 16 then ((n % 32 : Nat) : Int) else ((n % 32 : Nat) : Int) - 32 := by
  rw [Int.bmod_def]
  split_ifs <;> omega

/-! ### The record of a word -/

/-- R97's fields of a packed word. -/
theorem unpackWord_eq {w : Word64} (h : w.toNat < 2 ^ 32) :
    unpackWord w =
      { a := (w.toNat / 2 ^ 23 : Nat)
        b := ((w.toNat / 2 ^ 18 : Nat) : Int).bmod 32
        c := ((w.toNat / 2 ^ 13 : Nat) : Int).bmod 32
        d := ((w.toNat / 2 ^ 8 : Nat) : Int).bmod 32
        pb := (w.toNat / 2 ^ 4 % 16 : Nat)
        pr := (w.toNat % 16 : Nat) } := by
  have ha : w.toNat / 2 ^ 23 % 2 ^ 9 = w.toNat / 2 ^ 23 := Nat.mod_eq_of_lt (by omega)
  rw [unpackWord, toInt_extractUnsigned w 23 (by decide), ha]
  simp (disch := decide) only [toInt_extractUnsigned, toInt_extractSigned, Nat.reducePow, Nat.div_one]

/-- UNPACK's check (R233): the upper half of a word is zero exactly when the word is below 2^32. -/
theorem upperHalf_beq_zero (w : Word64) : (w.extractLsb' 32 32 == 0#32) = decide (w.toNat < 2 ^ 32) := by
  rw [Bool.eq_iff_iff, beq_iff_eq, decide_eq_true_iff, ← BitVec.toNat_inj, BitVec.extractLsb'_toNat,
    Nat.shiftRight_eq_div_pow, BitVec.toNat_zero]
  omega

/-- UNPACK's calculation (R233), split by the word's size. -/
theorem unpackCalc_eq {dimBits : Nat} (s : State dimBits) :
    unpackCalc s = if s.w64.val.toNat < 2 ^ 32 then .ok { ri := recordPorts (unpackWord s.w64.val) }
      else raise (errMalformed reasonUpperBits) := by
  rw [unpackCalc, check_bind, upperHalf_beq_zero, pure_calc]
  simp only [decide_eq_true_iff]

/-- Settles O33: the check splits the words at 2^32, and below it the record is R97's. -/
theorem unpackFields : Obligations.UnpackFields := by
  intro s hs
  have hv : ∀ p ∈ operandPorts .unpack, s.inValid p = true := List.forall_mem_singleton.2 hs
  have hcalc := unpackCalc_eq s
  constructor
  · intro hw
    rw [if_pos hw, unpackWord_eq hw] at hcalc
    simpa only [recordPorts, bmod_thirtyTwo] using exec_succeeds hv hcalc
  · intro hw
    rw [if_neg hw.not_gt] at hcalc
    exact exec_fails hv hcalc

end Sys2Proof.Machine
end

section
/-! SUPPORT. The bit-field commands (40_bitfield.md R130 to R143): each command's calculation split by its checks, the field an
insert replaces, bit by bit, and the extraction of a replaced field. -/

namespace Sys2Proof.Machine

section

variable {dimBits : Nat}

/-! ### The calculations, split by their checks (R137 to R142) -/

/-- A check of an inequality splits the calculation by the inequality. -/
theorem check_decide_bind {α : Type} (p : Prop) [Decidable p] (e : Error) (g : Unit → Calc α) :
    (check (decide p) e >>= g) = if p then g () else raise e := by
  simp only [check_bind, decide_eq_true_iff]

theorem fitsUCalc_eq (width : Nat) (s : State dimBits) :
    fitsUCalc width s =
      if width ≤ 64 then .ok { rb := some (decide (s.v64.val.toNat < 2 ^ width)) } else raise errFieldBounds := by
  rw [fitsUCalc, check_decide_bind, pure_calc, State.vU64, fitsUnsigned_natCast]

theorem fitsSCalc_eq (width : Nat) (s : State dimBits) :
    fitsSCalc width s =
      if width ≤ 64 then .ok { rb := some (fitsSigned s.v64.val.toInt width) } else raise errFieldBounds :=
  check_decide_bind _ _ _

theorem extractUCalc_eq (width lsb : Nat) (s : State dimBits) :
    extractUCalc width lsb s =
      if width + lsb ≤ 64 then .ok { rw64 := some (extractUnsigned s.w64.val width lsb) } else raise errFieldBounds :=
  check_decide_bind _ _ _

theorem extractSCalc_eq (width lsb : Nat) (s : State dimBits) :
    extractSCalc width lsb s =
      if width + lsb ≤ 64 then .ok { rw64 := some (extractSigned s.w64.val width lsb) } else raise errFieldBounds :=
  check_decide_bind _ _ _

/-- An insert's end, by its fit test. -/
theorem insertResult_ite (b : Bool) (w : Word64) :
    insertResult (dimBits := dimBits) (if b then some w else none) =
      if b then .ok { rw64 := some w } else raise errRange := by
  cases b <;> rfl

theorem insertUCalc_eq (width lsb : Nat) (s : State dimBits) :
    insertUCalc width lsb s =
      if width + lsb ≤ 64 then
        if s.v64.val.toNat < 2 ^ width then .ok { rw64 := some (replaceField s.w64.val width lsb s.v64.val.toNat) }
        else raise errRange
      else raise errFieldBounds := by
  rw [insertUCalc, inBounds, check_decide_bind, insertUnsigned, insertResult_ite, State.vU64, fitsUnsigned_natCast]
  simp only [decide_eq_true_iff]

theorem insertSCalc_eq (width lsb : Nat) (s : State dimBits) :
    insertSCalc width lsb s =
      if width + lsb ≤ 64 then
        if fitsSigned s.v64.val.toInt width then
          .ok { rw64 := some (replaceField s.w64.val width lsb s.v64.val.toInt) }
        else raise errRange
      else raise errFieldBounds := by
  rw [insertSCalc, inBounds, check_decide_bind, insertSigned, insertResult_ite, State.vS64]

end

/-! ### The fit tests (R130, R131) -/

theorem fitsUnsigned_iff (n : Int) (width : Nat) : fitsUnsigned n width = true ↔ 0 ≤ n ∧ n < 2 ^ width := by
  simp only [fitsUnsigned, decide_eq_true_iff, Nat.cast_pow, Nat.cast_ofNat]

theorem fitsSigned_of_pos {width : Nat} (h : 1 ≤ width) (n : Int) :
    fitsSigned n width = decide (-(2 ^ (width - 1)) ≤ n ∧ n < 2 ^ (width - 1)) := by
  simp only [fitsSigned, if_neg (Nat.one_le_iff_ne_zero.1 h), Nat.cast_pow, Nat.cast_ofNat]

theorem fitsSigned_iff_cases (n : Int) (width : Nat) :
    fitsSigned n width = true ↔
      (width = 0 ∧ n = 0) ∨ (1 ≤ width ∧ -(2 ^ (width - 1)) ≤ n ∧ n < 2 ^ (width - 1)) := by
  obtain rfl | h := Nat.eq_zero_or_pos width
  · simp [fitsSigned]
  · simp [fitsSigned_of_pos h, h.ne', Nat.one_le_iff_ne_zero]

/-! ### Extraction (R133, R134) -/

theorem extractUnsigned_bit (w : Word64) (width lsb : Nat) {j : Nat} (hj : j < 64) :
    (extractUnsigned w width lsb).getLsbD j = (decide (j < width) && w.getLsbD (lsb + j)) := by
  simp [extractUnsigned, hj]

theorem extractSigned_zero (w : Word64) (lsb : Nat) : extractSigned w 0 lsb = 0#64 := by
  simp [extractSigned]

/-- Sign extension repeats the field's top bit. -/
theorem extractSigned_bit (w : Word64) {width : Nat} (lsb : Nat) (hw : 1 ≤ width) {j : Nat} (hj : j < 64) :
    (extractSigned w width lsb).getLsbD j = w.getLsbD (lsb + min j (width - 1)) := by
  rw [extractSigned, BitVec.getLsbD_signExtend]
  by_cases h : j < width
  · have hmin : min j (width - 1) = j := by omega
    simp [hj, h, hmin]
  · have hmin : min j (width - 1) = width - 1 := by omega
    simp [hj, h, hmin, BitVec.msb_eq_getLsbD_last, show 0 < width from hw]

theorem extractU_succeeds {s : State} {width lsb : Nat} (hs : s.w64.valid = true) (hb : width + lsb ≤ 64) :
    ∃ t, exec (.extractU width lsb) s = .next t ∧
      Succeeded s t { rw64 := some (extractUnsigned s.w64.val width lsb) } :=
  exec_succeeds (List.forall_mem_singleton.2 hs) ((extractUCalc_eq width lsb s).trans (if_pos hb))

theorem extractS_succeeds {s : State} {width lsb : Nat} (hs : s.w64.valid = true) (hb : width + lsb ≤ 64) :
    ∃ t, exec (.extractS width lsb) s = .next t ∧
      Succeeded s t { rw64 := some (extractSigned s.w64.val width lsb) } :=
  exec_succeeds (List.forall_mem_singleton.2 hs) ((extractSCalc_eq width lsb s).trans (if_pos hb))

/-! ### Insertion (R135, R136) -/

/-- `r` has the low bits of `x` in the field and the bits of `w` everywhere else. -/
def FieldReplaced (w x : Word64) (width lsb : Nat) (r : Word64) : Prop :=
  ∀ j, j < 64 → r.getLsbD j = if lsb ≤ j ∧ j < lsb + width then x.getLsbD (j - lsb) else w.getLsbD j

/-- A value whose low `width` bits are those of `x` puts them in the field. -/
theorem fieldReplaced_replaceField {w x : Word64} {width lsb : Nat} {v : Int}
    (h : ∀ k, k < width → (v % ((2 ^ width : Nat) : Int)).toNat.testBit k = x.getLsbD k) :
    FieldReplaced w x width lsb (replaceField w width lsb v) := by
  intro j hj
  rw [replaceField_bit w width lsb v j hj]
  exact if_ctx_congr Iff.rfl (fun hf => h _ (by omega)) fun _ => rfl

theorem fieldReplaced_toNat (w x : Word64) (width lsb : Nat) :
    FieldReplaced w x width lsb (replaceField w width lsb x.toNat) :=
  fieldReplaced_replaceField fun k hk => emod_testBit_toNat x width k hk

theorem fieldReplaced_toInt (w x : Word64) {width : Nat} (lsb : Nat) (hw : width ≤ 64) :
    FieldReplaced w x width lsb (replaceField w width lsb x.toInt) :=
  fieldReplaced_replaceField fun k hk => emod_testBit_toInt x width k hk hw

/-- The ports that both inserts read are written. -/
theorem insertOperands_written {s : State} (hw : s.w64.valid = true) (hv : s.v64.valid = true) :
    ∀ p ∈ [InPort.w64, .v64], s.inValid p = true :=
  List.forall_mem_cons.2 ⟨hw, List.forall_mem_singleton.2 hv⟩

theorem insertU_succeeds {s : State} {width lsb : Nat} (hw : s.w64.valid = true) (hv : s.v64.valid = true)
    (hb : width + lsb ≤ 64) (hfit : s.v64.val.toNat < 2 ^ width) :
    ∃ t r, exec (.insertU width lsb) s = .next t ∧ Succeeded s t { rw64 := some r } ∧
      FieldReplaced s.w64.val s.v64.val width lsb r := by
  have hcalc := (insertUCalc_eq width lsb s).trans ((if_pos hb).trans (if_pos hfit))
  obtain ⟨t, ht, hend⟩ := exec_succeeds (i := .insertU width lsb) (insertOperands_written hw hv) hcalc
  exact ⟨t, _, ht, hend, fieldReplaced_toNat _ _ _ _⟩

theorem insertS_succeeds {s : State} {width lsb : Nat} (hw : s.w64.valid = true) (hv : s.v64.valid = true)
    (hb : width + lsb ≤ 64) (hfit : FitsS s.v64.val.toInt width) :
    ∃ t r, exec (.insertS width lsb) s = .next t ∧ Succeeded s t { rw64 := some r } ∧
      FieldReplaced s.w64.val s.v64.val width lsb r := by
  have hcalc := (insertSCalc_eq width lsb s).trans ((if_pos hb).trans (if_pos ((fitsSigned_iff _ _).2 hfit)))
  obtain ⟨t, ht, hend⟩ := exec_succeeds (i := .insertS width lsb) (insertOperands_written hw hv) hcalc
  exact ⟨t, _, ht, hend, fieldReplaced_toInt _ _ _ (by omega)⟩

/-! ### Extraction of a replaced field (R143) -/

/-- The field of a word in which it was replaced holds the value's low bits. -/
theorem FieldReplaced.extractLsb' {w x r : Word64} {width lsb : Nat} (h : FieldReplaced w x width lsb r)
    (hb : width + lsb ≤ 64) : r.extractLsb' lsb width = x.setWidth width := by
  refine BitVec.eq_of_getLsbD_eq fun j hj => ?_
  have hbit := h (lsb + j) (by omega)
  rw [if_pos (by omega), Nat.add_sub_cancel_left] at hbit
  simp [hj, hbit]

theorem extractUnsigned_of_fieldReplaced {w x r : Word64} {width lsb : Nat} (h : FieldReplaced w x width lsb r)
    (hb : width + lsb ≤ 64) (hfit : x.toNat < 2 ^ width) : extractUnsigned r width lsb = x := by
  apply BitVec.eq_of_toNat_eq
  rw [extractUnsigned, h.extractLsb' hb, BitVec.toNat_setWidth_of_le (by omega), BitVec.toNat_setWidth,
    Nat.mod_eq_of_lt hfit]

/-- A number that fits a signed field is its own residue there. -/
theorem bmod_of_fitsS {n : Int} {width : Nat} (h : FitsS n width) : n.bmod (2 ^ width) = n := by
  unfold FitsS at h
  split_ifs at h with hw
  · subst hw h
    rfl
  · have hpow : 2 ^ width = 2 * 2 ^ (width - 1) := by rw [← pow_succ', Nat.sub_add_cancel (by omega)]
    apply Int.bmod_eq_of_le_mul_two <;> push_cast [hpow] <;> omega

theorem extractSigned_of_fieldReplaced {w x r : Word64} {width lsb : Nat} (h : FieldReplaced w x width lsb r)
    (hb : width + lsb ≤ 64) (hfit : FitsS x.toInt width) : extractSigned r width lsb = x := by
  apply BitVec.eq_of_toInt_eq
  have hw : width ≤ 64 := by omega
  rw [extractSigned, h.extractLsb' hb, BitVec.toInt_signExtend_of_le hw, ← BitVec.signExtend_eq_setWidth_of_le x hw,
    BitVec.toInt_signExtend, min_eq_left hw, bmod_of_fitsS hfit]

/-- An insert and then the extract of the same field: what both laws of R143 say of the two commands, given that the extract
of a word with the field replaced gives the value. -/
theorem extract_after_insert {s : State} {insert extract : Instr} {width lsb : Nat}
    (hins : ∃ t r, exec insert s = .next t ∧ Succeeded s t { rw64 := some r } ∧
      FieldReplaced s.w64.val s.v64.val width lsb r)
    (hext : ∀ u : State, u.w64.valid = true → FieldReplaced s.w64.val s.v64.val width lsb u.w64.val →
      ∃ v, exec extract u = .next v ∧ Succeeded u v { rw64 := some s.v64.val }) :
    ∃ t, exec insert s = .next t ∧
      (∀ u : State, u.w64 = t.rw64 → ∃ v, exec extract u = .next v ∧ v.rw64 = ⟨s.v64.val, true⟩) ∧
      ∀ j, j < 64 → ¬ (lsb ≤ j ∧ j < lsb + width) → t.rw64.val.getLsbD j = s.w64.val.getLsbD j := by
  obtain ⟨t, r, ht, hend, hrep⟩ := hins
  have hrw : t.rw64 = ⟨r, true⟩ := hend.rw64
  refine ⟨t, ht, fun u hu => ?_, fun j hj hout => ?_⟩
  · rw [hrw] at hu
    obtain ⟨v, hv, hvend⟩ := hext u (by rw [hu]) (by rwa [hu])
    exact ⟨v, hv, hvend.rw64⟩
  · rw [hrw, hrep j hj, if_neg hout]

/-! ### The obligations, in a namespace of their own: five are named like the functions they speak of -/

namespace Bitfield

/-- Settles O24: the check splits the widths at 64, and below it RB is R130's inequality on a u64. -/
theorem fitsUnsigned : Obligations.FitsUnsigned := by
  refine ⟨fitsUnsigned_iff, fun s width hs => ?_⟩
  have hv : ∀ p ∈ operandPorts (.fitsU width), s.inValid p = true := List.forall_mem_singleton.2 hs
  have hcalc := fitsUCalc_eq width s
  exact ⟨fun hw => exec_succeeds hv (hcalc.trans (if_pos hw)), fun hw => exec_fails hv (hcalc.trans (if_neg hw.not_ge))⟩

/-- Settles O25: as O24, with R131's two formulas for width 0 and for a positive width. -/
theorem fitsSigned : Obligations.FitsSigned := by
  refine ⟨fitsSigned_iff_cases, fun s width hs => ?_⟩
  have hv : ∀ p ∈ operandPorts (.fitsS width), s.inValid p = true := List.forall_mem_singleton.2 hs
  have hcalc := fitsSCalc_eq width s
  refine ⟨?_, fun h1 hw => ?_, fun hw => exec_fails hv (hcalc.trans (if_neg hw.not_ge))⟩
  · rintro rfl
    exact exec_succeeds hv (hcalc.trans (if_pos (by decide)))
  · rw [← fitsSigned_of_pos h1]
    exact exec_succeeds hv (hcalc.trans (if_pos hw))

/-- Settles O26: RW64 is `extractUnsigned`, whose bits are the field's and zeros above. -/
theorem extractUnsigned : Obligations.ExtractUnsigned := by
  intro s width lsb hs
  constructor
  · intro hb
    obtain ⟨t, ht, hend⟩ := extractU_succeeds hs hb
    exact ⟨t, _, ht, hend, fun j hj => extractUnsigned_bit _ _ _ hj⟩
  · intro hb
    exact exec_fails (i := .extractU width lsb) (List.forall_mem_singleton.2 hs)
      ((extractUCalc_eq width lsb s).trans (if_neg hb.not_ge))

/-- Settles O27: RW64 is `extractSigned`, whose bits are the field's and its top bit above. -/
theorem extractSigned : Obligations.ExtractSigned := by
  intro s width lsb hs
  constructor
  · intro hb
    obtain ⟨t, ht, hend⟩ := extractS_succeeds hs hb
    refine ⟨t, _, ht, hend, ?_, fun hw j hj => extractSigned_bit _ _ hw hj⟩
    rintro rfl
    exact extractSigned_zero _ _
  · intro hb
    exact exec_fails (i := .extractS width lsb) (List.forall_mem_singleton.2 hs)
      ((extractSCalc_eq width lsb s).trans (if_neg hb.not_ge))

/-- Settles O28: the bounds check comes before the fit test (R303), and a value that passes both replaces the field. -/
theorem insertUnsigned : Obligations.InsertUnsigned := by
  intro s width lsb hw hv
  have hops : ∀ p ∈ operandPorts (.insertU width lsb), s.inValid p = true := insertOperands_written hw hv
  have hcalc := insertUCalc_eq width lsb s
  refine ⟨fun hb hfit => insertU_succeeds hw hv hb hfit, fun hb hfit => ?_, fun hb => ?_⟩
  · exact exec_fails hops (hcalc.trans ((if_pos hb).trans (if_neg hfit.not_gt)))
  · exact exec_fails hops (hcalc.trans (if_neg hb.not_ge))

/-- Settles O29: as O28, with the signed fit test. -/
theorem insertSigned : Obligations.InsertSigned := by
  intro s width lsb hw hv
  have hops : ∀ p ∈ operandPorts (.insertS width lsb), s.inValid p = true := insertOperands_written hw hv
  have hcalc := insertSCalc_eq width lsb s
  refine ⟨fun hb hfit => insertS_succeeds hw hv hb hfit, fun hb hfit => ?_, fun hb => ?_⟩
  · exact exec_fails hops (hcalc.trans ((if_pos hb).trans (if_neg (mt (fitsSigned_iff _ _).1 hfit))))
  · exact exec_fails hops (hcalc.trans (if_neg hb.not_ge))

/-- Settles O30: an insert replaces the field (O28, O29), and the extract of a replaced field gives back a value that fits. -/
theorem extractOfInsert : Obligations.ExtractOfInsert := by
  intro s width lsb hw hv hb
  constructor
  · intro hfit
    refine extract_after_insert (insertU_succeeds hw hv hb hfit) fun u hu hrep => ?_
    rw [← extractUnsigned_of_fieldReplaced hrep hb hfit]
    exact extractU_succeeds hu hb
  · intro hfit
    refine extract_after_insert (insertS_succeeds hw hv hb hfit) fun u hu hrep => ?_
    rw [← extractSigned_of_fieldReplaced hrep hb hfit]
    exact extractS_succeeds hu hb

end Bitfield

end Sys2Proof.Machine
end

section
/-! SUPPORT. The colour commands (41_colour.md R160 to R169): their checks as conditions on the operands, and each command's end
where its operands pass them and where they do not. -/

namespace Sys2Proof.Machine

section

variable {dimBits n : Nat} {s : State dimBits} {ks : List (Fin 12)}

/-! ### The float ports that a command reads and checks (R160) -/

/-- Operand ports among the first `n` float ports are written when these are. -/
theorem inValid_of_floatPortsWritten (h : FloatPortsWritten n s) (hks : ∀ k ∈ ks, k.val < n) :
    ∀ p ∈ ks.map InPort.f, s.inValid p = true :=
  List.forall_mem_map.2 fun k hk => h k (hks k hk)

/-- `check_f` on ports among the first `n` passes when these are in the domain. -/
theorem checkFloats_of_floatPortsInDomain (h : FloatPortsInDomain n s) (hks : ∀ k ∈ ks, k.val < n) :
    checkFloats Config.build s ks = .ok () :=
  checkFloats_ok fun k hk => h k (hks k hk)

/-- `check_f` on all of the first `n` ports raises NUMERIC_DOMAIN when one of them is not in the domain. -/
theorem checkFloats_of_not_floatPortsInDomain (h : ¬ FloatPortsInDomain n s) (hks : ∀ k : Fin 12, k.val < n → k ∈ ks) :
    checkFloats Config.build s ks = raise errNumeric :=
  checkFloats_fails fun hall => h fun k hk => hall k (hks k hk)

/-! ### The denominator and the channels (R161) -/

/-- `check_denom` splits a calculation by the build's denominators. -/
theorem checkDenom_bind {α : Type} (d : Int) (g : Unit → Calc α) :
    (checkDenom Config.build d >>= g) =
      if 1 ≤ d ∧ d ≤ 65535 then g () else raise (errMalformed reasonDenominator) :=
  check_decide_bind _ _ _

/-- `check_channel` on three channels is one condition: each raises the same error. -/
theorem checkChannels_bind {α : Type} (r g b d : Int) (c : Calc α) :
    (do checkChannel r d; checkChannel g d; checkChannel b d; c) =
      if (0 ≤ r ∧ r ≤ d) ∧ (0 ≤ g ∧ g ≤ d) ∧ (0 ≤ b ∧ b ≤ d) then c else raise (errMalformed reasonChannel) := by
  simp only [checkChannel, check_decide_bind]
  rw [ite_and (0 ≤ r ∧ r ≤ d), ite_and (0 ≤ g ∧ g ≤ d)]

/-! ### The calculations (R166, R169) -/

/-- RGB_TO_NORM's calculation, split by its two kinds of check. -/
theorem rgbToNormCalc_eq (s : State dimBits) :
    rgbToNormCalc Config.build s =
      if 1 ≤ s.int 3 ∧ s.int 3 ≤ 65535 then
        if (0 ≤ s.int 0 ∧ s.int 0 ≤ s.int 3) ∧ (0 ≤ s.int 1 ∧ s.int 1 ≤ s.int 3) ∧ (0 ≤ s.int 2 ∧ s.int 2 ≤ s.int 3) then
          .ok { rf := [F64.div (F64.ofInt (s.int 0)) (F64.ofInt (s.int 3)), F64.div (F64.ofInt (s.int 1)) (F64.ofInt (s.int 3)),
            F64.div (F64.ofInt (s.int 2)) (F64.ofInt (s.int 3))] }
        else raise (errMalformed reasonChannel)
      else raise (errMalformed reasonDenominator) := by
  rw [rgbToNormCalc, checkDenom_bind, checkChannels_bind, Config.build_numeric, rgbToNormalized_binary64, pure_calc]

/-- NORM_TO_RGB's calculation on channels in the domain, split by the denominator. -/
theorem normToRgbCalc_of_inDomain (h : FloatPortsInDomain 3 s) :
    normToRgbCalc Config.build s =
      if 1 ≤ s.int 3 ∧ s.int 3 ≤ 65535 then
        .ok { ri := [s64 (channelOf Config.build (s.flt 0) (s.int 3)), s64 (channelOf Config.build (s.flt 1) (s.int 3)),
          s64 (channelOf Config.build (s.flt 2) (s.int 3))] }
      else raise (errMalformed reasonDenominator) := by
  rw [normToRgbCalc, checkFloats_of_floatPortsInDomain h (by decide), ok_bind, checkDenom_bind, pure_calc]

/-- On a channel out of the domain NORM_TO_RGB ends before it looks at the denominator (R303). -/
theorem normToRgbCalc_of_not_inDomain (h : ¬ FloatPortsInDomain 3 s) :
    normToRgbCalc Config.build s = raise errNumeric := by
  rw [normToRgbCalc, checkFloats_of_not_floatPortsInDomain h (by decide), raise_bind]

/-- The ports that RGB_TO_NORM reads, R92's I[0..3], are written. -/
theorem rgbToNormOperands_written (h : ∀ k : Fin 4, s.i[k.val].valid = true) :
    ∀ p ∈ operandPorts .rgbToNorm, s.inValid p = true := by
  simp only [operandPorts, List.forall_mem_cons]
  exact ⟨h 0, h 1, h 2, h 3, List.forall_mem_nil _⟩

/-- The ports that NORM_TO_RGB reads, R92's F[0..2] and I[3], are written. -/
theorem normToRgbOperands_written (hf : FloatPortsWritten 3 s) (hi : s.i[3].valid = true) :
    ∀ p ∈ operandPorts .normToRgb, s.inValid p = true :=
  List.forall_mem_append.2
    ⟨inValid_of_floatPortsWritten (ks := [0, 1, 2]) hf (by decide), (List.forall_mem_singleton (a := InPort.i 3)).2 hi⟩

end

/-! ### The obligations -/

/-- Settles O35: the denominator's check comes first and then the channels' (R166), and the results are R162's divisions. -/
theorem rgbToNorm : Obligations.RgbToNorm := by
  intro s hs
  have hops := rgbToNormOperands_written hs
  have hcalc := rgbToNormCalc_eq s
  refine ⟨fun hd hc => ?_, fun hd => ?_, fun hd hc => ?_⟩
  · exact exec_succeeds hops (hcalc.trans ((if_pos hd).trans (if_pos hc)))
  · exact exec_fails hops (hcalc.trans (if_neg hd))
  · exact exec_fails hops (hcalc.trans ((if_pos hd).trans (if_neg hc)))

/-- Settles O36: in the domain the calculation is R163's formulas, whose literals are the patterns of
`normalizedToLumaChroma_binary64`. -/
theorem normToYpbpr : Obligations.NormToYpbpr := by
  intro s hw hd
  refine exec_succeeds (i := .normToYpbpr) (inValid_of_floatPortsWritten (ks := [0, 1, 2]) hw (by decide)) ?_
  rw [commandCalc, normToYpbprCalc, checkFloats_of_floatPortsInDomain hd (by decide), ok_bind, Config.build_numeric,
    normalizedToLumaChroma_binary64, pure_calc]

/-- Settles O37: in the domain the calculation is R164's formulas, with the literals of
`lumaChromaToNormalized_binary64` and no clamp after them. -/
theorem ypbprToNorm : Obligations.YpbprToNorm := by
  intro s hw hd
  refine exec_succeeds (i := .ypbprToNorm) (inValid_of_floatPortsWritten (ks := [0, 1, 2]) hw (by decide)) ?_
  rw [commandCalc, ypbprToNormCalc, checkFloats_of_floatPortsInDomain hd (by decide), ok_bind, Config.build_numeric,
    lumaChromaToNormalized_binary64, pure_calc]

/-- Settles O38: the float check comes before the denominator's (R303), and each result is R165's channel, rounded and then
clamped. -/
theorem normToRgb : Obligations.NormToRgb := by
  intro s hf hi
  have hops := normToRgbOperands_written hf hi
  refine ⟨fun hdom h1 h2 => ?_, fun hdom => ?_, fun hdom hd => ?_⟩
  · simp only [← channelOf_build]
    exact exec_succeeds hops ((normToRgbCalc_of_inDomain hdom).trans (if_pos ⟨h1, h2⟩))
  · exact exec_fails hops (normToRgbCalc_of_not_inDomain hdom)
  · exact exec_fails hops ((normToRgbCalc_of_inDomain hdom).trans (if_neg hd))

end Sys2Proof.Machine
end

section
/-! SUPPORT. The block transform commands (42_block_transform.md R180 to R184) on operands in the domain. -/

namespace Sys2Proof.Machine

section

variable {dimBits : Nat} {s : State dimBits}

/-- BLK_FWD's calculation on pixels in the domain: R180 on the lumas and R181 on the chromas, in R99's port order. -/
theorem blkFwdCalc_of_inDomain (h : FloatPortsInDomain 12 s) :
    blkFwdCalc Config.build s = .ok { rf := coeffPorts (blockForward .binary64 ⟨s.flt 0, s.flt 1, s.flt 2⟩
      ⟨s.flt 3, s.flt 4, s.flt 5⟩ ⟨s.flt 6, s.flt 7, s.flt 8⟩ ⟨s.flt 9, s.flt 10, s.flt 11⟩) } := by
  rw [blkFwdCalc, checkFloats_of_floatPortsInDomain h (by decide), ok_bind, Config.build_numeric, pure_calc]

/-- BLK_INV's calculation on coefficients in the domain: R182's four pixels, in R26's port order. -/
theorem blkInvCalc_of_inDomain (h : FloatPortsInDomain 6 s) :
    blkInvCalc Config.build s = .ok { rf := yppPorts (blockInverse .binary64 s.coeffs) } := by
  rw [blkInvCalc, checkFloats_of_floatPortsInDomain h (by decide), ok_bind, Config.build_numeric, pure_calc]

end

/-! ### The obligations, in a namespace of their own: both are named like the functions they speak of -/

namespace BlockTransform

/-- Settles O40: in the domain the results are R180's and R181's formulas on F[0..11], with the divisor 4.0 of
`blockForward_binary64`. -/
theorem blockForward : Obligations.BlockForward := by
  intro s hw hd
  have hops : ∀ p ∈ operandPorts .blkFwd, s.inValid p = true :=
    inValid_of_floatPortsWritten (ks := [0, 1, 2, 3, 4, 5, 6, 7, 8, 9, 10, 11]) hw (by decide)
  simpa only [blockForward_binary64, coeffPorts] using exec_succeeds hops (blkFwdCalc_of_inDomain hd)

/-- Settles O41: in the domain the results are R182's pixels of the coefficients in F[0..5], each with F[4] and F[5] as
its chroma. -/
theorem blockInverse : Obligations.BlockInverse := by
  intro s hw hd
  have hops : ∀ p ∈ operandPorts .blkInv, s.inValid p = true :=
    inValid_of_floatPortsWritten (ks := [0, 1, 2, 3, 4, 5]) hw (by decide)
  simpa only [blockInverse_binary64, State.coeffs, yppPorts] using exec_succeeds hops (blkInvCalc_of_inDomain hd)

end BlockTransform

end Sys2Proof.Machine
end

section
/-! SUPPORT. The quantizer commands on one value (43_quantizer.md R200 to R213): the codebook search finds the nearest
level, and each command's end where its operand passes its check and where it does not. -/

namespace Sys2Proof.Machine

/-! ### The codebook search (R203) -/

/-- `b` is the first of the indices below `n` at which the distance `d` is least. -/
def FirstNearest (d : Nat → Nat) (n b : Nat) : Prop :=
  b < n ∧ ∀ j, j < n → d b ≤ d j ∧ (j < b → d b < d j)

/-- One more index takes the place of the first nearest one exactly when it is strictly nearer. -/
theorem FirstNearest.next {d : Nat → Nat} {n b : Nat} (h : FirstNearest d n b) :
    FirstNearest d (n + 1) (if d n < d b then n else b) := by
  obtain ⟨hb, hnear⟩ := h
  split
  case isTrue hlt =>
    refine ⟨by omega, fun j hj => ?_⟩
    rcases Nat.lt_succ_iff_lt_or_eq.1 hj with hjn | rfl
    · have := (hnear j hjn).1
      omega
    · omega
  case isFalse hge =>
    refine ⟨by omega, fun j hj => ?_⟩
    rcases Nat.lt_succ_iff_lt_or_eq.1 hj with hjn | rfl
    · exact hnear j hjn
    · omega

/-- The search goes on from the first nearest of the indices below `k` to that of all the indices. -/
theorem firstNearest_nearestLevel {nu : Numeric} {v : F64} {d : Nat → Nat} {ls : List F64} {k best : Nat}
    (h : FirstNearest d k best) (hd : ∀ j l, ls[j]? = some l → d (k + j) = (nu.val v - nu.val l).natAbs) :
    FirstNearest d (k + ls.length) (nearestLevel nu v ls k best (d best)) := by
  induction ls generalizing k best with
  | nil => exact h
  | cons l ls ih =>
    have hl : d k = (nu.val v - nu.val l).natAbs := hd 0 l rfl
    have hstep := ih h.next fun j l' hj => by
      rw [Nat.add_right_comm]
      exact hd (j + 1) l' hj
    rw [List.length_cons, ← Nat.add_assoc, Nat.add_right_comm]
    simp only [nearestLevel, ← hl]
    split
    case isTrue hlt => rwa [if_pos hlt] at hstep
    case isFalse hge => rwa [if_neg hge] at hstep

/-- The distance of `v` to the level `j` of a codebook, in the units of NUMERIC. -/
def levelDistance (nu : Numeric) (cb : Vector F64 16) (v : F64) (j : Nat) : Nat :=
  (nu.val v - nu.val (cb.toList.getD j default)).natAbs

theorem levelDistance_of_lt (nu : Numeric) (cb : Vector F64 16) (v : F64) {j : Nat} (hj : j < 16) :
    levelDistance nu cb v j = (nu.val v - nu.val cb[j]).natAbs := by
  simp [levelDistance, List.getD, hj]

/-- `chroma_quantize` gives the first nearest of the sixteen levels. -/
theorem firstNearest_chromaQuantize (nu : Numeric) (cb : Vector F64 16) (v : F64) :
    FirstNearest (levelDistance nu cb v) 16 (chromaQuantize nu cb v) := by
  have hfirst : FirstNearest (levelDistance nu cb v) 1 0 := ⟨Nat.one_pos, fun j hj => by simp [Nat.lt_one_iff.1 hj]⟩
  have hsearch := firstNearest_nearestLevel (nu := nu) (v := v) (ls := cb.toList.tail) hfirst fun j l hl => by
    rw [List.getElem?_tail] at hl
    rw [levelDistance, List.getD, Nat.add_comm 1 j, hl, Option.getD_some]
  rw [levelDistance_of_lt nu cb v (by decide : 0 < 16)] at hsearch
  simpa [chromaQuantize] using hsearch

/-- R203 in exact distances of binary64 values. -/
theorem abs_real_sub_chromaQuantize (cb : Vector F64 16) (v : F64) (j : Fin 16) :
    let k : Fin 16 := ⟨chromaQuantize .binary64 cb v, chromaQuantize_lt .binary64 cb v⟩
    |v.real - cb[k].real| ≤ |v.real - cb[j].real| ∧ (j < k → |v.real - cb[k].real| < |v.real - cb[j].real|) := by
  intro k
  have hdist (i : Fin 16) : |v.real - cb[i].real| = (levelDistance .binary64 cb v i : ℚ) / F64.one := by
    rw [F64.abs_real_sub, levelDistance_of_lt _ _ _ i.isLt, Numeric.binary64_val]
    rfl
  obtain ⟨hle, hlt⟩ := (firstNearest_chromaQuantize .binary64 cb v).2 j j.isLt
  rw [hdist, hdist, div_le_div_iff_of_pos_right F64.one_cast_pos, div_lt_div_iff_of_pos_right F64.one_cast_pos,
    Nat.cast_le, Nat.cast_lt]
  exact ⟨hle, hlt⟩

/-- A level is looked up at its own index (R202). -/
theorem chromaDequantize_val (cb : Vector F64 16) (k : Fin 16) : chromaDequantize cb (k.val : Int) = cb[k] := by
  have hk : (BitVec.ofInt 4 (k.val : Int)).toNat = k := by
    rw [BitVec.ofInt_natCast, BitVec.toNat_ofNat, Nat.mod_eq_of_lt k.isLt]
  simp only [chromaDequantize, hk]
  rfl

/-! ### The commands on one float (R208 to R210) -/

section

variable {s : State} {i : Instr}

/-- A command that checks F[0] and then names one integer result. -/
theorem quantizer_succeeds {q : Int} (hops : operandPorts i = [.f 0])
    (hcalc : commandCalc Config.build i s = do checkFloats Config.build s [0]; return { ri := [s64 q] })
    (hv : s.f[0].valid = true) (hd : InDomain (s.flt 0)) :
    ∃ t, exec i s = .next t ∧ Succeeded s t { ri := [s64 q] } := by
  refine exec_succeeds (by rw [hops]; exact List.forall_mem_singleton.2 hv) ?_
  rw [hcalc, checkFloats_ok (List.forall_mem_singleton.2 hd), ok_bind, pure_calc]

theorem quantA_succeeds (hv : s.f[0].valid = true) (hd : InDomain (s.flt 0)) :
    ∃ t, exec .quantA s = .next t ∧ Succeeded s t { ri := [s64 (quantA Config.build (s.flt 0))] } :=
  quantizer_succeeds rfl rfl hv hd

theorem quantBcd_succeeds (hv : s.f[0].valid = true) (hd : InDomain (s.flt 0)) :
    ∃ t, exec .quantBcd s = .next t ∧ Succeeded s t { ri := [s64 (quantBcd Config.build (s.flt 0))] } :=
  quantizer_succeeds rfl rfl hv hd

theorem chromaQ_succeeds (hv : s.f[0].valid = true) (hd : InDomain (s.flt 0)) :
    ∃ t, exec .chromaQ s = .next t ∧
      Succeeded s t { ri := [s64 (chromaQuantize .binary64 Config.build.codebook (s.flt 0))] } :=
  quantizer_succeeds rfl (by rw [← Config.build_numeric]; rfl) hv hd

/-! ### The commands on one integer (R211 to R213) -/

/-- `checkRange` splits a calculation by the range. -/
theorem checkRange_bind {α : Type} (v lo hi : Int) (g : Unit → Calc α) :
    (checkRange v lo hi >>= g) = if lo ≤ v ∧ v ≤ hi then g () else raise (errMalformed reasonValueRange) :=
  check_decide_bind _ _ _

variable {lo hi : Int} {x : F64}

/-- A command that checks I[0]'s range and then names one float result: its end in the range. -/
theorem dequantizer_succeeds (hops : operandPorts i = [.i 0])
    (hcalc : commandCalc Config.build i s = do checkRange (s.int 0) lo hi; return { rf := [x] })
    (hv : s.i[0].valid = true) (hr : lo ≤ s.int 0 ∧ s.int 0 ≤ hi) :
    ∃ t, exec i s = .next t ∧ Succeeded s t { rf := [x] } := by
  refine exec_succeeds (by rw [hops]; exact List.forall_mem_singleton.2 hv) ?_
  rw [hcalc, checkRange_bind, if_pos hr, pure_calc]

/-- A command that checks I[0]'s range: its end outside the range. -/
theorem dequantizer_fails (hops : operandPorts i = [.i 0])
    (hcalc : commandCalc Config.build i s = do checkRange (s.int 0) lo hi; return { rf := [x] })
    (hv : s.i[0].valid = true) (hr : ¬ (lo ≤ s.int 0 ∧ s.int 0 ≤ hi)) :
    ∃ t, exec i s = .next t ∧ Failed s t 0x000005F2#32 := by
  refine exec_fails (e := errMalformed reasonValueRange) (by rw [hops]; exact List.forall_mem_singleton.2 hv) ?_
  rw [hcalc, checkRange_bind, if_neg hr]

theorem chromaDqCalc_build (s : State) : commandCalc Config.build .chromaDq s =
    do checkRange (s.int 0) 0 15; return { rf := [chromaDequantize Config.build.codebook (s.int 0)] } := by
  rw [commandCalc, chromaDqCalc]

theorem dequantACalc_build (s : State) : commandCalc Config.build .dequantA s =
    do checkRange (s.int 0) 0 511; return { rf := [dequantA .binary64 (s.int 0)] } := by
  rw [commandCalc, dequantACalc, Config.build_numeric]

theorem dequantBcdCalc_build (s : State) : commandCalc Config.build .dequantBcd s =
    do checkRange (s.int 0) (-16) 15; return { rf := [dequantBcd .binary64 (s.int 0)] } := by
  rw [commandCalc, dequantBcdCalc, Config.build_numeric]

end

/-! ### The obligations -/

/-- Settles O42: the result in the domain is R200's, with 511.0 as the literal of `quantA_build`. -/
theorem quantizeA : Obligations.QuantizeA := by
  intro s hv hd
  rw [← quantA_build]
  exact quantA_succeeds hv hd

/-- Settles O43: the result in the domain is R201's, with the literals of `quantBcd_build`, and `abs_quantBcd_le` bounds it. -/
theorem quantizeBcd : Obligations.QuantizeBcd := by
  refine ⟨by decide +kernel, fun s hv hd => ?_⟩
  obtain ⟨t, hexec, hend⟩ := quantBcd_succeeds hv hd
  exact ⟨t, _, hexec, hend, quantBcd_build _, abs_le.1 (abs_quantBcd_le _)⟩

/-- Settles O44: the search's strict comparison keeps the first nearest level, so the lower index on a tie. -/
theorem chromaQuantizeNearest : Obligations.ChromaQuantizeNearest := by
  intro s hv hd
  obtain ⟨t, hexec, hend⟩ := chromaQ_succeeds hv hd
  exact ⟨t, ⟨_, chromaQuantize_lt _ _ _⟩, hexec, hend, abs_real_sub_chromaQuantize _ _⟩

/-- Settles O46: each command's range check splits its integers, and inside the range the value is the level or the quotient of
`dequantA_binary64` or `dequantBcd_binary64`. -/
theorem dequantizers : Obligations.Dequantizers := by
  refine ⟨by decide +kernel, fun s hv =>
    ⟨fun k hk => ?_, fun hr => ?_, fun hr => ?_, fun hr => ?_, fun hr => ?_, fun hr => ?_⟩⟩
  · have hr : 0 ≤ s.int 0 ∧ s.int 0 ≤ 15 := by omega
    rw [← chromaDequantize_val, ← hk]
    exact dequantizer_succeeds rfl (chromaDqCalc_build s) hv hr
  · exact dequantizer_fails rfl (chromaDqCalc_build s) hv hr
  · rw [← dequantA_binary64]
    exact dequantizer_succeeds rfl (dequantACalc_build s) hv hr
  · exact dequantizer_fails rfl (dequantACalc_build s) hv hr
  · rw [← dequantBcd_binary64]
    exact dequantizer_succeeds rfl (dequantBcdCalc_build s) hv hr
  · exact dequantizer_fails rfl (dequantBcdCalc_build s) hv hr

end Sys2Proof.Machine
end

section
/-! SUPPORT. The block quantizer and dequantizer (43_quantizer.md R206, R207, R214 to R216): the six fields of a record by their
port, each the result of one quantizer command or the operand of one dequantizer command. -/

namespace Sys2Proof.Machine

section

variable {s t u : State} {i : Instr} {r : Results}

/-! ### A result port after a command that completed (R34) -/

theorem Succeeded.ri_eq {w : Word64} (h : Succeeded s t r) (k : Fin 6) (hw : r.ri[k.val]? = some w) :
    t.ri[k] = ⟨w, true⟩ := by
  have hk := h.ri k
  rwa [hw] at hk

theorem Succeeded.rf_eq {x : F64} (h : Succeeded s t r) (k : Fin 12) (hx : r.rf[k.val]? = some x) :
    t.rf[k] = ⟨x, true⟩ := by
  have hk := h.rf k
  rwa [hx] at hk

/-- After STATUS 0x00000FF0 exactly the ports of the writes column are valid (R34, R92). -/
theorem outValid_of_status_ok (h : exec i s = .next t) (hok : t.status = 0x00000FF0#32)
    (hi : 0x00000FF0#32 ∉ errorWords i) (p : OutPort) : t.outValid p = true ↔ p ∈ resultPorts i := by
  obtain ⟨-, ⟨-, hvalid⟩ | ⟨herr, -⟩⟩ := commandResultsExactly i s t h
  · exact hvalid p
  · exact absurd (hok ▸ herr) hi

/-! ### The fields of a quantized record (R206) -/

/-- The value that `block_quantize` gives the field of port `k` for the coefficient `x`. -/
def quantizedField (k : Fin 6) (x : F64) : Int :=
  if k = 0 then quantA Config.build x else if k.val ≤ 3 then quantBcd Config.build x
  else chromaQuantize .binary64 Config.build.codebook x

theorem blockQuantize_coeffs (s : State) :
    blockQuantize Config.build s.coeffs =
      ⟨quantizedField 0 (s.flt 0), quantizedField 1 (s.flt 1), quantizedField 2 (s.flt 2), quantizedField 3 (s.flt 3),
       quantizedField 4 (s.flt 4), quantizedField 5 (s.flt 5)⟩ := by
  simp [blockQuantize, State.coeffs, quantizedField]

/-- RI[k] of BLK_QUANT (R99). -/
theorem recordPorts_blockQuantize (s : State) (k : Fin 6) :
    (recordPorts (blockQuantize Config.build s.coeffs))[k.val]? =
      some (s64 (quantizedField k (s.flt (k.castLE (by decide))))) := by
  rw [blockQuantize_coeffs, recordPorts]
  fin_cases k <;> rfl

theorem blkQuant_succeeds (hw : FloatPortsWritten 6 s) (hd : FloatPortsInDomain 6 s) :
    ∃ t, exec .blkQuant s = .next t ∧ Succeeded s t { ri := recordPorts (blockQuantize Config.build s.coeffs) } := by
  refine exec_succeeds (i := .blkQuant) (inValid_of_floatPortsWritten (ks := [0, 1, 2, 3, 4, 5]) hw (by decide)) ?_
  rw [commandCalc, blkQuantCalc, checkFloats_of_floatPortsInDomain hd (by decide), ok_bind, pure_calc]

/-- RI[k] after a BLK_QUANT that completed: its calculation ended well, or STATUS would show its error. -/
theorem blkQuant_ri (hexec : exec .blkQuant s = .next t) (hok : t.status = 0x00000FF0#32) (k : Fin 6) :
    t.ri[k] = ⟨s64 (quantizedField k (s.flt (k.castLE (by decide)))), true⟩ := by
  obtain ⟨-, ⟨r, hr, rfl⟩ | ⟨e, he, rfl⟩⟩ := exec_next hexec
  case inl =>
    obtain ⟨-, -, hr⟩ := bind_eq_ok.1 hr
    obtain rfl := Except.ok.inj hr
    exact (succeeded_succeed s _).ri_eq k (recordPorts_blockQuantize s k)
  case inr =>
    have hend := commandCalc_endsIn .blkQuant s
    rw [he] at hend
    have hstatus : statusWord e = 0x00000FF5#32 := List.mem_singleton.1 (endsIn_raise.1 hend)
    rw [State.takeError_status, hstatus] at hok
    exact absurd hok (by decide)

/-- The one-value command that gives the field of port `k`. -/
def fieldQuantizer (k : Fin 6) : Instr := if k = 0 then .quantA else if k.val ≤ 3 then .quantBcd else .chromaQ

theorem fieldQuantizer_succeeds (k : Fin 6) (hv : u.f[0].valid = true) (hd : InDomain (u.flt 0)) :
    ∃ v, exec (fieldQuantizer k) u = .next v ∧ Succeeded u v { ri := [s64 (quantizedField k (u.flt 0))] } := by
  unfold fieldQuantizer quantizedField
  split_ifs
  · exact quantA_succeeds hv hd
  · exact quantBcd_succeeds hv hd
  · exact chromaQ_succeeds hv hd

/-! ### The ranges of a quantized record (R216) -/

theorem quantA_mem (a : F64) : 0 ≤ quantA Config.build a ∧ quantA Config.build a ≤ 511 := by
  rw [quantA, clampInt]
  omega

theorem quantizedField_zero_mem (x : F64) : 0 ≤ quantizedField 0 x ∧ quantizedField 0 x ≤ 511 := by
  rw [quantizedField, if_pos rfl]
  exact quantA_mem x

theorem quantizedField_bcd_mem {k : Fin 6} (h1 : 1 ≤ k.val) (h3 : k.val ≤ 3) (x : F64) :
    -15 ≤ quantizedField k x ∧ quantizedField k x ≤ 15 := by
  rw [quantizedField, if_neg (by omega), if_pos h3]
  exact abs_le.1 (abs_quantBcd_le x)

theorem quantizedField_chroma_mem {k : Fin 6} (h4 : 4 ≤ k.val) (x : F64) :
    0 ≤ quantizedField k x ∧ quantizedField k x ≤ 15 := by
  rw [quantizedField, if_neg (by omega), if_neg (by omega)]
  have := chromaQuantize_lt .binary64 Config.build.codebook x
  omega

/-- Every field is far from the ends of s64, so its port reads back as it. -/
theorem toInt_quantizedField (k : Fin 6) (x : F64) : (s64 (quantizedField k x)).toInt = quantizedField k x := by
  have hmem : -15 ≤ quantizedField k x ∧ quantizedField k x ≤ 511 := by
    rcases (by omega : k = 0 ∨ (1 ≤ k.val ∧ k.val ≤ 3) ∨ 4 ≤ k.val) with rfl | ⟨h1, h3⟩ | h4
    · have := quantizedField_zero_mem x
      omega
    · have := quantizedField_bcd_mem h1 h3 x
      omega
    · have := quantizedField_chroma_mem h4 x
      omega
  exact BitVec.toInt_ofInt_eq_self (by decide) (by omega) (by omega)

/-- RI[k] after a BLK_QUANT that completed, read as s64. -/
theorem blkQuant_int (hexec : exec .blkQuant s = .next t) (hok : t.status = 0x00000FF0#32) (k : Fin 6) :
    t.ri[k].val.toInt = quantizedField k (s.flt (k.castLE (by decide))) := by
  rw [blkQuant_ri hexec hok, toInt_quantizedField]

/-! ### PACK of a quantized record -/

/-- The ports of a record, R92's I[0..5], are written. -/
theorem recordOperands_written (h : IntPortsWritten s) :
    ∀ p ∈ [InPort.i 0, .i 1, .i 2, .i 3, .i 4, .i 5], s.inValid p = true := by
  simp only [List.forall_mem_cons]
  exact ⟨h 0, h 1, h 2, h 3, h 4, h 5, List.forall_mem_nil _⟩

theorem pack_succeeds {w : Word64} (h : IntPortsWritten s) (hw : packRecord s.record = .ok w) :
    ∃ t, exec .pack s = .next t ∧ Succeeded s t { rw64 := some w } :=
  exec_succeeds (i := .pack) (recordOperands_written h) (by rw [commandCalc, packCalc, hw, packResult])

/-- The results of BLK_QUANT as the record of the next command. -/
theorem record_of_blkQuant (hexec : exec .blkQuant s = .next t) (hok : t.status = 0x00000FF0#32) (hu : u.i = t.ri) :
    IntPortsWritten u ∧ u.record = blockQuantize Config.build s.coeffs := by
  have hui (k : Fin 6) : u.i[k] = t.ri[k] := by rw [hu]
  refine ⟨fun k => congrArg Port.valid ((hui k).trans (blkQuant_ri hexec hok k)), ?_⟩
  have hint (k : Fin 6) : u.int k = quantizedField k (s.flt (k.castLE (by decide))) := by
    rw [State.int, hui, blkQuant_int hexec hok]
  rw [blockQuantize_coeffs, State.record, hint, hint, hint, hint, hint, hint]
  rfl

/-! ### The fields of a record to dequantize (R207) -/

/-- The range of the packed field of port `k` (R96). -/
def FieldInRange (k : Fin 6) (n : Int) : Prop :=
  if k = 0 then 0 ≤ n ∧ n ≤ 511 else if k.val ≤ 3 then -16 ≤ n ∧ n ≤ 15 else 0 ≤ n ∧ n ≤ 15

theorem fieldInRange_of_recordInRange (h : RecordInRange s.record) (k : Fin 6) : FieldInRange k (s.int k) := by
  obtain ⟨ha, hb, hc, hd, hpb, hpr⟩ := h
  fin_cases k
  · exact ha
  · exact hb
  · exact hc
  · exact hd
  · exact hpb
  · exact hpr

/-- The coefficient that `block_dequantize` gives for the value `n` of the field of port `k`. -/
def dequantizedField (k : Fin 6) (n : Int) : F64 :=
  if k = 0 then dequantA .binary64 n else if k.val ≤ 3 then dequantBcd .binary64 n
  else chromaDequantize Config.build.codebook n

theorem blockDequantize_record (s : State) :
    blockDequantize Config.build s.record =
      ⟨dequantizedField 0 (s.int 0), dequantizedField 1 (s.int 1), dequantizedField 2 (s.int 2), dequantizedField 3 (s.int 3),
       dequantizedField 4 (s.int 4), dequantizedField 5 (s.int 5)⟩ := by
  simp [blockDequantize, State.record, dequantizedField]

/-- RF[k] of BLK_DEQUANT (R99). -/
theorem coeffPorts_blockDequantize (s : State) (k : Fin 6) :
    (coeffPorts (blockDequantize Config.build s.record))[k.val]? = some (dequantizedField k (s.int k)) := by
  rw [blockDequantize_record, coeffPorts]
  fin_cases k <;> rfl

/-- BLK_DEQUANT's six checks are one condition on the record: each raises the same error. -/
theorem blkDequantCalc_eq (s : State) [Decidable (RecordInRange s.record)] :
    commandCalc Config.build .blkDequant s =
      if RecordInRange s.record then .ok { rf := coeffPorts (blockDequantize Config.build s.record) }
      else raise (errMalformed reasonValueRange) := by
  rw [commandCalc, blkDequantCalc]
  simp only [checkRange_bind, pure_calc, ← ite_and]
  exact if_congr Iff.rfl rfl rfl

/-- The one-value command that undoes the field of port `k`. -/
def fieldDequantizer (k : Fin 6) : Instr :=
  if k = 0 then .dequantA else if k.val ≤ 3 then .dequantBcd else .chromaDq

theorem fieldDequantizer_succeeds {k : Fin 6} (hv : u.i[0].valid = true) (hr : FieldInRange k (u.int 0)) :
    ∃ v, exec (fieldDequantizer k) u = .next v ∧ Succeeded u v { rf := [dequantizedField k (u.int 0)] } := by
  unfold FieldInRange at hr
  unfold fieldDequantizer dequantizedField
  split_ifs at hr ⊢
  · exact dequantizer_succeeds rfl (dequantACalc_build u) hv hr
  · exact dequantizer_succeeds rfl (dequantBcdCalc_build u) hv hr
  · exact dequantizer_succeeds rfl (chromaDqCalc_build u) hv hr

end

/-! ### The obligations -/

/-- Settles O47: RI[k] is the field of port `k` of the coefficient in F[k], and that is what the field's own command gives
from F[0]. -/
theorem blockQuantizeIsItsParts : Obligations.BlockQuantizeIsItsParts := by
  intro s hw hd
  obtain ⟨t, hexec, hend⟩ := blkQuant_succeeds hw hd
  have hports : ∀ p : OutPort, p ∈ resultPorts .blkQuant ↔ ∃ k : Fin 6, p = .ri k := fun p => by
    simp [resultPorts, Fin.exists_fin_succ]
  refine ⟨t, hexec, hend.status, hend.inputs,
    fun p => (outValid_of_status_ok hexec hend.status (by decide) p).trans (hports p), fun k u hu => ?_⟩
  have hlt : (k.castLE (by decide) : Fin 12).val < 6 := k.isLt
  have hflt : u.flt 0 = s.flt (k.castLE (by decide)) := congrArg Port.val hu
  obtain ⟨v, hv, hpart⟩ := fieldQuantizer_succeeds k ((congrArg Port.valid hu).trans (hw _ hlt)) (hflt ▸ hd _ hlt)
  rw [hflt] at hpart
  exact ⟨v, hv, (hpart.ri_eq 0 rfl).trans (hend.ri_eq k (recordPorts_blockQuantize s k)).symm⟩

/-- Settles O48: the six checks are the record's ranges, and RF[k] is what the field's own command gives for I[k] in I[0]. -/
theorem blockDequantizeIsItsParts : Obligations.BlockDequantizeIsItsParts := by
  classical
  intro s hw
  have hops : ∀ p ∈ operandPorts .blkDequant, s.inValid p = true := recordOperands_written hw
  have hcalc := blkDequantCalc_eq s
  refine ⟨fun hr => ?_, fun hr => exec_fails hops (hcalc.trans (if_neg hr))⟩
  obtain ⟨t, hexec, hend⟩ := exec_succeeds hops (hcalc.trans (if_pos hr))
  have hports : ∀ p : OutPort, p ∈ resultPorts .blkDequant ↔ ∃ k : Fin 12, k.val < 6 ∧ p = .rf k := fun p => by
    simp [resultPorts, Fin.exists_fin_succ]
  refine ⟨t, hexec, hend.status, hend.inputs,
    fun p => (outValid_of_status_ok hexec hend.status (by decide) p).trans (hports p), fun k u hu => ?_⟩
  have hint : u.int 0 = s.int k := congrArg (fun q : Port Word64 => q.val.toInt) hu
  obtain ⟨v, hv, hpart⟩ := fieldDequantizer_succeeds (k := k) ((congrArg Port.valid hu).trans (hw k))
    (hint ▸ fieldInRange_of_recordInRange hr k)
  rw [hint] at hpart
  exact ⟨v, hv, (hpart.rf_eq 0 rfl).trans (hend.rf_eq (k.castLE (by decide)) (coeffPorts_blockDequantize s k)).symm⟩

/-- Settles O49: after a completed BLK_QUANT, RI[0..5] read back as the fields of its record, each in its range, and
`packRecord_blockQuantize` packs them. -/
theorem quantizedRecordsPack : Obligations.QuantizedRecordsPack := by
  intro s t hexec hok
  have hint := blkQuant_int hexec hok
  refine ⟨?_, fun k h1 h3 => ?_, fun k h4 => ?_, fun u hu => ?_⟩
  · exact hint 0 ▸ quantizedField_zero_mem _
  · exact hint k ▸ quantizedField_bcd_mem h1 h3 _
  · exact hint k ▸ quantizedField_chroma_mem h4 _
  · obtain ⟨hwritten, hrecord⟩ := record_of_blkQuant hexec hok hu
    obtain ⟨w, hw⟩ := packRecord_blockQuantize s.coeffs
    obtain ⟨v, hv, hend⟩ := pack_succeeds hwritten (hrecord ▸ hw)
    exact ⟨v, hv, hend.status, congrArg Port.valid hend.rw64⟩

end Sys2Proof.Machine
end

section
/-! SUPPORT. The packed word as a number (30_encoding.md R96, 44_packer.md R230): the six fields one after another from the top,
each appended below the ones before it. PACK and UNPACK are inverse because a number below 2^32 and its six fields determine
each other (R234). -/

namespace Sys2Proof.Machine

section

variable {s t u : State}

/-! ### Fields put one below the other -/

/-- The number `q` with the low `width` bits of `v` appended below it. -/
def appendField (q width : Nat) (v : Int) : Nat := 2 ^ width * q + (v % ((2 ^ width : Nat) : Int)).toNat

/-- An insert (R135) directly below a word's lowest field appends to the number above it. -/
theorem replaceField_below {w : Word64} {q width lsb : Nat} (v : Int) (hw : w = BitVec.ofNat 64 (2 ^ (lsb + width) * q)) :
    replaceField w width lsb v = BitVec.ofNat 64 (2 ^ lsb * appendField q width v) := by
  subst hw
  refine BitVec.eq_of_getLsbD_eq fun j hj => ?_
  have hlt : (v % ((2 ^ width : Nat) : Int)).toNat < 2 ^ width := by
    have := Int.emod_lt_of_pos v (show (0 : Int) < ((2 ^ width : Nat) : Int) by positivity)
    omega
  rw [replaceField_bit _ _ _ _ _ hj, BitVec.getLsbD_ofNat, BitVec.getLsbD_ofNat, appendField, Nat.testBit_two_pow_mul,
    Nat.testBit_two_pow_mul, Nat.testBit_two_pow_mul_add _ hlt, Nat.sub_sub]
  by_cases hbelow : lsb ≤ j
  · by_cases hin : j < lsb + width
    · simp [hj, hbelow, hin, show j - lsb < width by omega]
    · simp [hj, hbelow, hin, show ¬ j - lsb < width by omega, show lsb + width ≤ j by omega]
  · simp [hbelow, show ¬ lsb + width ≤ j by omega]

theorem cast_appendField (q width : Nat) (v : Int) : (appendField q width v : Int) = 2 ^ width * q + v % 2 ^ width := by
  have hnonneg := Int.emod_nonneg v (show ((2 ^ width : Nat) : Int) ≠ 0 by positivity)
  rw [appendField, Nat.cast_add, Int.toNat_of_nonneg hnonneg]
  push_cast
  rfl

/-- The bits of `n` from `lsb` up are those above the field with the field's own appended. -/
theorem appendField_div {n lsb width : Nat} {v : Int}
    (hv : v % ((2 ^ width : Nat) : Int) = (n / 2 ^ lsb : Nat) % (2 ^ width : Nat)) :
    appendField (n / 2 ^ (lsb + width)) width v = n / 2 ^ lsb := by
  rw [appendField, hv, ← Int.natCast_emod, Int.toNat_natCast, pow_add, ← Nat.div_div_eq_div_mul, Nat.div_add_mod]

/-- The packed word of a record as a number, its fields appended from the top. -/
def recordNumber (r : Record) : Nat :=
  appendField (appendField (appendField (appendField (appendField (appendField 0 9 r.a) 5 r.b) 5 r.c) 5 r.d) 4 r.pb) 4 r.pr

/-- R96's layout. -/
theorem recordNumber_eq (r : Record) :
    (recordNumber r : Int) = r.a % 512 * 2 ^ 23 + r.b % 32 * 2 ^ 18 + r.c % 32 * 2 ^ 13 + r.d % 32 * 2 ^ 8 +
      r.pb % 16 * 2 ^ 4 + r.pr % 16 := by
  simp only [recordNumber, cast_appendField]
  omega

theorem recordNumber_lt (r : Record) : recordNumber r < 2 ^ 32 := by
  have := recordNumber_eq r
  omega

theorem toNat_recordNumber (r : Record) : (BitVec.ofNat 64 (recordNumber r)).toNat = recordNumber r := by
  rw [BitVec.toNat_ofNat, Nat.mod_eq_of_lt ((recordNumber_lt r).trans (by decide))]

/-! ### `pack` and `unpack` on the record's number (R230, R231) -/

/-- A record in range passes the six fit checks, and its six inserts from zero each go directly below the one before. -/
theorem packRecord_of_recordInRange {r : Record} (h : RecordInRange r) :
    packRecord r = .ok (BitVec.ofNat 64 (recordNumber r)) := by
  obtain ⟨ha, hb, hc, hd, hpb, hpr⟩ := h
  have hunsigned {n : Int} {width : Nat} (hn : 0 ≤ n ∧ n < 2 ^ width) : ¬ fitsUnsigned n width = false := by
    simpa using (fitsUnsigned_iff n width).2 hn
  have hsigned {n : Int} (hn : -16 ≤ n ∧ n ≤ 15) : ¬ fitsSigned n 5 = false := by
    rw [fitsSigned_of_pos (by decide), decide_eq_false_iff_not]
    omega
  rw [packRecord_eq, if_neg (hunsigned (by omega)), if_neg (hsigned hb), if_neg (hsigned hc), if_neg (hsigned hd),
    if_neg (hunsigned (by omega)), if_neg (hunsigned (by omega))]
  have wa := replaceField_below (w := 0#64) (q := 0) (width := 9) (lsb := 23) r.a rfl
  have wb := replaceField_below (width := 5) (lsb := 18) r.b wa
  have wc := replaceField_below (width := 5) (lsb := 13) r.c wb
  have wd := replaceField_below (width := 5) (lsb := 8) r.d wc
  have wpb := replaceField_below (width := 4) (lsb := 4) r.pb wd
  have wpr := replaceField_below (width := 4) (lsb := 0) r.pr wpb
  rw [wpr, pow_zero, one_mul, recordNumber]

/-- The first law of R234: the number of a record in range has the record's fields. -/
theorem unpackWord_recordNumber {r : Record} (h : RecordInRange r) : unpackWord (BitVec.ofNat 64 (recordNumber r)) = r := by
  obtain ⟨ha, hb, hc, hd, hpb, hpr⟩ := h
  have hn := recordNumber_eq r
  rw [unpackWord_eq ((toNat_recordNumber r).trans_lt (recordNumber_lt r)), toNat_recordNumber]
  generalize recordNumber r = n at hn
  cases r
  simp only [bmod_thirtyTwo, Record.mk.injEq] at *
  refine ⟨?_, ?_, ?_, ?_, ?_, ?_⟩ <;> omega

theorem recordInRange_unpackWord {w : Word64} (h : w.toNat < 2 ^ 32) : RecordInRange (unpackWord w) := by
  have hsigned (n : Nat) : -16 ≤ (n : Int).bmod 32 ∧ (n : Int).bmod 32 ≤ 15 := by
    rw [bmod_thirtyTwo]
    split_ifs <;> omega
  rw [unpackWord_eq h]
  exact ⟨by dsimp only; omega, hsigned _, hsigned _, hsigned _, by dsimp only; omega, by dsimp only; omega⟩

/-- A word below 2^32 is the number of its fields. -/
theorem recordNumber_unpackWord {w : Word64} (h : w.toNat < 2 ^ 32) : recordNumber (unpackWord w) = w.toNat := by
  have ha : appendField 0 9 (w.toNat / 2 ^ 23 : Nat) = w.toNat / 2 ^ 23 := by
    rw [← Nat.div_eq_of_lt h]
    exact appendField_div (lsb := 23) (width := 9) rfl
  have hb : appendField (w.toNat / 2 ^ 23) 5 (((w.toNat / 2 ^ 18 : Nat) : Int).bmod 32) = w.toNat / 2 ^ 18 :=
    appendField_div (lsb := 18) Int.bmod_emod
  have hc : appendField (w.toNat / 2 ^ 18) 5 (((w.toNat / 2 ^ 13 : Nat) : Int).bmod 32) = w.toNat / 2 ^ 13 :=
    appendField_div (lsb := 13) Int.bmod_emod
  have hd : appendField (w.toNat / 2 ^ 13) 5 (((w.toNat / 2 ^ 8 : Nat) : Int).bmod 32) = w.toNat / 2 ^ 8 :=
    appendField_div (lsb := 8) Int.bmod_emod
  have hpb : appendField (w.toNat / 2 ^ 8) 4 (w.toNat / 2 ^ 4 % 16 : Nat) = w.toNat / 2 ^ 4 :=
    appendField_div (lsb := 4) (by omega)
  have hpr : appendField (w.toNat / 2 ^ 4) 4 (w.toNat % 16 : Nat) = w.toNat := by
    simpa using appendField_div (n := w.toNat) (lsb := 0) (width := 4) (v := (w.toNat % 16 : Nat)) (by omega)
  rw [unpackWord_eq h, recordNumber, ha, hb, hc, hd, hpb, hpr]

/-- The second law of R234. -/
theorem packRecord_unpackWord {w : Word64} (h : w.toNat < 2 ^ 32) : packRecord (unpackWord w) = .ok w := by
  rw [packRecord_of_recordInRange (recordInRange_unpackWord h), recordNumber_unpackWord h, BitVec.ofNat_toNat,
    BitVec.setWidth_eq]

/-! ### The two commands, and a record on the ports (R99, R232, R233) -/

theorem unpack_succeeds (hv : s.w64.valid = true) (hw : s.w64.val.toNat < 2 ^ 32) :
    ∃ t, exec .unpack s = .next t ∧ Succeeded s t { ri := recordPorts (unpackWord s.w64.val) } :=
  exec_succeeds (i := .unpack) (List.forall_mem_singleton.2 hv) ((unpackCalc_eq s).trans (if_pos hw))

/-- The input ports hold the patterns of the record that is read from them. -/
theorem recordPorts_record (s : State) (k : Fin 6) : (recordPorts s.record)[k.val]? = some s.i[k].val := by
  have hport (k : Fin 6) : s64 (s.int k) = s.i[k].val := BitVec.ofInt_toInt
  simp only [recordPorts, State.record, hport]
  fin_cases k <;> rfl

/-- The results of UNPACK as the record of the next command: a field in range is far from the ends of s64, so its port
reads back as it. -/
theorem record_of_recordPorts {r : Record} (h : RecordInRange r) (hend : Succeeded s t { ri := recordPorts r })
    (hu : u.i = t.ri) : IntPortsWritten u ∧ u.record = r := by
  obtain ⟨ha, hb, hc, hd, hpb, hpr⟩ := h
  have hport {k : Fin 6} {w : Word64} (hk : (recordPorts r)[k.val]? = some w) : u.i[k] = ⟨w, true⟩ := by
    rw [hu, hend.ri_eq k hk]
  have hint {k : Fin 6} {n : Int} (hk : (recordPorts r)[k.val]? = some (s64 n)) (hn : -16 ≤ n ∧ n ≤ 511) :
      u.int k = n := by
    rw [State.int, hport hk]
    exact BitVec.toInt_ofInt_eq_self (by decide) (by omega) (by omega)
  constructor
  · exact fun k => congrArg Port.valid (hport (List.getElem?_eq_getElem (l := recordPorts r) k.isLt))
  · rw [State.record, hint (n := r.a) rfl (by omega), hint (n := r.b) rfl (by omega), hint (n := r.c) rfl (by omega),
      hint (n := r.d) rfl (by omega), hint (n := r.pb) rfl (by omega), hint (n := r.pr) rfl (by omega)]

end

/-- Settles O34: PACK gives the record's number, from which UNPACK takes the record's fields; UNPACK gives a record in range,
whose number is the word. -/
theorem packUnpackInverse : Obligations.PackUnpackInverse := by
  constructor
  · intro s hwritten hrange
    obtain ⟨t, ht, hend⟩ := pack_succeeds hwritten (packRecord_of_recordInRange hrange)
    refine ⟨t, ht, fun u hu => ?_⟩
    have hu : u.w64 = ⟨BitVec.ofNat 64 (recordNumber s.record), true⟩ := hu.trans hend.rw64
    obtain ⟨v, hv, hvend⟩ := unpack_succeeds (s := u) (by rw [hu])
      (by rw [hu]; exact (toNat_recordNumber _).trans_lt (recordNumber_lt _))
    rw [hu, unpackWord_recordNumber hrange] at hvend
    refine ⟨v, hv, fun k => ?_⟩
    rw [hvend.ri_eq k (recordPorts_record s k), ← hwritten k]
  · intro s hv hw
    obtain ⟨t, ht, hend⟩ := unpack_succeeds hv hw
    refine ⟨t, ht, fun u hu => ?_⟩
    obtain ⟨hwritten, hrecord⟩ := record_of_recordPorts (recordInRange_unpackWord hw) hend hu
    obtain ⟨v, hexec, hvend⟩ := pack_succeeds (s := u) hwritten (hrecord ▸ packRecord_unpackWord hw)
    refine ⟨v, hexec, ?_⟩
    rw [show v.rw64 = ⟨s.w64.val, true⟩ from hvend.rw64, ← hv]

end Sys2Proof.Machine
end

section
/-! SUPPORT. The raster indices of blocks (45_pipeline.md R250 to R253, R259 to R261): the dimension commands' calculations
split by their checks, and block_map read as a row and a column, which the block and the position determine and which
determine them. -/

namespace Sys2Proof.Machine

section

variable {dimBits : Nat}

/-! ### The calculations, split by their checks (R260, R261) -/

/-- `check_even` splits a calculation by the parities. -/
theorem checkEven_bind {α : Type} (W H : Nat) (g : Unit → Calc α) :
    (checkEven W H >>= g) = if W % 2 = 0 ∧ H % 2 = 0 then g () else raise (errMalformed reasonOddDimension) :=
  check_decide_bind _ _ _

theorem blockCountCalc_eq (s : State dimBits) :
    blockCountCalc s =
      if s.dimWNat % 2 = 0 ∧ s.dimHNat % 2 = 0 then .ok { rw64 := some (blockCountResult s.dimWNat s.dimHNat) }
      else raise (errMalformed reasonOddDimension) := by
  rw [blockCountCalc, checkEven_bind, pure_calc]

/-- BLOCK_MAP's calculation: the parities, then the block index, then one result a position. -/
theorem blockMapCalc_eq (s : State dimBits) :
    blockMapCalc s =
      if s.dimWNat % 2 = 0 ∧ s.dimHNat % 2 = 0 then
        if 0 ≤ s.int 0 ∧ s.int 0 < (blockCountOf s.dimWNat s.dimHNat : Int) then
          let r := blockMapResult s.dimWNat s.dimHNat s.i[0].val
          .ok { ri := [r 0, r 1, r 2, r 3] }
        else raise (errMalformed reasonBlockIndex)
      else raise (errMalformed reasonOddDimension) := by
  rw [blockMapCalc, checkEven_bind, check_decide_bind]
  rfl

/-- In a list with one entry a position, the entry at `p` is position `p`'s. -/
theorem eq_of_getElem?_positions {α : Type} {f : Nat → α} {p : Nat} {x : α} (h : [f 0, f 1, f 2, f 3][p]? = some x) :
    x = f p := by
  have hmap : ((List.range 4).map f)[p]? = some x := h
  obtain ⟨_, rfl⟩ := List.getElem?_eq_some_iff.1 hmap
  rw [List.getElem_map, List.getElem_range]

/-- RI[p] where the raster index is an s64. -/
theorem toInt_blockMapResult {W H k p : Nat} {w : Word64} (hk : w.toInt = k) (h : blockMapOf W k p < 2 ^ 63) :
    (blockMapResult W H w p).toInt = blockMapOf W k p := by
  rw [blockMapResult, hk, Int.toNat_natCast, if_pos h, BitVec.toInt_ofNat', Int.bmod_eq_of_le (by omega) (by omega)]

end

/-- The ports that TRIM and BLOCK_COUNT read, R92's DIM_W and DIM_H, are written. -/
theorem dimensionOperands_written {s : State} (hW : s.dimW.valid = true) (hH : s.dimH.valid = true) :
    ∀ p ∈ [InPort.dimW, .dimH], s.inValid p = true :=
  List.forall_mem_cons.2 ⟨hW, List.forall_mem_singleton.2 hH⟩

/-- The ports that BLOCK_MAP reads, R92's DIM_W, DIM_H and I[0], are written. -/
theorem blockMapOperands_written {s : State} (hW : s.dimW.valid = true) (hH : s.dimH.valid = true)
    (hi : s.i[0].valid = true) : ∀ p ∈ operandPorts .blockMap, s.inValid p = true :=
  List.forall_mem_cons.2 ⟨hW, List.forall_mem_cons.2 ⟨hH, List.forall_mem_singleton.2 hi⟩⟩

section

variable {W H k k' p p' : Nat}

/-! ### block_map as a row and a column (R252, R253) -/

/-- There are blocks only where there are block columns. -/
theorem half_width_pos (hk : k < blockCountOf W H) : 0 < W / 2 :=
  Nat.pos_of_mul_pos_right (Nat.zero_lt_of_lt hk)

/-- The column of a position is in the raster, whatever the block row. -/
theorem blockCol_lt (hW : 0 < W / 2) (k p : Nat) : 2 * (k % (W / 2)) + p % 2 < W := by
  have := Nat.mod_lt k hW
  omega

/-- The row of a position is in the raster when the block is one of its blocks. -/
theorem blockRow_lt (hk : k < blockCountOf W H) (hp : p < 4) : 2 * (k / (W / 2)) + p / 2 < H := by
  have := Nat.div_lt_of_lt_mul hk
  omega

theorem blockMapOf_lt (hk : k < blockCountOf W H) (hp : p < 4) : blockMapOf W k p < W * H :=
  rowMajor_lt (blockRow_lt hk hp) (blockCol_lt (half_width_pos hk) k p)

theorem blockMapOf_div (hW : 0 < W / 2) (k p : Nat) : blockMapOf W k p / W = 2 * (k / (W / 2)) + p / 2 :=
  rowMajor_div (blockCol_lt hW k p)

theorem blockMapOf_mod (hW : 0 < W / 2) (k p : Nat) : blockMapOf W k p % W = 2 * (k % (W / 2)) + p % 2 :=
  rowMajor_mod (blockCol_lt hW k p)

/-- The row and the column of an index give back the block row and column by their halves, and the position by their
parities. -/
theorem blockMapOf_inj (hk : k < blockCountOf W H) (hp : p < 4) (hp' : p' < 4)
    (h : blockMapOf W k p = blockMapOf W k' p') : k = k' ∧ p = p' := by
  have hW := half_width_pos hk
  have hrow : 2 * (k / (W / 2)) + p / 2 = 2 * (k' / (W / 2)) + p' / 2 := by
    rw [← blockMapOf_div hW, ← blockMapOf_div hW, h]
  have hcol : 2 * (k % (W / 2)) + p % 2 = 2 * (k' % (W / 2)) + p' % 2 := by
    rw [← blockMapOf_mod hW, ← blockMapOf_mod hW, h]
  have hdiv : k / (W / 2) = k' / (W / 2) := by omega
  have hmod : k % (W / 2) = k' % (W / 2) := by omega
  constructor
  · exact Nat.ext_div_mod hdiv hmod
  · omega

/-- Every index of an even raster is position 2 (row mod 2) + (column mod 2) of the block in block row (row div 2) and block
column (column div 2). -/
theorem exists_blockMapOf_eq {n : Nat} (hW : W % 2 = 0) (hH : H % 2 = 0) (hn : n < W * H) :
    ∃ k p, k < blockCountOf W H ∧ p < 4 ∧ blockMapOf W k p = n := by
  have hrow : n / W < H := Nat.div_lt_of_lt_mul hn
  have hcol : n % W < W := Nat.mod_lt n (Nat.pos_of_mul_pos_right (Nat.zero_lt_of_lt hn))
  refine ⟨n / W / 2 * (W / 2) + n % W / 2, 2 * (n / W % 2) + n % W % 2, rowMajor_lt (by omega) (by omega), by omega, ?_⟩
  calc blockMapOf W (n / W / 2 * (W / 2) + n % W / 2) (2 * (n / W % 2) + n % W % 2)
      = (2 * (n / W / 2) + (2 * (n / W % 2) + n % W % 2) / 2) * W +
          (2 * (n % W / 2) + (2 * (n / W % 2) + n % W % 2) % 2) := blockMapOf_at (by omega) _
    _ = n / W * W + n % W := by congr 2 <;> omega
    _ = n := Nat.div_add_mod' n W

end

/-! ### The obligations -/

/-- Settles O50: TRIM has no check, and a port holds every trimmed dimension. -/
theorem trimDimensions : Obligations.TrimDimensions := by
  intro s hW hH
  obtain ⟨t, ht, hend⟩ := exec_succeeds (i := .trim) (dimensionOperands_written hW hH) rfl
  exact ⟨t, _, _, ht, hend, toNat_trimPort _, toNat_trimPort _⟩

/-- Settles O51: the one check is the parities', and the count of two 32-bit dimensions is a u64. -/
theorem blockCount : Obligations.BlockCount := by
  intro s hW hH
  have hops := dimensionOperands_written hW hH
  have hcalc := blockCountCalc_eq s
  constructor
  · intro hWeven hHeven
    obtain ⟨t, ht, hend⟩ := exec_succeeds (i := .blockCount) hops (hcalc.trans (if_pos ⟨hWeven, hHeven⟩))
    exact ⟨t, _, ht, hend, toNat_blockCountResult _ _⟩
  · intro hodd
    exact exec_fails (i := .blockCount) hops (hcalc.trans (if_neg hodd))

/-- Settles O52: the parities are checked before the block index (R261), and RI[p] is the result for position `p`. -/
theorem blockMap : Obligations.BlockMap := by
  intro s hW hH hi
  have hops := blockMapOperands_written hW hH hi
  have hcalc := blockMapCalc_eq s
  refine ⟨fun k heven hk hlt => ?_, fun hodd => ?_, fun heven hbad => ?_⟩
  · have hin : 0 ≤ s.int 0 ∧ s.int 0 < (blockCountOf s.dimWNat s.dimHNat : Int) := by
      rw [hk]
      exact ⟨Int.natCast_nonneg k, Int.ofNat_lt.2 hlt⟩
    obtain ⟨t, ht, hend⟩ := exec_succeeds hops (hcalc.trans ((if_pos heven).trans (if_pos hin)))
    refine ⟨t, _, _, _, _, ht, hend, fun p r hr hs64 => ?_⟩
    obtain rfl := eq_of_getElem?_positions hr
    exact toInt_blockMapResult hk hs64
  · exact exec_fails hops (hcalc.trans (if_neg hodd))
  · exact exec_fails hops (hcalc.trans ((if_pos heven).trans (if_neg hbad)))

/-- Settles O53: rows and columns stay in the raster and give back the block and the position; only reaching every index
takes even dimensions. -/
theorem blockMapBijection : Obligations.BlockMapBijection :=
  ⟨fun _ _ _ => rfl, fun _ _ hW hH =>
    ⟨fun _ _ => blockMapOf_lt, fun _ => exists_blockMapOf_eq hW hH, fun _ _ _ _ hk hp _ hp' => blockMapOf_inj hk hp hp'⟩⟩

end Sys2Proof.Machine
end

section
/-! SUPPORT. Decoding and encoding are inverse (30_encoding.md R90 to R94): a command is determined by its operation code and its
two immediates, and a word by those and its reserved bits. -/

namespace Sys2Proof

/-! ### The lookup of R92 -/

theorem decodeFits_eq_ok_iff {i j : Instr} {lsb : Nat} : decodeFits i lsb = .ok j ↔ i = j ∧ lsb = 0 := by
  unfold decodeFits
  split <;> simp [*]

theorem decodePlain_eq_ok_iff {i j : Instr} {width lsb : Nat} :
    decodePlain i width lsb = .ok j ↔ i = j ∧ width = 0 ∧ lsb = 0 := by
  unfold decodePlain
  split <;> simp [*]

/-- A field tuple is looked up to the one command that has these fields. -/
theorem decodeFields_eq_ok_iff {opc width lsb : Nat} {i : Instr} :
    decodeFields opc width lsb = .ok i ↔ opcode i = opc ∧ i.width = width ∧ i.lsb = lsb := by
  constructor
  · intro h
    unfold decodeFields at h
    split at h
    case h_1 | h_2 =>
      obtain ⟨rfl, rfl⟩ := decodeFits_eq_ok_iff.1 h
      exact ⟨rfl, rfl, rfl⟩
    case h_3 | h_4 | h_5 | h_6 =>
      obtain rfl := Except.ok.inj h
      exact ⟨rfl, rfl, rfl⟩
    case h_28 => exact nomatch h
    all_goals
      obtain ⟨rfl, rfl, rfl⟩ := decodePlain_eq_ok_iff.1 h
      exact ⟨rfl, rfl, rfl⟩
  · rintro ⟨rfl, rfl, rfl⟩
    cases i <;> rfl

/-- The commands without immediates, in the order of R92's table. -/
def plainCommands : List Instr :=
  [.rgbToNorm, .normToYpbpr, .ypbprToNorm, .normToRgb, .blkFwd, .blkInv, .quantA, .quantBcd, .chromaQ, .chromaDq, .dequantA,
   .dequantBcd, .blkQuant, .blkDequant, .pack, .unpack, .trim, .blockCount, .blockMap, .compress, .decompress]

/-- Which field tuples belong to a command: the six bit-field ones have a WIDTH, four of them an LSB, the others neither. -/
theorem exists_instr_fields_iff (opc width lsb : Nat) :
    (∃ i, opcode i = opc ∧ i.width = width ∧ i.lsb = lsb) ↔
      opc ∈ [0x03, 0x04, 0x05, 0x06] ∨ (opc ∈ [0x01, 0x02] ∧ lsb = 0) ∨
        (opc ∈ plainCommands.map opcode ∧ width = 0 ∧ lsb = 0) := by
  constructor
  · rintro ⟨i, rfl, rfl, rfl⟩
    cases i <;> simp [plainCommands, opcode, Instr.width, Instr.lsb]
  · rintro (hopc | ⟨hopc, rfl⟩ | ⟨hopc, rfl, rfl⟩)
    · simp only [List.mem_cons, List.not_mem_nil, or_false] at hopc
      obtain rfl | rfl | rfl | rfl := hopc
      · exact ⟨.extractU width lsb, rfl, rfl, rfl⟩
      · exact ⟨.extractS width lsb, rfl, rfl, rfl⟩
      · exact ⟨.insertU width lsb, rfl, rfl, rfl⟩
      · exact ⟨.insertS width lsb, rfl, rfl, rfl⟩
    · simp only [List.mem_cons, List.not_mem_nil, or_false] at hopc
      obtain rfl | rfl := hopc
      · exact ⟨.fitsU width, rfl, rfl, rfl⟩
      · exact ⟨.fitsS width, rfl, rfl, rfl⟩
    · obtain ⟨i, hi, rfl⟩ := List.mem_map.1 hopc
      have himm : ∀ i ∈ plainCommands, i.width = 0 ∧ i.lsb = 0 := by decide
      exact ⟨i, rfl, himm i hi⟩

/-! ### Words -/

/-- A word decodes to the command whose fields stand in it, the reserved bits being zero. -/
theorem decode_eq_ok_iff {w : Word32} {i : Instr} :
    decode w = .ok i ↔ w.toNat / 2 ^ 22 = 0 ∧ opcode i = w.toNat % 2 ^ 8 ∧ i.width = w.toNat / 2 ^ 8 % 2 ^ 7 ∧
      i.lsb = w.toNat / 2 ^ 15 % 2 ^ 7 := by
  rw [← cmdRsvd_eq, ← cmdOpc_eq, ← cmdWidth_eq, ← cmdLsb_eq, ← decodeFields_eq_ok_iff, decode]
  split
  case isTrue hr => simp [hr]
  case isFalse hr => simp [not_not.1 hr]

/-- The word of a well-formed command as a number (R90). -/
theorem toNat_encode {i : Instr} (h : i.wellFormed = true) :
    (encode i).toNat = opcode i + i.width * 2 ^ 8 + i.lsb * 2 ^ 15 := by
  obtain ⟨hw, hl⟩ := (wellFormed_iff i).1 h
  exact encodeFields_toNat (opcode_lt i) hw hl

/-! ### The obligations -/

/-- Settles O1: the three fields of the encoded word are the command's, each below the next one. -/
theorem decodeOfEncode : Obligations.DecodeOfEncode := by
  intro i h
  obtain ⟨hw, hl⟩ := (wellFormed_iff i).1 h
  have hopc := opcode_lt i
  rw [decode_eq_ok_iff, toNat_encode h]
  omega

/-- Settles O2: the fields of the word are below the bounds of `wellFormed`, and they make up the whole word. -/
theorem encodeOfDecode : Obligations.EncodeOfDecode := by
  intro w i h
  obtain ⟨hrsvd, hopc, hwidth, hlsb⟩ := decode_eq_ok_iff.1 h
  have hwf : i.wellFormed = true := (wellFormed_iff i).2 ⟨by omega, by omega⟩
  refine ⟨hwf, BitVec.eq_of_toNat_eq ?_⟩
  rw [toNat_encode hwf]
  omega

/-- Settles O3: a word decodes when its reserved bits are zero and some command has its fields. -/
theorem legalWordsExactly : Obligations.LegalWordsExactly := by
  intro w
  have himm : w.toNat / 2 ^ 8 % 2 ^ 14 = 0 ↔ w.toNat / 2 ^ 8 % 2 ^ 7 = 0 ∧ w.toNat / 2 ^ 15 % 2 ^ 7 = 0 := by omega
  simp only [decode_eq_ok_iff, exists_and_left, exists_instr_fields_iff, himm]
  rfl

/-- Settles O4: each word's fields, read as numbers, are those of its command. -/
theorem writtenOutWordsDecode : Obligations.WrittenOutWordsDecode := by
  simp only [Obligations.WrittenOutWordsDecode, decode_eq_ok_iff]
  decide

end Sys2Proof
end

section
/-! SUPPORT. The step of the machine: what each host action and each command does (70_reset_and_hazards.md R340, R351), and the
invariant between steps (10_state.md R29, R34, R38). -/

namespace Sys2Proof.Machine

/-! ### The host's next action -/

section

variable {s t : State} {rest : List HostAction}

/-- A host write of an input port (R33). -/
theorem step_of_write {v : PortWrite} (hc : s.cmd = none) (hs : s.script = .write v :: rest) :
    step s = .next (({ s with script := rest } : State).writeInput v) := by
  rw [step_of_action hc hs, performBy]

/-- A host read of a valid result port (R35). -/
theorem step_of_read {p : OutPort} (hc : s.cmd = none) (hs : s.script = .read (.port p) :: rest)
    (hv : s.outValid p = true) :
    step s = .next { s with script := rest, reads := s.reads ++ [s.outReading p] } := by
  rw [step_of_action hc hs, performBy, hostRead, outValid_script, if_pos hv, outReading_script]

/-- A word written to CMD is issued at the state with the action taken and the word in CMD (R90, log 3). -/
theorem step_of_command_write {w : Word32} (hc : s.cmd = none) (hs : s.script = .command w :: rest) :
    step s = issueBy exec w { s with script := rest, cmd := some w } := by
  rw [step_of_action hc hs, performBy]

theorem issueBy_of_decode {w : Word32} {i : Instr} (h : decode w = .ok i) : issueBy exec w s = exec i s := by
  rw [issueBy, h]

theorem issueBy_of_reject {w : Word32} {e : DecodeReject} (h : decode w = .error e) :
    issueBy exec w s = .next (s.clearResults.takeError errIllegal) := by
  rw [issueBy, h, illegalCommand]

/-! ### The invariant -/

theorem statusLegal_iff (w : Word32) :
    StatusLegal w ↔ statusReserved w = 0#20 ∧ (statusCode w ≤ 5#4 ∨ statusCode w = 7#4) ∧
      (statusField w = 0xF#4 ∨ (statusCode w = 1#4 ∧ statusField w ≤ 5#4)) ∧
      (if statusCode w = 2#4 then statusReason w ≤ 7#4 else statusReason w = 0xF#4) :=
  ⟨fun ⟨hreserved, hcode, hfield, hreason⟩ => ⟨hreserved, hcode, hfield, hreason⟩,
    fun ⟨hreserved, hcode, hfield, hreason⟩ => ⟨hreserved, hcode, hfield, hreason⟩⟩

/-- Every error word of a command is a STATUS word of R29 and R300. -/
theorem statusLegal_of_mem_errorWords {w : Word32} {i : Instr} (h : w ∈ errorWords i) : StatusLegal w := by
  rw [statusLegal_iff]
  revert w
  cases i <;> simp only [errorWords, List.mem_cons, List.not_mem_nil, or_false, forall_eq_or_imp, forall_eq,
    false_imp_iff, implies_true] <;> decide

/-- No command is in progress when one has ended (R38). -/
theorem cmd_of_exec {i : Instr} (h : exec i s = .next t) : t.cmd = none := by
  obtain ⟨-, ⟨r, -, rfl⟩ | ⟨e, -, rfl⟩⟩ := exec_next h
  · exact State.succeed_cmd _ r
  · exact State.takeError_cmd _ e

/-- A command establishes the invariant, whatever the state before it. -/
theorem inv_of_exec {i : Instr} (h : exec i s = .next t) : Inv t := by
  obtain ⟨-, ⟨hok, -⟩ | ⟨herr, hinvalid⟩⟩ := commandResultsExactly i s t h
  · exact ⟨cmd_of_exec h, (statusLegal_iff _).2 (by rw [hok]; decide), fun hne => absurd hok hne⟩
  · exact ⟨cmd_of_exec h, statusLegal_of_mem_errorWords herr, fun _ => hinvalid⟩

/-- So does an illegal word (R93). -/
theorem inv_takeError_illegal (s : State) : Inv (s.clearResults.takeError errIllegal) :=
  ⟨rfl, (statusLegal_iff _).2 (by rw [State.takeError_status]; decide), fun _ => (failed_takeError s errIllegal).noResult⟩

theorem inv_of_issue {w : Word32} (h : issueBy exec w s = .next t) : Inv t := by
  obtain ⟨i, -, hi⟩ | ⟨-, rfl⟩ := issueBy_next h
  · exact inv_of_exec hi
  · exact inv_takeError_illegal s

/-- After RESET no port is valid and STATUS is 0x00000FF7 (R39, R340). -/
theorem inv_of_reset (hcmd : t.cmd = none) (hstatus : t.status = 0x00000FF7#32)
    (hinvalid : ∀ p : OutPort, t.outValid p = false) : Inv t :=
  ⟨hcmd, (statusLegal_iff _).2 (by rw [hstatus]; decide), fun _ => hinvalid⟩

/-- The invariant speaks of CMD, STATUS and the valid bits of the result ports only. -/
theorem Inv.of_eq (h : Inv s) (hcmd : t.cmd = s.cmd) (hstatus : t.status = s.status)
    (hvalid : ∀ p : OutPort, t.outValid p = s.outValid p) : Inv t :=
  ⟨hcmd.trans h.idle, hstatus ▸ h.statusLegal, fun hne p => (hvalid p).trans (h.results (hstatus ▸ hne) p)⟩

/-- A command and RESET establish the invariant, and the other host actions leave what it speaks of alone. -/
theorem inv_of_perform {a : HostAction} (hs : Inv s) (h : performBy exec a s = .next t) : Inv t := by
  obtain ⟨v, -, rfl⟩ | ⟨v, -, rfl⟩ | ⟨w, -, hw⟩ | ⟨-, rfl⟩ | ⟨p, -, -, rfl⟩ | ⟨-, rfl⟩ := performBy_next h
  · exact hs.of_eq (by simp) (by simp) (by simp)
  · exact hs
  · exact inv_of_issue hw
  · exact hs.of_eq rfl rfl (by simp)
  · exact hs.of_eq rfl rfl (by simp)
  · exact inv_of_reset rfl rfl (by simp)

end

/-! ### The obligations -/

/-- Settles O12: an idle step and a host access change no part of the invariant, and a command, an illegal word and RESET
establish it. -/
theorem invKeptByStep : Obligations.InvKeptByStep := by
  intro s t hs h
  obtain ⟨-, rfl⟩ | ⟨a, rest, -, ha⟩ := step_next hs.idle h
  · exact hs
  · exact inv_of_perform (s := { s with script := rest }) (hs.of_eq rfl rfl (by simp)) ha

/-- Settles O11: no result port is valid at reset. -/
theorem invAtReset : Obligations.InvAtReset :=
  ⟨inv_of_reset rfl rfl outValid_reset, floatResultsFinite_of_invalid outValid_reset⟩

/-- Settles O13: both ends of a command write STATUS, CMD and result ports only. -/
theorem commandsKeepInputs : Obligations.CommandsKeepInputs := by
  intro i s t h
  obtain ⟨-, ⟨r, -, rfl⟩ | ⟨e, -, rfl⟩⟩ := exec_next h
  · exact ⟨sameInputs_succeed s r, rfl, rfl⟩
  · exact ⟨sameInputs_takeError s e, rfl, rfl⟩

/-- Settles O5: the word is issued, and a word that decodes runs its command. -/
theorem stepRunsDecodedCommand : Obligations.StepRunsDecodedCommand := by
  intro s w i hw
  constructor
  · intro rest hc hs
    rw [step_of_command_write hc hs, issueBy_of_decode hw]
  · intro hc
    rw [step_of_command hc, issueBy_of_decode hw]

/-- Settles O6: the word is issued, and a word that does not decode ends with ILLEGAL_COMMAND. -/
theorem stepRejectsIllegalWord : Obligations.StepRejectsIllegalWord := by
  intro s w rest e hc hs hw
  exact ⟨_, (step_of_command_write hc hs).trans (issueBy_of_reject hw), rfl, rfl, ⟨rfl, rfl, rfl, rfl, rfl, rfl, rfl, rfl⟩,
    rfl, rfl, (failed_takeError _ errIllegal).noResult⟩

/-- Settles O7: `writeInput` of each port, and `writeReadOnly`, at the state with the action taken. -/
theorem stepHostWrites : Obligations.StepHostWrites := by
  intro s rest hc
  exact ⟨fun _ hs => step_of_write hc hs, fun _ hs => step_of_write hc hs, fun _ _ hs => step_of_write hc hs,
    fun _ _ hs => step_of_write hc hs, fun _ hs => step_of_write hc hs, fun _ hs => step_of_write hc hs,
    fun _ hs => step_of_write hc hs, fun _ hs => step_of_write hc hs, fun _ hs => step_of_action hc hs⟩

/-- Settles O8: `hostRead` of each target; `outValid` and `outReading` of a port are its valid bit and its content. -/
theorem stepHostReads : Obligations.StepHostReads := by
  intro s rest hc
  refine ⟨fun hs => step_of_action hc hs, fun hv hs => step_of_read hc hs hv, fun hv hs => step_of_read hc hs hv,
    fun k hv hs => step_of_read hc hs hv, fun k hv hs => step_of_read hc hs hv, fun hv hs => step_of_read hc hs hv,
    fun hv hs => step_of_read hc hs hv, fun hv hs => step_of_read hc hs hv, fun hv hs => step_of_read hc hs hv,
    fun p hs hv => ?_, fun hs => step_of_action hc hs⟩
  rw [step_of_action hc hs, performBy, hostRead, outValid_script, hv]
  rfl

/-- Settles O9: the reset state has no valid port, and RESET keeps the host's two lists. -/
theorem stepReset : Obligations.StepReset := by
  intro s rest hc hs
  exact ⟨_, step_of_action hc hs, rfl, rfl, inValid_resetCore _, outValid_resetCore _, rfl, rfl⟩

end Sys2Proof.Machine
end

section
/-! SUPPORT. The four operations on finite binary64 values are correctly rounded, with the sign of IEEE 754 arithmetic, and small
integers convert exactly (00_scope.md R12). -/

namespace Sys2Proof

open Machine (RoundedTo)

/-! ### Addition and subtraction -/

/-- A zero result is the rounding of an exact zero. -/
theorem F64.zero_eq_rounded (neg : Bool) : F64.zero neg = F64.rounded neg 0 1 := by
  rw [F64.zero, F64.rounded, show F64.roundPattern 0 1 = 0 by decide]

theorem F64.real_add_real (x y : F64) : x.real + y.real = ((x.val + y.val : Int) : ℚ) / F64.one := by
  rw [F64.real, F64.real, ← add_div, Int.cast_add]

theorem F64.real_add_real_eq_zero_iff {x y : F64} : x.real + y.real = 0 ↔ x.val + y.val = 0 := by
  rw [F64.real_add_real, div_eq_zero_iff, or_iff_left F64.one_cast_pos.ne', Int.cast_eq_zero]

/-- An integer by its sign and magnitude. -/
theorem cast_eq_sign_mul_natAbs (n : Int) : (n : ℚ) = (if decide (n < 0) then -1 else 1) * (n.natAbs : ℚ) := by
  rw [Nat.cast_natAbs, Int.cast_abs]
  split
  case isTrue hneg => rw [abs_of_neg (Int.cast_lt_zero.2 (of_decide_eq_true hneg)), neg_one_mul, neg_neg]
  case isFalse hneg => rw [abs_of_nonneg (Int.cast_nonneg (by simpa using hneg)), one_mul]

/-- A sum of finite values is their exact sum rounded. -/
theorem F64.roundedTo_add {x y : F64} (hx : x.isFinite = true) (hy : y.isFinite = true) :
    RoundedTo (F64.add x y) (x.real + y.real) := by
  rw [F64.add_of_finite hx hy, F64.real_add_real]
  generalize x.val + y.val = n
  split
  case isTrue h0 =>
    have hz := F64.roundedTo_rounded (x.sign && y.sign) 0 1 Nat.one_pos
    rw [← F64.zero_eq_rounded] at hz
    simpa [h0] using hz
  case isFalse =>
    have hr := F64.roundedTo_rounded (decide (n < 0)) n.natAbs 1 Nat.one_pos
    rwa [Nat.cast_one, div_one, ← cast_eq_sign_mul_natAbs] at hr

/-- An exact sum of zero takes the sign that both addends have (D33). -/
theorem F64.sign_add_of_eq_zero {x y : F64} (hx : x.isFinite = true) (hy : y.isFinite = true) (h : x.real + y.real = 0) :
    (F64.add x y).sign = (x.sign && y.sign) := by
  rw [F64.add_of_finite hx hy, if_pos (F64.real_add_real_eq_zero_iff.1 h), F64.zero_eq_rounded, F64.sign_rounded]

/-- Settles O19: a subtraction adds the negated value. -/
theorem addSubCorrectlyRounded : Obligations.AddSubCorrectlyRounded := by
  intro x y hx hy
  have hneg : y.neg.isFinite = true := by rwa [F64.isFinite_neg]
  refine ⟨F64.roundedTo_add hx hy, ?_, F64.sign_add_of_eq_zero hx hy, fun h => ?_⟩
  · rw [F64.sub, sub_eq_add_neg, ← F64.real_neg]
    exact F64.roundedTo_add hx hneg
  · rw [sub_eq_add_neg, ← F64.real_neg] at h
    rw [F64.sub, F64.sign_add_of_eq_zero hx hneg h, F64.sign_neg]

/-! ### Multiplication and division -/

/-- Settles O20: the product of the magnitudes is rounded with the sign of the two. -/
theorem mulCorrectlyRounded : Obligations.MulCorrectlyRounded := by
  intro x y hx hy
  exact ⟨F64.roundedTo_mul hx hy, by rw [F64.mul_of_finite hx hy, F64.sign_rounded]⟩

/-- A value by its sign and magnitude. -/
theorem F64.real_eq_sign_mag (x : F64) : x.real = (if x.sign then -1 else 1) * ((x.mag : ℚ) / F64.one) := by
  rw [F64.real, F64.val]
  cases x.sign
  · simp
  · simp [neg_div]

theorem F64.mag_ne_zero_of_real_ne_zero {x : F64} (h : x.real ≠ 0) : x.mag ≠ 0 := fun h0 =>
  h (by rw [F64.real_eq_sign_mag, h0, Nat.cast_zero, zero_div, mul_zero])

/-- A quotient of finite values is their exact quotient rounded. -/
theorem F64.roundedTo_div {x y : F64} (hx : x.isFinite = true) (hy : y.isFinite = true) (h0 : y.real ≠ 0) :
    RoundedTo (F64.div x y) (x.real / y.real) := by
  have hmag := F64.mag_ne_zero_of_real_ne_zero h0
  have hq : x.real / y.real = (if (x.sign != y.sign) = true then -1 else 1) *
      (((x.mag * F64.one : Nat) : ℚ) / y.mag) / F64.one := by
    have hone := F64.one_cast_pos.ne'
    have hy0 : (y.mag : ℚ) ≠ 0 := Nat.cast_ne_zero.2 hmag
    rw [F64.real_eq_sign_mag, F64.real_eq_sign_mag, Nat.cast_mul]
    cases x.sign <;> cases y.sign <;> simp <;> field_simp
  rw [F64.div_of_finite hx hy hmag, hq]
  exact F64.roundedTo_rounded _ _ _ (Nat.pos_of_ne_zero hmag)

/-- Settles O21: the quotient of the magnitudes is rounded with the sign of the two. -/
theorem divCorrectlyRounded : Obligations.DivCorrectlyRounded := by
  intro x y hx hy h0
  refine ⟨F64.roundedTo_div hx hy h0, ?_⟩
  rw [F64.div_of_finite hx hy (F64.mag_ne_zero_of_real_ne_zero h0), F64.sign_rounded]

/-! ### Conversion -/

/-- A quotient without a remainder is not rounded. -/
theorem F64.roundQuotient_mul (q : Nat) {d : Nat} (hd : 0 < d) : F64.roundQuotient (q * d) d = q := by
  simp [F64.roundQuotient, hd]

/-- A significand of at most 53 bits keeps its value: the low bits that rounding drops are zero. -/
theorem F64.roundQuotient_of_lt {m : Nat} (hm : m < 2 ^ 53) (e : Nat) :
    F64.roundQuotient (m * 2 ^ e) (1 * 2 ^ F64.excess (m * 2 ^ e / 1)) * 2 ^ F64.excess (m * 2 ^ e / 1) = m * 2 ^ e := by
  have hle : F64.excess (m * 2 ^ e / 1) ≤ e := by
    obtain h0 | hlow := (F64.excess_bounds (m * 2 ^ e) 1 Nat.one_pos).2
    · omega
    · have hlt : 2 ^ 52 * 2 ^ F64.excess (m * 2 ^ e / 1) < 2 ^ 53 * 2 ^ e := by
        rw [one_mul] at hlow
        exact hlow.trans_lt (Nat.mul_lt_mul_of_pos_right hm (by positivity))
      rw [← pow_add, ← pow_add] at hlt
      have := (Nat.pow_lt_pow_iff_right (by decide)).1 hlt
      omega
  generalize F64.excess (m * 2 ^ e / 1) = sh at hle ⊢
  obtain ⟨k, rfl⟩ := Nat.exists_eq_add_of_le hle
  rw [one_mul, show m * 2 ^ (sh + k) = m * 2 ^ k * 2 ^ sh by ring, F64.roundQuotient_mul _ (by positivity)]

/-- An integer of magnitude below 2^53 in units of 1 rounds to itself. -/
theorem F64.real_rounded_of_lt (neg : Bool) {m : Nat} (hm : m < 2 ^ 53) :
    (F64.rounded neg (m * F64.one) 1).isFinite = true ∧
      (F64.rounded neg (m * F64.one) 1).real = (if neg then -1 else 1) * m := by
  have hone := F64.one_cast_pos.ne'
  have hm' : (m : ℚ) < 2 ^ 53 := by exact_mod_cast hm
  have hr := F64.roundedTo_rounded neg (m * F64.one) 1 Nat.one_pos
  have hq : (if neg then -1 else 1 : ℚ) * (((m * F64.one : Nat) : ℚ) / (1 : Nat)) / F64.one =
      (if neg then -1 else 1) * m := by
    push_cast
    field_simp
  rw [hq] at hr
  have hfinite : (F64.rounded neg (m * F64.one) 1).isFinite = true := by
    refine hr.1.2 (F64.lt_overflow_threshold ?_)
    cases neg <;> simpa using hm'
  refine ⟨hfinite, ?_⟩
  have hmag : (F64.rounded neg (m * F64.one) 1).mag = m * F64.one := by
    rw [(F64.mag_rounded_of_finite neg _ 1 Nat.one_pos ((F64.isFinite_rounded _ _ _).1 hfinite)).1]
    unfold F64.one
    exact F64.roundQuotient_of_lt hm _
  rw [F64.real_eq_sign_mag, F64.sign_rounded, hmag, Nat.cast_mul, mul_div_cancel_right₀ _ hone]

/-- Settles O22: `f64(n)` rounds `n` units of 1, with the sign of `n`. -/
theorem ofIntExact : Obligations.OfIntExact := by
  intro n hn
  obtain ⟨hlo, hhi⟩ := abs_lt.1 hn
  obtain ⟨hfinite, hreal⟩ := F64.real_rounded_of_lt (decide (n < 0)) (m := n.natAbs) (by omega)
  exact ⟨hfinite, hreal.trans (cast_eq_sign_mul_natAbs n).symm⟩

end Sys2Proof
end

section
/-! SUPPORT. No float result is a NaN or an infinity (41_colour.md R160): operands in the domain are small, the checked integers are
small, and each formula of the rules keeps its values far below the overflow threshold. -/

namespace Sys2Proof

open Machine (RoundedTo)

/-! ### Bounded values -/

/-- `x` is finite and of magnitude at most `n`. -/
def F64.FiniteWithin (n : Nat) (x : F64) : Prop := x.isFinite = true ∧ |x.real| ≤ n

/-- The rounding of an exact result of magnitude at most `n` is of magnitude at most `n`, `n` itself being a binary64 value. -/
theorem Machine.RoundedTo.finiteWithin {z : F64} {q : ℚ} {n : Nat} (h : RoundedTo z q) (hn : n < 2 ^ 53) (hq : |q| ≤ n) :
    F64.FiniteWithin n z := by
  have hn' : (n : ℚ) < 2 ^ 53 := by exact_mod_cast hn
  obtain ⟨hfinite, hreal⟩ := ofIntExact n (by rw [Nat.abs_cast]; exact_mod_cast hn)
  rw [Int.cast_natCast] at hreal
  exact ⟨h.1.2 (F64.lt_overflow_threshold (hq.trans_lt hn')),
    hreal ▸ h.abs_real_le hfinite (by rwa [hreal]) (by rwa [hreal])⟩

section

variable {x y : F64} {m n : Nat}

theorem F64.FiniteWithin.add (hx : FiniteWithin m x) (hy : FiniteWithin n y) (hmn : m + n < 2 ^ 53 := by decide) :
    FiniteWithin (m + n) (F64.add x y) := by
  refine (F64.roundedTo_add hx.1 hy.1).finiteWithin hmn ?_
  rw [Nat.cast_add]
  exact (abs_add_le _ _).trans (add_le_add hx.2 hy.2)

theorem F64.FiniteWithin.neg (hx : FiniteWithin m x) : FiniteWithin m x.neg := by
  rwa [FiniteWithin, F64.isFinite_neg, F64.real_neg, abs_neg]

theorem F64.FiniteWithin.sub (hx : FiniteWithin m x) (hy : FiniteWithin n y) (hmn : m + n < 2 ^ 53 := by decide) :
    FiniteWithin (m + n) (F64.sub x y) :=
  hx.add hy.neg hmn

theorem F64.FiniteWithin.mul (hx : FiniteWithin m x) (hy : FiniteWithin n y) (hmn : m * n < 2 ^ 53 := by decide) :
    FiniteWithin (m * n) (F64.mul x y) := by
  refine (F64.roundedTo_mul hx.1 hy.1).finiteWithin hmn ?_
  rw [abs_mul, Nat.cast_mul]
  exact mul_le_mul hx.2 hy.2 (abs_nonneg _) (Nat.cast_nonneg _)

/-- Division by a value of magnitude at least 1. -/
theorem F64.FiniteWithin.div (hx : FiniteWithin m x) (hy : y.isFinite = true) (h1 : 1 ≤ |y.real|)
    (hm : m < 2 ^ 53 := by decide) : FiniteWithin m (F64.div x y) := by
  have h0 : y.real ≠ 0 := abs_pos.1 (zero_lt_one.trans_le h1)
  refine (F64.roundedTo_div hx.1 hy h0).finiteWithin hm ?_
  rw [abs_div]
  exact (div_le_self (abs_nonneg _) h1).trans hx.2

/-- A literal's bound, in units of 2^-1074. -/
theorem F64.finiteWithin_of_mag (hx : x.isFinite = true) (hm : x.mag ≤ n * F64.one) : FiniteWithin n x := by
  refine ⟨hx, ?_⟩
  rw [F64.abs_real, div_le_iff₀ F64.one_cast_pos]
  exact_mod_cast hm

theorem F64.one_le_abs_real (hm : F64.one ≤ x.mag) : 1 ≤ |x.real| := by
  rw [F64.abs_real, le_div_iff₀ F64.one_cast_pos, one_mul]
  exact_mod_cast hm

theorem F64.finiteWithin_ofInt {k : Int} (hk : |k| ≤ n) (hn : n < 2 ^ 53 := by decide) : FiniteWithin n (F64.ofInt k) := by
  obtain ⟨hfinite, hreal⟩ := ofIntExact k (by omega)
  refine ⟨hfinite, ?_⟩
  rw [hreal]
  exact_mod_cast hk

end

namespace Machine

/-! ### The formulas of the rules -/

theorem finiteWithin_of_inDomain {x : F64} (h : InDomain x) : F64.FiniteWithin (2 ^ 20) x := by
  obtain ⟨hfinite, habs⟩ := h
  exact ⟨hfinite, by exact_mod_cast habs⟩

/-- R162 of channels 0..d. -/
theorem isFinite_normalized {c d : Int} (hd : 1 ≤ d ∧ d ≤ 65535) (hc : 0 ≤ c ∧ c ≤ d) :
    (F64.div (F64.ofInt c) (F64.ofInt d)).isFinite = true := by
  obtain ⟨hfinite, hreal⟩ := ofIntExact d (by rw [abs_of_pos] <;> omega)
  have hc' : F64.FiniteWithin 65535 (F64.ofInt c) := F64.finiteWithin_ofInt (by rw [abs_of_nonneg] <;> omega)
  refine (hc'.div hfinite ?_).1
  rw [hreal, abs_of_pos (by exact_mod_cast hd.1)]
  exact_mod_cast hd.1

/-- R163 of values in the domain: each literal is below 1. -/
theorem isFinite_normalizedToLumaChroma {c : Rgb} (hr : InDomain c.r) (hg : InDomain c.g) (hb : InDomain c.b) :
    (normalizedToLumaChroma .binary64 c).y.isFinite = true ∧ (normalizedToLumaChroma .binary64 c).pb.isFinite = true ∧
      (normalizedToLumaChroma .binary64 c).pr.isFinite = true := by
  have scaled {l x : F64} (hx : InDomain x) (hl : l.isFinite = true ∧ l.mag ≤ 1 * F64.one) :
      F64.FiniteWithin (1 * 2 ^ 20) (F64.mul l x) :=
    (F64.finiteWithin_of_mag hl.1 hl.2).mul (finiteWithin_of_inDomain hx)
  rw [normalizedToLumaChroma_binary64]
  refine ⟨?_, ?_, ?_⟩
  · exact (((scaled hr (by decide +kernel)).add (scaled hg (by decide +kernel))).add (scaled hb (by decide +kernel))).1
  · exact (((scaled hr (by decide +kernel)).sub (scaled hg (by decide +kernel))).add (scaled hb (by decide +kernel))).1
  · exact (((scaled hr (by decide +kernel)).sub (scaled hg (by decide +kernel))).sub (scaled hb (by decide +kernel))).1

/-- R164 of values in the domain: each literal is below 2. -/
theorem isFinite_lumaChromaToNormalized {q : Ypp} (hy : InDomain q.y) (hpb : InDomain q.pb) (hpr : InDomain q.pr) :
    (lumaChromaToNormalized .binary64 q).r.isFinite = true ∧ (lumaChromaToNormalized .binary64 q).g.isFinite = true ∧
      (lumaChromaToNormalized .binary64 q).b.isFinite = true := by
  have y := finiteWithin_of_inDomain hy
  have scaled {l x : F64} (hx : InDomain x) (hl : l.isFinite = true ∧ l.mag ≤ 2 * F64.one) :
      F64.FiniteWithin (2 * 2 ^ 20) (F64.mul l x) :=
    (F64.finiteWithin_of_mag hl.1 hl.2).mul (finiteWithin_of_inDomain hx)
  rw [lumaChromaToNormalized_binary64]
  refine ⟨?_, ?_, ?_⟩
  · exact (y.add (scaled hpr (by decide +kernel))).1
  · exact ((y.sub (scaled hpb (by decide +kernel))).sub (scaled hpr (by decide +kernel))).1
  · exact (y.add (scaled hpb (by decide +kernel))).1

/-- R180 and R181 of values in the domain. -/
theorem isFinite_blockForward {q0 q1 q2 q3 : Ypp} (h : ∀ q ∈ [q0, q1, q2, q3], InDomain q.y ∧ InDomain q.pb ∧ InDomain q.pr) :
    ∀ x ∈ coeffPorts (blockForward .binary64 q0 q1 q2 q3), x.isFinite = true := by
  have small {x : F64} (hx : InDomain x) := finiteWithin_of_inDomain hx
  have quarter {n : Nat} {x : F64} (hx : F64.FiniteWithin n x) (hn : n < 2 ^ 53 := by decide) :
      (F64.div x ⟨0x4010000000000000#64⟩).isFinite = true :=
    (hx.div (by decide) (F64.one_le_abs_real (by decide +kernel)) hn).1
  simp only [List.forall_mem_cons] at h
  obtain ⟨⟨y0, pb0, pr0⟩, ⟨y1, pb1, pr1⟩, ⟨y2, pb2, pr2⟩, ⟨y3, pb3, pr3⟩, -⟩ := h
  simp only [blockForward_binary64, coeffPorts, List.forall_mem_cons]
  refine ⟨?_, ?_, ?_, ?_, ?_, ?_, List.forall_mem_nil _⟩
  · exact quarter ((((small y0).add (small y1)).add (small y2)).add (small y3))
  · exact quarter ((((small y3).add (small y2)).sub (small y1)).sub (small y0))
  · exact quarter ((((small y3).sub (small y2)).add (small y1)).sub (small y0))
  · exact quarter ((((small y3).sub (small y2)).sub (small y1)).add (small y0))
  · exact quarter ((((small pb0).add (small pb1)).add (small pb2)).add (small pb3))
  · exact quarter ((((small pr0).add (small pr1)).add (small pr2)).add (small pr3))

/-- R182 of values in the domain. -/
theorem isFinite_blockInverse {k : Coeffs} (h : ∀ x ∈ coeffPorts k, InDomain x) :
    ∀ x ∈ yppPorts (blockInverse .binary64 k), x.isFinite = true := by
  have small {x : F64} (hx : InDomain x) := finiteWithin_of_inDomain hx
  simp only [coeffPorts, List.forall_mem_cons] at h
  obtain ⟨a, b, c, d, ⟨pb, -⟩, ⟨pr, -⟩, -⟩ := h
  simp only [blockInverse_binary64, yppPorts, List.forall_mem_cons]
  refine ⟨?_, pb, pr, ?_, pb, pr, ?_, pb, pr, ?_, pb, pr, List.forall_mem_nil _⟩
  · exact ((((small a).sub (small b)).sub (small c)).add (small d)).1
  · exact ((((small a).sub (small b)).add (small c)).sub (small d)).1
  · exact ((((small a).add (small b)).sub (small c)).sub (small d)).1
  · exact ((((small a).add (small b)).add (small c)).add (small d)).1

/-- A small integer divided by a value of magnitude at least 1. -/
theorem isFinite_ofInt_div {n : Int} {y : F64} (hn : |n| ≤ (511 : Nat)) (hy : y.isFinite = true) (h1 : F64.one ≤ y.mag) :
    (F64.div (F64.ofInt n) y).isFinite = true :=
  ((F64.finiteWithin_ofInt hn).div hy (F64.one_le_abs_real h1)).1

theorem isFinite_dequantA {n : Int} (h : 0 ≤ n ∧ n ≤ 511) : (dequantA .binary64 n).isFinite = true := by
  rw [dequantA_binary64]
  exact isFinite_ofInt_div (abs_le.2 ⟨by omega, by omega⟩) (by decide) (by decide +kernel)

theorem isFinite_dequantBcd {n : Int} (h : -16 ≤ n ∧ n ≤ 15) : (dequantBcd .binary64 n).isFinite = true := by
  rw [dequantBcd_binary64]
  exact isFinite_ofInt_div (abs_le.2 ⟨by omega, by omega⟩) (by decide) (by decide +kernel)

/-- The levels of a conforming codebook (R202). -/
theorem build_codebook_conforms : codebookConforms .binary64 fDomainMaxDefault Config.build.codebook = true := by
  rw [Config.build_codebook]
  exact Config.chromaCodebook.conforming

theorem isFinite_chromaDequantize (n : Int) : (chromaDequantize Config.build.codebook n).isFinite = true := by
  obtain ⟨hfinite, -⟩ := (codebookConforms_iff _ _ _).1 build_codebook_conforms
  exact hfinite ⟨_, (BitVec.ofInt 4 n).isLt⟩

theorem isFinite_dequantizedField {k : Fin 6} {n : Int} (h : FieldInRange k n) : (dequantizedField k n).isFinite = true := by
  unfold FieldInRange at h
  unfold dequantizedField
  split_ifs at h ⊢
  · exact isFinite_dequantA h
  · exact isFinite_dequantBcd h
  · exact isFinite_chromaDequantize n

/-! ### The commands -/

section

variable {s t : State} {i : Instr} {r : Results}

/-- A calculation that checks float ports and ends well has found them in the domain. -/
theorem checkFloats_bind_eq_ok {ks : List (Fin 12)} {g : Unit → Calc Results} :
    (checkFloats Config.build s ks >>= g) = .ok r ↔ (∀ k ∈ ks, InDomain (s.flt k)) ∧ g () = .ok r := by
  by_cases h : ∀ k ∈ ks, InDomain (s.flt k)
  · rw [checkFloats_ok h, ok_bind]
    exact (and_iff_right h).symm
  · rw [checkFloats_fails h, raise_bind]
    exact ⟨(fun hr => nomatch hr), fun ⟨hall, _⟩ => absurd hall h⟩

/-- The results of a command whose writes column has no RF name no RF (R92). -/
theorem rf_eq_nil_of_calc (h : commandCalc Config.build i s = .ok r) (hi : .rf 0 ∉ resultPorts i) : r.rf = [] := by
  have hports : r.ports = resultPorts i := by
    have hend := commandCalc_endsIn i s
    rwa [h] at hend
  rw [← hports] at hi
  simpa [Results.ports] using hi

theorem rgbToNorm_finite (h : rgbToNormCalc Config.build s = .ok r) : ∀ x ∈ r.rf, x.isFinite = true := by
  rw [rgbToNormCalc_eq] at h
  split_ifs at h with hd hc
  · obtain rfl := Except.ok.inj h
    obtain ⟨hr, hg, hb⟩ := hc
    simp only [List.forall_mem_cons]
    exact ⟨isFinite_normalized hd hr, isFinite_normalized hd hg, isFinite_normalized hd hb, List.forall_mem_nil _⟩
  · exact nomatch h
  · exact nomatch h

theorem normToYpbpr_finite (h : normToYpbprCalc Config.build s = .ok r) : ∀ x ∈ r.rf, x.isFinite = true := by
  rw [normToYpbprCalc, checkFloats_bind_eq_ok, Config.build_numeric, pure_calc, Except.ok.injEq] at h
  obtain ⟨hd, rfl⟩ := h
  obtain ⟨hy, hpb, hpr⟩ := isFinite_normalizedToLumaChroma (c := ⟨s.flt 0, s.flt 1, s.flt 2⟩)
    (hd 0 (by decide)) (hd 1 (by decide)) (hd 2 (by decide))
  simp only [List.forall_mem_cons]
  exact ⟨hy, hpb, hpr, List.forall_mem_nil _⟩

theorem ypbprToNorm_finite (h : ypbprToNormCalc Config.build s = .ok r) : ∀ x ∈ r.rf, x.isFinite = true := by
  rw [ypbprToNormCalc, checkFloats_bind_eq_ok, Config.build_numeric, pure_calc, Except.ok.injEq] at h
  obtain ⟨hd, rfl⟩ := h
  obtain ⟨hr, hg, hb⟩ := isFinite_lumaChromaToNormalized (q := ⟨s.flt 0, s.flt 1, s.flt 2⟩)
    (hd 0 (by decide)) (hd 1 (by decide)) (hd 2 (by decide))
  simp only [List.forall_mem_cons]
  exact ⟨hr, hg, hb, List.forall_mem_nil _⟩

theorem blkFwd_finite (h : blkFwdCalc Config.build s = .ok r) : ∀ x ∈ r.rf, x.isFinite = true := by
  rw [blkFwdCalc, checkFloats_bind_eq_ok, Config.build_numeric, pure_calc, Except.ok.injEq] at h
  obtain ⟨hd, rfl⟩ := h
  refine isFinite_blockForward ?_
  simp only [List.forall_mem_cons] at hd ⊢
  obtain ⟨h0, h1, h2, h3, h4, h5, h6, h7, h8, h9, h10, h11, -⟩ := hd
  exact ⟨⟨h0, h1, h2⟩, ⟨h3, h4, h5⟩, ⟨h6, h7, h8⟩, ⟨h9, h10, h11⟩, List.forall_mem_nil _⟩

theorem blkInv_finite (h : blkInvCalc Config.build s = .ok r) : ∀ x ∈ r.rf, x.isFinite = true := by
  rw [blkInvCalc, checkFloats_bind_eq_ok, Config.build_numeric, pure_calc, Except.ok.injEq] at h
  obtain ⟨hd, rfl⟩ := h
  refine isFinite_blockInverse ?_
  simp only [State.coeffs, coeffPorts, List.forall_mem_cons] at hd ⊢
  obtain ⟨h0, h1, h2, h3, h4, h5, -⟩ := hd
  exact ⟨h0, h1, h2, h3, h4, h5, List.forall_mem_nil _⟩

/-- A command that checks a range and then names one float result. -/
theorem dequantizer_finite {v lo hi : Int} {x : F64}
    (hcalc : commandCalc Config.build i s = do checkRange v lo hi; return { rf := [x] })
    (hx : lo ≤ v ∧ v ≤ hi → x.isFinite = true) (h : commandCalc Config.build i s = .ok r) :
    ∀ x ∈ r.rf, x.isFinite = true := by
  rw [hcalc, checkRange_bind] at h
  split_ifs at h with hr
  · obtain rfl := Except.ok.inj h
    exact List.forall_mem_singleton.2 (hx hr)
  · exact nomatch h

theorem blkDequant_finite (h : commandCalc Config.build .blkDequant s = .ok r) : ∀ x ∈ r.rf, x.isFinite = true := by
  classical
  rw [blkDequantCalc_eq] at h
  split_ifs at h with hr
  · obtain rfl := Except.ok.inj h
    have hfield (k : Fin 6) := isFinite_dequantizedField (fieldInRange_of_recordInRange hr k)
    simp only [blockDequantize_record, coeffPorts, List.forall_mem_cons]
    exact ⟨hfield 0, hfield 1, hfield 2, hfield 3, hfield 4, hfield 5, List.forall_mem_nil _⟩
  · exact nomatch h

/-- Every float that a calculation gives is finite. -/
theorem isFinite_of_mem_rf (h : commandCalc Config.build i s = .ok r) : ∀ x ∈ r.rf, x.isFinite = true := by
  cases i with
  | rgbToNorm => exact rgbToNorm_finite h
  | normToYpbpr => exact normToYpbpr_finite h
  | ypbprToNorm => exact ypbprToNorm_finite h
  | blkFwd => exact blkFwd_finite h
  | blkInv => exact blkInv_finite h
  | chromaDq => exact dequantizer_finite (chromaDqCalc_build s) (fun _ => isFinite_chromaDequantize _) h
  | dequantA => exact dequantizer_finite (dequantACalc_build s) isFinite_dequantA h
  | dequantBcd => exact dequantizer_finite (dequantBcdCalc_build s) isFinite_dequantBcd h
  | blkDequant => exact blkDequant_finite h
  | _ =>
    rw [rf_eq_nil_of_calc h (by simp [resultPorts])]
    exact List.forall_mem_nil _

theorem floatResultsFinite_of_exec (h : exec i s = .next t) : FloatResultsFinite t := by
  obtain ⟨-, ⟨r, hr, rfl⟩ | ⟨e, -, rfl⟩⟩ := exec_next h
  case inl =>
    intro k hk
    have hfinite := isFinite_of_mem_rf hr
    simp only [Fin.getElem_fin, State.succeed_rf_get, State.clearResults_rf_get] at hk ⊢
    cases hx : r.rf[k.val]? with
    | none => simp [hx] at hk
    | some x => exact hfinite x (List.mem_of_getElem? hx)
  case inr => simp

theorem floatResultsFinite_of_issue {w : Word32} (h : issueBy exec w s = .next t) : FloatResultsFinite t := by
  obtain ⟨i, -, hi⟩ | ⟨-, rfl⟩ := issueBy_next h
  · exact floatResultsFinite_of_exec hi
  · simp

/-- A host action other than a command writes no RF, and RESET clears every valid bit. -/
theorem floatResultsFinite_of_perform {a : HostAction} (hs : FloatResultsFinite s) (h : performBy exec a s = .next t) :
    FloatResultsFinite t := by
  obtain ⟨v, -, rfl⟩ | ⟨v, -, rfl⟩ | ⟨w, -, hw⟩ | ⟨-, rfl⟩ | ⟨p, -, -, rfl⟩ | ⟨-, rfl⟩ := performBy_next h
  · simpa using hs
  · exact hs
  · exact floatResultsFinite_of_issue hw
  · simpa using hs
  · simpa using hs
  · simp

end

/-- Settles O17: a command gives finite floats from any state at all, and no other step writes an RF. -/
theorem floatResultsAreFinite : Obligations.FloatResultsAreFinite := by
  refine ⟨fun s t hs h => ?_, fun i s t => floatResultsFinite_of_exec⟩
  cases hc : s.cmd with
  | some w =>
    rw [step_of_command hc] at h
    exact floatResultsFinite_of_issue h
  | none =>
    obtain ⟨-, rfl⟩ | ⟨a, rest, -, ha⟩ := step_next hc h
    · exact hs
    · exact floatResultsFinite_of_perform (s := { s with script := rest }) (by simpa using hs) ha

end Machine
end Sys2Proof
end

section
/-! SUPPORT. What can stop a calculation short of its last line: an error of its own, a buffer read out of range, or a buffer over
BUF_CAP (20_memory.md R61, R76; 60_exceptions.md R302). A configuration is refused by the step alone (70_reset_and_hazards.md
R342). -/

namespace Sys2Proof.Machine

section

variable {dimBits : Nat} {α β : Type} {P : Stop → Prop}

/-! ### The stops of a calculation -/

/-- Whatever ends the calculation early has the property `P`. -/
def StopsIn (P : Stop → Prop) (c : Calc α) : Prop := ∀ stop, c = .error stop → P stop

theorem stopsIn_ok (a : α) : StopsIn P (.ok a : Calc α) := fun _ h => nomatch h

theorem StopsIn.bind {x : Calc β} {g : β → Calc α} (hx : StopsIn P x) (hg : ∀ b, StopsIn P (g b)) :
    StopsIn P (x >>= g) := by
  cases x with
  | error stop => exact fun stop' h => hx stop' (by simpa using h)
  | ok b => rw [ok_bind]; exact hg b

theorem stopsIn_check (hP : ∀ e, P (.raised e)) (b : Bool) (e : Error) : StopsIn P (check b e) := by
  cases b
  · rintro _ ⟨⟩
    exact hP e
  · exact stopsIn_ok ()

/-- A check and the rest of the calculation after it. -/
theorem StopsIn.after_check (hP : ∀ e, P (.raised e)) {b : Bool} {e : Error} {g : Unit → Calc α} (hg : StopsIn P (g ())) :
    StopsIn P (check b e >>= g) :=
  (stopsIn_check hP b e).bind fun _ => hg

theorem stopsIn_withinCap (hP : P (.refused .bufferOverCap)) (cap : Option Nat) (n : Nat) : StopsIn P (withinCap cap n) := by
  unfold withinCap
  split
  · exact stopsIn_ok ()
  · split
    · exact stopsIn_ok ()
    · rintro _ ⟨⟩
      exact hP

theorem stopsIn_bufRead (hP : P (.fault .bufIndex)) (l : List α) (k : Nat) : StopsIn P (bufRead l k) := by
  unfold bufRead
  split
  · exact stopsIn_ok _
  · rintro _ ⟨⟩
    exact hP

theorem stopsIn_collect {g : Nat → Calc α} (hg : ∀ k, StopsIn P (g k)) (k n : Nat) : StopsIn P (collect g k n) := by
  induction n generalizing k with
  | zero => exact stopsIn_ok []
  | succ n ih => exact (hg k).bind fun _ => (ih (k + 1)).bind fun _ => stopsIn_ok _

/-! ### Each command's stops -/

theorem stopsIn_insertResult (hP : ∀ e, P (.raised e)) (o : Option Word64) :
    StopsIn P (insertResult (dimBits := dimBits) o) := by
  cases o with
  | none => rintro _ ⟨⟩; exact hP errRange
  | some w => exact stopsIn_ok _

theorem stopsIn_packCalc (hP : ∀ e, P (.raised e)) (s : State dimBits) : StopsIn P (packCalc s) := by
  unfold packCalc packResult
  split
  · exact stopsIn_ok _
  · rintro _ ⟨⟩
    exact hP _

/-- A command that uses no buffer stops at its own errors only. -/
theorem stopsIn_commandCalc_of_no_buffer (hP : ∀ e, P (.raised e)) (p : Params) {i : Instr} (hc : i ≠ .compress)
    (hd : i ≠ .decompress) (s : State dimBits) : StopsIn P (commandCalc p i s) := by
  cases i with
  | insertU width lsb => exact .after_check hP (stopsIn_insertResult hP _)
  | insertS width lsb => exact .after_check hP (stopsIn_insertResult hP _)
  | rgbToNorm => exact .after_check hP (.after_check hP (.after_check hP (.after_check hP (stopsIn_ok _))))
  | normToRgb => exact .after_check hP (.after_check hP (stopsIn_ok _))
  | blkDequant =>
    exact .after_check hP (.after_check hP (.after_check hP (.after_check hP (.after_check hP
      (.after_check hP (stopsIn_ok _))))))
  | pack => exact stopsIn_packCalc hP s
  | trim => exact stopsIn_ok _
  | blockMap => exact .after_check hP (.after_check hP (stopsIn_ok _))
  | compress => exact absurd rfl hc
  | decompress => exact absurd rfl hd
  | _ => exact .after_check hP (stopsIn_ok _)

theorem stopsIn_blockWord (hP : ∀ e, P (.raised e)) (p : Params) (q0 q1 q2 q3 : Ypp) :
    StopsIn P (blockWord p q0 q1 q2 q3) := by
  unfold blockWord
  split
  · exact stopsIn_ok _
  · rintro _ ⟨⟩
    exact hP errRange

theorem stopsIn_compressRaster (hraise : ∀ e, P (.raised e)) (hread : P (.fault .bufIndex)) (p : Params)
    (R : Raster dimBits) : StopsIn P (compressRaster p R) := by
  have hblock (Q : List Ypp) (W k : Nat) : StopsIn P (compressBlock p Q W k) :=
    (stopsIn_bufRead hread Q _).bind fun q0 => (stopsIn_bufRead hread Q _).bind fun q1 =>
      (stopsIn_bufRead hread Q _).bind fun q2 => (stopsIn_bufRead hread Q _).bind fun q3 =>
        stopsIn_blockWord hraise p q0 q1 q2 q3
  exact (stopsIn_collect (fun _ => stopsIn_bufRead hread _ _) _ _).bind fun _ => stopsIn_collect (hblock _ _) _ _

/-- Every command stops at its own errors, at a buffer read, or at BUF_CAP. -/
theorem stopsIn_commandCalc (hraise : ∀ e, P (.raised e)) (hread : P (.fault .bufIndex))
    (hcap : P (.refused .bufferOverCap)) (p : Params) (i : Instr) (s : State dimBits) : StopsIn P (commandCalc p i s) := by
  by_cases hc : i = .compress
  · subst hc
    exact (stopsIn_withinCap hcap _ _).bind fun _ =>
      StopsIn.bind (.after_check hraise (.after_check hraise (stopsIn_check hraise _ _))) fun _ =>
        (stopsIn_compressRaster hraise hread p _).bind fun _ => (stopsIn_withinCap hcap _ _).bind fun _ => stopsIn_ok _
  · by_cases hd : i = .decompress
    · subst hd
      exact (stopsIn_withinCap hcap _ _).bind fun _ => .after_check hraise (.after_check hraise
        ((stopsIn_withinCap hcap _ _).bind fun _ => stopsIn_ok _))
    · exact stopsIn_commandCalc_of_no_buffer hraise p hc hd s

/-! ### The refusals of a step -/

theorem execUnder_ne_refused (p : Params) (i : Instr) (s : State dimBits) :
    execUnder p i s ≠ .refused .nonconformingConfiguration := by
  have hstop : StopsIn (· ≠ .refused .nonconformingConfiguration) (commandCalc p i s) :=
    stopsIn_commandCalc (fun _ => nofun) nofun nofun p i s
  rw [execUnder, runCommand, commandCalc_clearResults]
  split
  · cases hc : commandCalc p i s with
    | ok r => exact nofun
    | error stop =>
      cases stop with
      | raised e => exact nofun
      | fault f => exact nofun
      | refused q =>
        rintro ⟨⟩
        exact hstop _ hc rfl
  · exact nofun

/-- A step refuses what its command set refuses, and nothing else. -/
theorem stepBy_ne_refused {run : Instr → State dimBits → Out dimBits} {q : Refusal} (hrun : ∀ i s, run i s ≠ .refused q)
    (s : State dimBits) : stepBy run s ≠ .refused q := by
  have hissue (w : Word32) (s : State dimBits) : issueBy run w s ≠ .refused q := by
    unfold issueBy
    split
    · exact hrun _ s
    · exact nofun
  unfold stepBy
  split
  · exact hissue _ s
  · exact nofun
  · unfold performBy
    split
    case h_3 => exact hissue _ _
    case h_4 =>
      unfold hostRead
      split
      case h_2 => split <;> exact nofun
      all_goals exact nofun
    all_goals exact nofun

/-- R342's conditions. -/
theorem conforms_iff (p : Params) :
    p.conforms = true ↔
      (∀ k : Fin 16, p.numeric.isFinite p.codebook[k] = true) ∧
      (∀ j k : Fin 16, j < k → p.numeric.real p.codebook[j] < p.numeric.real p.codebook[k]) ∧
      (∀ k : Fin 16, |p.numeric.real p.codebook[k]| ≤ p.fDomainMax) ∧
      (1 ≤ p.denomMax ∧ p.denomMax ≤ 2 ^ 32 - 1) ∧ (1 ≤ p.decDenom ∧ p.decDenom ≤ p.denomMax) := by
  have hlt : p.denomMax < 2 ^ 32 ↔ p.denomMax ≤ 2 ^ 32 - 1 := by omega
  simp only [Params.conforms, Bool.and_eq_true, decide_eq_true_iff, codebookConforms_iff, hlt]
  tauto

end

/-- Settles O18: the step checks R342's conditions first, and no command refuses for them. -/
theorem nonconformingConfigurationRefused : Obligations.NonconformingConfigurationRefused := by
  refine ⟨?_, stepUnder_build⟩
  intro dimBits p s level conforming
  have hconf : p.conforms = true ↔ conforming := conforms_iff p
  rw [← hconf, stepUnder]
  by_cases h : p.conforms = true
  · rw [if_pos h]
    exact ⟨iff_of_false (stepBy_ne_refused (execUnder_ne_refused p) s) (not_not.2 h), fun _ => rfl⟩
  · rw [if_neg h]
    exact ⟨iff_of_true rfl h, fun hc => absurd hc h⟩

end Sys2Proof.Machine
end

section
/-! SUPPORT. PACK by the ranges of its six fields (44_packer.md R230, R232), the float commands on an operand out of the domain
(41_colour.md R160), and the codebook's levels under the quantizer (43_quantizer.md R217). -/

namespace Sys2Proof.Machine

section

variable {s : State}

/-! ### PACK -/

/-- Settles O31: the packed word is the record's number, whose fields are in range. -/
theorem packLayout : Obligations.PackLayout := by
  intro s hwritten hrange
  obtain ⟨t, ht, hend⟩ := pack_succeeds hwritten (packRecord_of_recordInRange hrange)
  refine ⟨t, _, ht, hend, ?_⟩
  obtain ⟨ha, hb, hc, hd, hpb, hpr⟩ := hrange
  rw [toNat_recordNumber, recordNumber_eq]
  simp only [State.record] at *
  omega

/-- `pack` by the ranges of R96: a record in range packs into its number, and the first field out of its range ends it. -/
theorem packRecord_eq_ranges (r : Record) :
    packRecord r =
      if 0 ≤ r.a ∧ r.a ≤ 511 then
        if -16 ≤ r.b ∧ r.b ≤ 15 then
          if -16 ≤ r.c ∧ r.c ≤ 15 then
            if -16 ≤ r.d ∧ r.d ≤ 15 then
              if 0 ≤ r.pb ∧ r.pb ≤ 15 then
                if 0 ≤ r.pr ∧ r.pr ≤ 15 then .ok (BitVec.ofNat 64 (recordNumber r))
                else .error 5#4
              else .error 4#4
            else .error 3#4
          else .error 2#4
        else .error 1#4
      else .error 0#4 := by
  have nine (n : Int) : fitsUnsigned n 9 = false ↔ ¬ (0 ≤ n ∧ n ≤ 511) := by
    rw [← Bool.not_eq_true, fitsUnsigned_iff]
    omega
  have five (n : Int) : fitsSigned n 5 = false ↔ ¬ (-16 ≤ n ∧ n ≤ 15) := by
    rw [← Bool.not_eq_true, fitsSigned_iff_cases]
    omega
  have four (n : Int) : fitsUnsigned n 4 = false ↔ ¬ (0 ≤ n ∧ n ≤ 15) := by
    rw [← Bool.not_eq_true, fitsUnsigned_iff]
    omega
  by_cases hr : RecordInRange r
  · rw [packRecord_of_recordInRange hr]
    obtain ⟨ha, hb, hc, hd, hpb, hpr⟩ := hr
    rw [if_pos ha, if_pos hb, if_pos hc, if_pos hd, if_pos hpb, if_pos hpr]
  · rw [packRecord_eq]
    simp only [nine, five, four, ite_not]
    split_ifs with ha hb hc hd hpb hpr
    · exact absurd ⟨ha, hb, hc, hd, hpb, hpr⟩ hr
    all_goals rfl

/-- PACK of a record with a failing field (R232). -/
theorem pack_fails {f : BitVec 4} (h : IntPortsWritten s) (hf : packRecord s.record = .error f) :
    ∃ t, exec .pack s = .next t ∧ Failed s t (statusWord (errPackField f)) :=
  exec_fails (i := .pack) (recordOperands_written h) (by rw [commandCalc, packCalc, hf, packResult])

/-- Settles O32: STATUS has the number of the first field that is out of its range. -/
theorem packReportsFirstFailingField : Obligations.PackReportsFirstFailingField := by
  intro s hwritten aOk bOk cOk dOk pbOk prOk
  have hpack := packRecord_eq_ranges s.record
  refine ⟨fun ha => ?_, fun ha hb => ?_, fun ha hb hc => ?_, fun ha hb hc hd => ?_, fun ha hb hc hd hpb => ?_,
    fun ha hb hc hd hpb hpr => ?_⟩
  · exact pack_fails hwritten (hpack.trans (if_neg ha))
  · exact pack_fails hwritten (hpack.trans ((if_pos ha).trans (if_neg hb)))
  · exact pack_fails hwritten (hpack.trans ((if_pos ha).trans ((if_pos hb).trans (if_neg hc))))
  · exact pack_fails hwritten (hpack.trans ((if_pos ha).trans ((if_pos hb).trans ((if_pos hc).trans (if_neg hd)))))
  · exact pack_fails hwritten
      (hpack.trans ((if_pos ha).trans ((if_pos hb).trans ((if_pos hc).trans ((if_pos hd).trans (if_neg hpb))))))
  · exact pack_fails hwritten (hpack.trans
      ((if_pos ha).trans ((if_pos hb).trans ((if_pos hc).trans ((if_pos hd).trans ((if_pos hpb).trans (if_neg hpr)))))))

/-! ### The domain check -/

/-- A command that reads the first `n` float ports and checks them before anything else. -/
theorem floatCommand_fails {i : Instr} {n : Nat} {ks : List (Fin 12)} {g : Unit → Calc Results}
    (hops : operandPorts i = ks.map .f) (hcalc : commandCalc Config.build i s = checkFloats Config.build s ks >>= g)
    (hks : ∀ k : Fin 12, k ∈ ks ↔ k.val < n) (hw : FloatPortsWritten n s) (hd : ¬ FloatPortsInDomain n s) :
    ∃ t, exec i s = .next t ∧ Failed s t 0x00000FF5#32 := by
  refine exec_fails (e := errNumeric) ?_ ?_
  · rw [hops]
    exact inValid_of_floatPortsWritten hw fun k => (hks k).1
  · rw [hcalc, checkFloats_of_not_floatPortsInDomain hd fun k => (hks k).2, raise_bind]

end

/-- Settles O39: each of the eight commands checks exactly the float ports it reads. -/
theorem floatCommandsCheckTheDomain : Obligations.FloatCommandsCheckTheDomain := by
  intro s i n hi hw hd
  simp only [List.mem_cons, List.not_mem_nil, or_false, Prod.mk.injEq] at hi
  obtain ⟨rfl, rfl⟩ | ⟨rfl, rfl⟩ | ⟨rfl, rfl⟩ | ⟨rfl, rfl⟩ | ⟨rfl, rfl⟩ | ⟨rfl, rfl⟩ | ⟨rfl, rfl⟩ | ⟨rfl, rfl⟩ := hi
  · exact floatCommand_fails (ks := [0, 1, 2]) rfl rfl (by decide) hw hd
  · exact floatCommand_fails (ks := [0, 1, 2]) rfl rfl (by decide) hw hd
  · exact floatCommand_fails (ks := [0, 1, 2, 3, 4, 5, 6, 7, 8, 9, 10, 11]) rfl rfl (by decide) hw hd
  · exact floatCommand_fails (ks := [0, 1, 2, 3, 4, 5]) rfl rfl (by decide) hw hd
  · exact floatCommand_fails (ks := [0]) rfl rfl (by decide) hw hd
  · exact floatCommand_fails (ks := [0]) rfl rfl (by decide) hw hd
  · exact floatCommand_fails (ks := [0]) rfl rfl (by decide) hw hd
  · exact floatCommand_fails (ks := [0, 1, 2, 3, 4, 5]) rfl rfl (by decide) hw hd

/-! ### The levels of the codebook -/

/-- The levels of the build's codebook are in the domain of `check_f` (R202). -/
theorem inDomain_level (k : Fin 16) : InDomain Config.build.codebook[k] := by
  obtain ⟨hfinite, hbound, -⟩ := (codebookConforms_iff _ _ _).1 build_codebook_conforms
  refine ⟨hfinite k, ?_⟩
  have h := hbound k
  rw [Numeric.real_binary64] at h
  exact_mod_cast h

/-- Levels with the same value are the same one: they increase strictly (R202). -/
theorem level_injective {j k : Fin 16} (h : Config.build.codebook[j].real = Config.build.codebook[k].real) : j = k := by
  obtain ⟨-, -, hlt⟩ := (codebookConforms_iff _ _ _).1 build_codebook_conforms
  have hmono : StrictMono fun k : Fin 16 => Config.build.codebook[k].real := fun j k hjk => hlt j k hjk
  exact hmono.injective h

/-- No level is nearer to a level than itself. -/
theorem chromaQuantize_level (k : Fin 16) : chromaQuantize .binary64 Config.build.codebook Config.build.codebook[k] = k := by
  have hnear := (abs_real_sub_chromaQuantize Config.build.codebook Config.build.codebook[k] k).1
  rw [sub_self, abs_zero, abs_nonpos_iff, sub_eq_zero] at hnear
  exact congrArg Fin.val (level_injective hnear).symm

/-- Settles O45: a level is in the domain, and the nearest level to it is itself. -/
theorem chromaLevelsAreFixed : Obligations.ChromaLevelsAreFixed := by
  intro s k hk
  have hv : s.f[0].valid = true := by rw [hk]
  have hflt : s.flt 0 = Config.build.codebook[k] := congrArg Port.val hk
  have h := chromaQ_succeeds hv (hflt ▸ inDomain_level k)
  rwa [hflt, chromaQuantize_level] at h

end Sys2Proof.Machine
end

section
/-! SUPPORT. COMPRESS (45_pipeline.md R254 to R257, R262): the checks of a raster, and the word of each block from its own four
pixels (20_memory.md R70). -/

namespace Sys2Proof.Machine

section

variable {dimBits : Nat}

/-! ### The checks of a raster (R255) -/

/-- `valid_raster`, split by its three checks. -/
theorem checkRaster_eq (R : Raster dimBits) :
    checkRaster Config.build R =
      if R.n = R.width.toNat * R.height.toNat then
        if 1 ≤ R.denom.toNat ∧ R.denom.toNat ≤ 65535 then
          if ∀ x ∈ R.px, x.r ≤ R.denom ∧ x.g ≤ R.denom ∧ x.b ≤ R.denom then .ok () else raise (errMalformed reasonChannel)
        else raise (errMalformed reasonDenominator)
      else raise (errMalformed reasonPixelCount) := by
  have hdenom : (1 ≤ (R.denom.toNat : Int) ∧ (R.denom.toNat : Int) ≤ 65535) = (1 ≤ R.denom.toNat ∧ R.denom.toNat ≤ 65535) := by
    rw [eq_iff_iff]
    omega
  have hchannels : R.px.all (pixelWithin R.denom) =
      decide (∀ x ∈ R.px, x.r ≤ R.denom ∧ x.g ≤ R.denom ∧ x.b ≤ R.denom) := by
    rw [Bool.eq_iff_iff, List.all_eq_true, decide_eq_true_iff]
    simp only [pixelWithin, Bool.and_eq_true, decide_eq_true_iff, and_assoc]
  rw [checkRaster, check_decide_bind, checkDenom_bind, hchannels, check]
  simp only [hdenom, decide_eq_true_iff]

theorem wellFormedRaster_of_checkRaster {R : Raster dimBits} (h : checkRaster Config.build R = .ok ()) :
    WellFormedRaster R := by
  rw [checkRaster_eq] at h
  split_ifs at h with hcount hdenom hchannels
  · exact ⟨hcount, hdenom, hchannels⟩
  all_goals exact nomatch h

/-- A raster is well-formed or raises an error. -/
theorem wellFormedRaster_or_raise (R : Raster dimBits) :
    WellFormedRaster R ∨ ∃ e, checkRaster Config.build R = raise e := by
  rw [checkRaster_eq]
  split_ifs with hcount hdenom hchannels
  · exact .inl ⟨hcount, hdenom, hchannels⟩
  all_goals exact .inr ⟨_, rfl⟩

/-! ### The word of one block (R256, R257) -/

/-- The pixels of the block in block row `br` and block column `bc` of a raster, in position order. -/
structure BlockPixels (R : Raster dimBits) (br bc : Nat) (x0 x1 x2 x3 : Pixel) : Prop where
  top_left : R.px[2 * br * R.width.toNat + 2 * bc]? = some x0
  top_right : R.px[2 * br * R.width.toNat + (2 * bc + 1)]? = some x1
  bottom_left : R.px[(2 * br + 1) * R.width.toNat + 2 * bc]? = some x2
  bottom_right : R.px[(2 * br + 1) * R.width.toNat + (2 * bc + 1)]? = some x3

/-- The quantized record of a block's four pixels. -/
def pixelsRecord (d : Word32) (x0 x1 x2 x3 : Pixel) : Record :=
  blockQuantize Config.build (blockForward .binary64 (pixelToYpp .binary64 d x0) (pixelToYpp .binary64 d x1)
    (pixelToYpp .binary64 d x2) (pixelToYpp .binary64 d x3))

/-- The word that COMPRESS gives the block in block row `br` and block column `bc`. -/
def IsBlockWord (R : Raster dimBits) (br bc : Nat) (word : Word32) : Prop :=
  ∃ (x0 x1 x2 x3 : Pixel) (v : Word64), BlockPixels R br bc x0 x1 x2 x3 ∧
    packRecord (pixelsRecord R.denom x0 x1 x2 x3) = .ok v ∧ word = v.setWidth 32

/-- A well-formed raster has every pixel of its blocks. -/
theorem exists_blockPixels {R : Raster dimBits} (h : WellFormedRaster R) {br bc : Nat} (hbr : br < R.height.toNat / 2)
    (hbc : bc < R.width.toNat / 2) : ∃ x0 x1 x2 x3, BlockPixels R br bc x0 x1 x2 x3 := by
  have pixel {row col : Nat} (hr : row < R.height.toNat) (hc : col < R.width.toNat) :
      ∃ x, R.px[row * R.width.toNat + col]? = some x :=
    ⟨_, List.getElem?_eq_getElem ((rowMajor_lt hr hc).trans_eq h.count.symm)⟩
  obtain ⟨x0, h0⟩ := pixel (row := 2 * br) (col := 2 * bc) (by omega) (by omega)
  obtain ⟨x1, h1⟩ := pixel (row := 2 * br) (col := 2 * bc + 1) (by omega) (by omega)
  obtain ⟨x2, h2⟩ := pixel (row := 2 * br + 1) (col := 2 * bc) (by omega) (by omega)
  obtain ⟨x3, h3⟩ := pixel (row := 2 * br + 1) (col := 2 * bc + 1) (by omega) (by omega)
  exact ⟨x0, x1, x2, x3, h0, h1, h2, h3⟩

/-- The four reads of a block that are in range lead to the word of its quantized record, which packs (R216). -/
theorem compressBlock_ok {Q : List Ypp} {W k : Nat} {q0 q1 q2 q3 : Ypp} (h0 : Q[blockMapOf W k 0]? = some q0)
    (h1 : Q[blockMapOf W k 1]? = some q1) (h2 : Q[blockMapOf W k 2]? = some q2) (h3 : Q[blockMapOf W k 3]? = some q3) :
    ∃ v, packRecord (blockQuantize Config.build (blockForward .binary64 q0 q1 q2 q3)) = .ok v ∧
      compressBlock Config.build Q W k = .ok (v.setWidth 32) := by
  obtain ⟨v, hv⟩ := packRecord_blockQuantize (blockForward .binary64 q0 q1 q2 q3)
  refine ⟨v, hv, ?_⟩
  rw [compressBlock, bufRead_eq_ok.2 h0, bufRead_eq_ok.2 h1, bufRead_eq_ok.2 h2, bufRead_eq_ok.2 h3]
  simp only [ok_bind, blockWord, Config.build_numeric, hv]

/-- A block of the trimmed pixels is the raster's block. -/
theorem compressBlock_trimmed {R : Raster dimBits} (h : WellFormedRaster R) {W H : Nat} {T : List Pixel} {br bc : Nat}
    (hT : ∀ row col, row < H → col < W → T[row * W + col]? = R.px[row * R.width.toNat + col]?)
    (hW : W ≤ R.width.toNat) (hH : H ≤ R.height.toNat) (hbr : br < H / 2) (hbc : bc < W / 2) :
    ∃ word, IsBlockWord R br bc word ∧
      compressBlock Config.build (T.map (pixelToYpp .binary64 R.denom)) W (br * (W / 2) + bc) = .ok word := by
  obtain ⟨x0, x1, x2, x3, hx⟩ := exists_blockPixels h (br := br) (bc := bc) (by omega) (by omega)
  have read {row col p : Nat} {x : Pixel} (hx : R.px[row * R.width.toNat + col]? = some x) (hr : row = 2 * br + p / 2)
      (hc : col = 2 * bc + p % 2) (hp : p < 4) :
      (T.map (pixelToYpp .binary64 R.denom))[blockMapOf W (br * (W / 2) + bc) p]? = some (pixelToYpp .binary64 R.denom x) := by
    rw [blockMapOf_at hbc, ← hr, ← hc, List.getElem?_map, hT row col (by omega) (by omega), hx, Option.map_some]
  obtain ⟨v, hv, hblock⟩ := compressBlock_ok (read (p := 0) hx.top_left rfl rfl (by decide))
    (read (p := 1) hx.top_right rfl rfl (by decide)) (read (p := 2) hx.bottom_left rfl rfl (by decide))
    (read (p := 3) hx.bottom_right rfl rfl (by decide))
  exact ⟨_, ⟨x0, x1, x2, x3, v, hx, hv, rfl⟩, hblock⟩

/-- `compress` of a well-formed raster gives one word a block, in block enumeration order. -/
theorem compressRaster_ok {R : Raster dimBits} (h : WellFormedRaster R) :
    ∃ out, compressRaster Config.build R = .ok out ∧
      out.length = blockCountOf (trimDim R.width.toNat) (trimDim R.height.toNat) ∧
      ∀ br bc, br < trimDim R.height.toNat / 2 → bc < trimDim R.width.toNat / 2 →
        ∃ word, IsBlockWord R br bc word ∧ out[br * (trimDim R.width.toNat / 2) + bc]? = some word := by
  have hW : trimDim R.width.toNat ≤ R.width.toNat := Nat.sub_le _ _
  have hH : trimDim R.height.toNat ≤ R.height.toNat := Nat.sub_le _ _
  obtain ⟨T, hT, -, hpixels⟩ := trimmedPixels_ok h hW hH
  rw [compressRaster, hT, ok_bind, Config.build_numeric]
  generalize trimDim R.width.toNat = W at *
  generalize trimDim R.height.toNat = H at *
  have hblock {br bc : Nat} (hbr : br < H / 2) (hbc : bc < W / 2) := compressBlock_trimmed h hpixels hW hH hbr hbc
  obtain ⟨out, hout⟩ : ∃ out, collect (compressBlock Config.build (T.map (pixelToYpp .binary64 R.denom)) W) 0
      (blockCountOf W H) = .ok out := collect_ok fun k hk => by
    obtain ⟨word, -, hword⟩ := hblock (Nat.div_lt_of_lt_mul hk) (Nat.mod_lt k (half_width_pos hk))
    rw [Nat.div_add_mod'] at hword
    exact ⟨word, (Nat.zero_add k).symm ▸ hword⟩
  obtain ⟨hlength, hwords⟩ := (collect_eq_ok _ _ _ _).1 hout
  refine ⟨out, hout, hlength, fun br bc hbr hbc => ?_⟩
  obtain ⟨word, hword, hcalc⟩ := hblock hbr hbc
  have hk : br * (W / 2) + bc < out.length := hlength ▸ rowMajor_lt hbr hbc
  have hget := hwords _ _ (List.getElem?_eq_getElem hk)
  rw [Nat.zero_add, hcalc, Except.ok.injEq] at hget
  exact ⟨word, hword, hget ▸ List.getElem?_eq_getElem hk⟩

end

/-! ### The command -/

section

variable {s t : State}

/-- COMPRESS under the build, whose buffers are unbounded (log 6). -/
theorem compressCalc_build (s : State) :
    commandCalc Config.build .compress s = do
      checkRaster Config.build s.rasterIn.val
      let out ← compressRaster Config.build s.rasterIn.val
      return { streamOut := some out, rdimW := some (trimPort s.rasterIn.val.width),
               rdimH := some (trimPort s.rasterIn.val.height) } := by
  simp only [commandCalc, compressCalc, withinCap, Config.build_bufCap, ok_bind]

theorem compress_succeeds (hv : s.rasterIn.valid = true) (h : WellFormedRaster s.rasterIn.val) {out : WordBuffer}
    (hout : compressRaster Config.build s.rasterIn.val = .ok out) :
    ∃ t, exec .compress s = .next t ∧
      Succeeded s t { streamOut := some out, rdimW := some (trimPort s.rasterIn.val.width),
                      rdimH := some (trimPort s.rasterIn.val.height) } := by
  refine exec_succeeds (i := .compress) (List.forall_mem_singleton.2 hv) ?_
  rw [compressCalc_build, checkRaster_ok h, ok_bind, hout, ok_bind, pure_calc]

theorem compress_fails {e : Error} (hv : s.rasterIn.valid = true) (h : checkRaster Config.build s.rasterIn.val = raise e) :
    ∃ t, exec .compress s = .next t ∧ Failed s t (statusWord e) := by
  refine exec_fails (i := .compress) (List.forall_mem_singleton.2 hv) ?_
  rw [compressCalc_build, h, raise_bind]

/-- A command that ends with STATUS 0x00000FF0 has a calculation that ended well: its errors have other words. -/
theorem succeeded_of_status_ok {i : Instr} (h : exec i s = .next t) (hok : t.status = 0x00000FF0#32)
    (hi : 0x00000FF0#32 ∉ errorWords i) : ∃ r, commandCalc Config.build i s = .ok r ∧ Succeeded s t r := by
  obtain ⟨-, ⟨r, hr, rfl⟩ | ⟨e, he, rfl⟩⟩ := exec_next h
  · exact ⟨r, hr, succeeded_succeed s r⟩
  · have hend := commandCalc_endsIn i s
    rw [he, endsIn_raise] at hend
    exact absurd (hok ▸ hend) hi

/-- A COMPRESS that completed had a well-formed raster, and STREAM_OUT holds its words. -/
theorem compress_completed (h : exec .compress s = .next t) (hok : t.status = 0x00000FF0#32) :
    WellFormedRaster s.rasterIn.val ∧ compressRaster Config.build s.rasterIn.val = .ok t.streamOut.val := by
  obtain ⟨r, hr, hend⟩ := succeeded_of_status_ok h hok (by decide)
  rw [compressCalc_build, bind_eq_ok] at hr
  obtain ⟨_, hcheck, hr⟩ := hr
  obtain ⟨out, hout, hr⟩ := bind_eq_ok.1 hr
  obtain rfl := Except.ok.inj hr
  have hstream : t.streamOut = ⟨out, true⟩ := hend.streamOut
  exact ⟨wellFormedRaster_of_checkRaster hcheck, hstream ▸ hout⟩

end

/-- Two blocks with the same pixels and denominator have the same word. -/
theorem IsBlockWord.unique {R R' : Raster} {br bc : Nat} {word word' : Word32} (h : IsBlockWord R br bc word)
    (h' : IsBlockWord R' br bc word') (hwidth : R.width = R'.width) (hdenom : R.denom = R'.denom)
    (hpx : ∀ row col, row / 2 = br → col / 2 = bc →
      R.px[row * R.width.toNat + col]? = R'.px[row * R.width.toNat + col]?) : word = word' := by
  obtain ⟨x0, x1, x2, x3, v, ⟨h0, h1, h2, h3⟩, hv, rfl⟩ := h
  obtain ⟨y0, y1, y2, y3, v', ⟨h0', h1', h2', h3'⟩, hv', rfl⟩ := h'
  rw [← hwidth] at h0' h1' h2' h3'
  obtain rfl := Option.some.inj (h0.symm.trans ((hpx _ _ (by omega) (by omega)).trans h0'))
  obtain rfl := Option.some.inj (h1.symm.trans ((hpx _ _ (by omega) (by omega)).trans h1'))
  obtain rfl := Option.some.inj (h2.symm.trans ((hpx _ _ (by omega) (by omega)).trans h2'))
  obtain rfl := Option.some.inj (h3.symm.trans ((hpx _ _ (by omega) (by omega)).trans h3'))
  rw [← hdenom, hv] at hv'
  rw [Except.ok.inj hv']

theorem half_trimDim (n : Nat) : trimDim n / 2 = n / 2 := by
  rw [trimDim]
  omega

/-! ### The obligations -/

/-- Settles O54: `compressRaster_ok` word by word. -/
theorem compressBlocks : Obligations.CompressBlocks := by
  intro s hv hR R W H pixel ypp
  obtain ⟨out, hout, hlength, hwords⟩ := compressRaster_ok hR
  obtain ⟨t, ht, hend⟩ := compress_succeeds hv hR hout
  refine ⟨t, out, _, _, ht, hend, toNat_trimPort _, toNat_trimPort _, hlength, fun br bc hbr hbc => ?_⟩
  obtain ⟨word, ⟨x0, x1, x2, x3, v, ⟨h0, h1, h2, h3⟩, hpack, rfl⟩, hget⟩ := hwords br bc hbr hbc
  exact ⟨x0, x1, x2, x3, v, h0, h1, h2, h3, hpack, hget⟩

/-- Settles O55: the checks of `valid_raster` in their order. -/
theorem compressErrors : Obligations.CompressErrors := by
  intro s hv R countOk denomOk
  have hcheck := checkRaster_eq R
  refine ⟨fun hcount => ?_, fun hcount hdenom => ?_, fun hcount hdenom hchannel => ?_⟩
  · exact compress_fails hv (hcheck.trans (if_neg hcount))
  · exact compress_fails hv (hcheck.trans ((if_pos hcount).trans (if_neg hdenom)))
  · have hbad : ¬ ∀ x ∈ R.px, x.r ≤ R.denom ∧ x.g ≤ R.denom ∧ x.b ≤ R.denom := by
      obtain ⟨x, hx, hlt⟩ := hchannel
      intro hall
      obtain ⟨hr, hg, hb⟩ := hall x hx
      obtain hlt | hlt | hlt := hlt
      · exact absurd hr (BitVec.not_le.2 hlt)
      · exact absurd hg (BitVec.not_le.2 hlt)
      · exact absurd hb (BitVec.not_le.2 hlt)
    exact compress_fails hv (hcheck.trans ((if_pos hcount).trans ((if_pos hdenom).trans (if_neg hbad))))

/-- Settles O56: both words are those of their blocks, whose pixels are the same. -/
theorem compressWordsAreLocal : Obligations.CompressWordsAreLocal := by
  intro s s' t t' hexec hexec' hok hok' hwidth hheight hdenom br bc hbr hbc hpx
  obtain ⟨hR, hout⟩ := compress_completed hexec hok
  obtain ⟨hR', hout'⟩ := compress_completed hexec' hok'
  obtain ⟨out, hcalc, -, hwords⟩ := compressRaster_ok hR
  obtain ⟨out', hcalc', -, hwords'⟩ := compressRaster_ok hR'
  obtain rfl := Except.ok.inj (hout.symm.trans hcalc)
  obtain rfl := Except.ok.inj (hout'.symm.trans hcalc')
  rw [← hwidth, ← hheight] at hwords'
  simp only [half_trimDim] at hwords hwords'
  obtain ⟨word, hword, hget⟩ := hwords br bc hbr hbc
  obtain ⟨word', hword', hget'⟩ := hwords' br bc hbr hbc
  rw [hget, hget', hword.unique hword' hwidth hdenom hpx]

end Sys2Proof.Machine
end

section
/-! SUPPORT. DECOMPRESS (45_pipeline.md R258, R263): its two checks, and the pixels of each word at their block's places. -/

namespace Sys2Proof.Machine

section

variable {dimBits : Nat} {W H k n : Nat} {ws : WordBuffer} {out : List Pixel}

/-! ### The scatter of the words (R253, R258) -/

@[simp] theorem length_wordPixels (p : Params) (w : Word32) : (wordPixels p w).length = 4 := rfl

/-- The scatter of a stream leaves every index alone that none of its blocks writes. -/
theorem scatterWords_other (p : Params) (h : ∀ j pos, j < ws.length → pos < 4 → blockMapOf W (k + j) pos ≠ n) :
    (scatterWords p W k ws out)[n]? = out[n]? := by
  induction ws generalizing k out with
  | nil => rfl
  | cons w ws ih =>
    have hrest : ∀ j pos, j < ws.length → pos < 4 → blockMapOf W (k + 1 + j) pos ≠ n := fun j pos hj hpos => by
      rw [Nat.add_assoc, Nat.add_comm 1 j]
      exact h (j + 1) pos (Nat.succ_lt_succ hj) hpos
    rw [scatterWords, ih hrest]
    exact scatterPixels_other fun pos hpos => by
      rw [Nat.zero_add]
      exact h 0 pos (Nat.succ_pos _) hpos

/-- The scatter of a stream writes each word's pixels where block_map puts them: no later block overwrites them. -/
theorem scatterWords_at (p : Params) {j pos : Nat} {w : Word32} {x : Pixel} (hk : k + ws.length ≤ blockCountOf W H)
    (hout : out.length = W * H) (hw : ws[j]? = some w) (hx : (wordPixels p w)[pos]? = some x) :
    (scatterWords p W k ws out)[blockMapOf W (k + j) pos]? = some x := by
  have hpos : pos < 4 := (List.getElem?_eq_some_iff.1 hx).1
  induction ws generalizing k out j with
  | nil => exact nomatch hw
  | cons w' ws ih =>
    rw [List.length_cons] at hk
    rw [scatterWords]
    cases j with
    | zero =>
      obtain rfl : w' = w := Option.some.inj hw
      have hblock : k < blockCountOf W H := by omega
      rw [Nat.add_zero, scatterWords_other p fun j pos' _ hpos' heq => by
        have := (blockMapOf_inj hblock hpos hpos' heq.symm).1
        omega]
      have hat := scatterPixels_at (W := W) (k := k) (xs := wordPixels p w') (pos := 0) (out := out) (by simp)
        (fun pos hpos => (blockMapOf_lt hblock hpos).trans_eq hout.symm)
        (fun pos pos' hpos hpos' heq => (blockMapOf_inj hblock hpos hpos' heq).2) hx
      rwa [Nat.zero_add] at hat
    | succ j =>
      rw [Nat.add_comm j 1, ← Nat.add_assoc]
      exact ih (by omega) (by rw [length_scatterPixels, hout]) hw

/-! ### The pixels of a word (R164, R165) -/

/-- A channel in 0..255 reads back from its 32-bit word. -/
theorem toNat_channelOf (x : F64) :
    ((BitVec.ofInt 32 (channelOf Config.build x Config.build.decDenom)).toNat : Int) =
      min (max (F64.round (F64.mul x (F64.ofInt 255))) 0) 255 := by
  have hdenom : ((Config.build.decDenom : Nat) : Int) = 255 := by rw [Config.build_decDenom]; rfl
  rw [hdenom, channelOf_build, BitVec.toNat_ofInt]
  omega

/-! ### The command -/

/-- DECOMPRESS under the build, whose buffers are unbounded (log 6), split by its checks. -/
theorem decompressCalc_build (s : State dimBits) :
    commandCalc Config.build .decompress s =
      if s.dimWNat % 2 = 0 ∧ s.dimHNat % 2 = 0 then
        if s.streamIn.val.length = blockCountOf s.dimWNat s.dimHNat then
          .ok { rasterOut := some (decompressStream Config.build s.streamIn.val s.dimW.val s.dimH.val) }
        else raise (errMalformed reasonWordCount)
      else raise (errMalformed reasonOddDimension) := by
  simp only [commandCalc, decompressCalc, withinCap, Config.build_bufCap, ok_bind, checkEven_bind,
    check_decide_bind, pure_calc]

end

section

variable {s : State}

/-- The ports that DECOMPRESS reads, R92's STREAM_IN, DIM_W and DIM_H, are written. -/
theorem decompressOperands_written (hS : s.streamIn.valid = true) (hW : s.dimW.valid = true) (hH : s.dimH.valid = true) :
    ∀ p ∈ operandPorts .decompress, s.inValid p = true :=
  List.forall_mem_cons.2 ⟨hS, dimensionOperands_written hW hH⟩

theorem decompress_succeeds (hS : s.streamIn.valid = true) (hW : s.dimW.valid = true) (hH : s.dimH.valid = true)
    (heven : s.dimW.val.toNat % 2 = 0 ∧ s.dimH.val.toNat % 2 = 0)
    (hlength : s.streamIn.val.length = blockCountOf s.dimW.val.toNat s.dimH.val.toNat) :
    ∃ t, exec .decompress s = .next t ∧
      Succeeded s t { rasterOut := some (decompressStream Config.build s.streamIn.val s.dimW.val s.dimH.val) } :=
  exec_succeeds (decompressOperands_written hS hW hH)
    ((decompressCalc_build s).trans ((if_pos heven).trans (if_pos hlength)))

theorem length_decompressStream (p : Params) (S : WordBuffer) (W H : Word32) :
    (decompressStream p S W H).n = W.toNat * H.toNat := by
  rw [Raster.n, decompressStream, length_scatterWords, List.length_replicate]

end

/-! ### The obligations -/

/-- Settles O57: `scatterWords_at` for the words of the stream, each pixel being `yppToPixel` of its position. -/
theorem decompressPixels : Obligations.DecompressPixels := by
  intro s hS hW hH S W H hWeven hHeven hlength
  obtain ⟨t, ht, hend⟩ := decompress_succeeds hS hW hH ⟨hWeven, hHeven⟩ hlength
  refine ⟨t, _, ht, hend, rfl, rfl, by rw [decompressStream, Config.build_decDenom], length_decompressStream _ _ _ _, ?_⟩
  intro br bc p w q hbr hbc hw hq
  refine ⟨yppToPixel Config.build q, ?_, ?_⟩
  · have hx : (wordPixels Config.build w)[p]? = some (yppToPixel Config.build q) := by
      rw [wordPixels, Config.build_numeric, List.getElem?_map, hq, Option.map_some]
    have hat := scatterWords_at (W := W) (H := H) (k := 0) Config.build (by rw [Nat.zero_add, hlength]; rfl)
      (List.length_replicate (n := W * H) (a := (⟨0, 0, 0⟩ : Pixel))) hw hx
    rwa [Nat.zero_add, blockMapOf_at hbc] at hat
  · rw [yppToPixel, Config.build_numeric]
    exact ⟨toNat_channelOf _, toNat_channelOf _, toNat_channelOf _⟩

/-- Settles O58: the parities are checked before the number of words. -/
theorem decompressErrors : Obligations.DecompressErrors := by
  intro s hS hW hH W H
  have hops := decompressOperands_written hS hW hH
  have hcalc := decompressCalc_build s
  refine ⟨fun hodd => ?_, fun hWeven hHeven hlength => ?_⟩
  · exact exec_fails hops (hcalc.trans (if_neg hodd))
  · exact exec_fails hops (hcalc.trans ((if_pos ⟨hWeven, hHeven⟩).trans (if_neg hlength)))

/-- Settles O59: the trimmed dimensions are even, and COMPRESS gives one word for each of their blocks. -/
theorem decompressOfCompress : Obligations.DecompressOfCompress := by
  intro s hv hR
  obtain ⟨out, hout, hlength, -⟩ := compressRaster_ok hR
  obtain ⟨t, ht, hend⟩ := compress_succeeds hv hR hout
  have hstream : t.streamOut = ⟨out, true⟩ := hend.streamOut
  have hW : t.rdimW = ⟨trimPort s.rasterIn.val.width, true⟩ := hend.rdimW
  have hH : t.rdimH = ⟨trimPort s.rasterIn.val.height, true⟩ := hend.rdimH
  have hWnat : t.rdimW.val.toNat = trimDim s.rasterIn.val.width.toNat := by rw [hW]; exact toNat_trimPort _
  have hHnat : t.rdimH.val.toNat = trimDim s.rasterIn.val.height.toNat := by rw [hH]; exact toNat_trimPort _
  have hcount : t.streamOut.val.length = blockCountOf t.rdimW.val.toNat t.rdimH.val.toNat := by
    rw [hstream, hWnat, hHnat, hlength]
  refine ⟨t, ht, hend.status, hWnat, hHnat, hcount, fun u huS huW huH => ?_⟩
  have heven (n : Nat) : trimDim n % 2 = 0 := by rw [trimDim]; omega
  obtain ⟨v, hexec, hvend⟩ := decompress_succeeds (s := u) (by rw [huS, hstream]) (by rw [huW, hW]) (by rw [huH, hH])
    (by rw [huW, huH, hWnat, hHnat]; exact ⟨heven _, heven _⟩) (by rw [huS, huW, huH, hcount])
  have hraster : v.rasterOut = ⟨decompressStream Config.build u.streamIn.val u.dimW.val u.dimH.val, true⟩ := hvend.rasterOut
  refine ⟨v, hexec, hvend.status, by rw [hraster], ?_, ?_, ?_⟩
  · rw [hraster, decompressStream, huW, hWnat, trimDim]
  · rw [hraster, decompressStream, huH, hHnat, trimDim]
  · rw [hraster]
    exact length_decompressStream _ _ _ _

end Sys2Proof.Machine
end

section
/-! SUPPORT. With its operands written every command ends (10_state.md R36, 60_exceptions.md R302). -/

namespace Sys2Proof.Machine

/-- A calculation under the build ends well or raises an error. Only the buffer commands could stop at anything else, and COMPRESS
reads inside its buffers once the raster has passed its checks (R61, R76). -/
theorem calc_ok_or_raise (i : Instr) (s : State) :
    (∃ r, commandCalc Config.build i s = .ok r) ∨ ∃ e, commandCalc Config.build i s = raise e := by
  by_cases hc : i = .compress
  case pos =>
    subst hc
    rw [compressCalc_build]
    obtain hR | ⟨e, he⟩ := wellFormedRaster_or_raise s.rasterIn.val
    · obtain ⟨out, hout, -⟩ := compressRaster_ok hR
      rw [checkRaster_ok hR, ok_bind, hout, ok_bind, pure_calc]
      exact .inl ⟨_, rfl⟩
    · rw [he, raise_bind]
      exact .inr ⟨e, rfl⟩
  by_cases hd : i = .decompress
  case pos =>
    subst hd
    rw [decompressCalc_build]
    split_ifs
    · exact .inl ⟨_, rfl⟩
    · exact .inr ⟨_, rfl⟩
    · exact .inr ⟨_, rfl⟩
  have hstop : StopsIn (fun stop => ∃ e, stop = .raised e) (commandCalc Config.build i s) :=
    stopsIn_commandCalc_of_no_buffer (fun e => ⟨e, rfl⟩) Config.build hc hd s
  cases hcalc : commandCalc Config.build i s with
  | ok r => exact .inl ⟨r, rfl⟩
  | error stop =>
    obtain ⟨e, rfl⟩ := hstop stop hcalc
    exact .inr ⟨e, rfl⟩

/-- Settles O15: with its operands written a command ends as its calculation does, well or with an error. -/
theorem commandsStopOnlyOnUnwrittenOperands : Obligations.CommandsStopOnlyOnUnwrittenOperands := by
  intro i s
  refine ⟨exec_unwritten, fun hops => ?_⟩
  obtain ⟨r, hr⟩ | ⟨e, he⟩ := calc_ok_or_raise i s
  · obtain ⟨t, ht, -⟩ := exec_succeeds hops hr
    exact ⟨t, ht⟩
  · obtain ⟨t, ht, -⟩ := exec_fails hops he
    exact ⟨t, ht⟩

end Sys2Proof.Machine
end
